-- ==== Sys2Proof/Word.lean ====
section
/-! DEFINITION. The word types of the block: bytes of the memories and of the stream (R13, R60), and the
64-bit words of counts, offsets, operands and register reads (R8, R44, R80). -/

namespace Sys2Proof

/-- A byte (R13). -/
abbrev Byte := BitVec 8

/-- A 64-bit word: a count, an offset, a command operand or a register read (R8, R44, R80). -/
abbrev Word := BitVec 64

end Sys2Proof
end

