-- ==== Sys2Proof/Config.lean ====
section
/-! DEFINITION. What is fixed for one block: the format constants (R3, R10, R11), the open parameter DEST_CAP
(R9), and the free values, which the spec calls unspecified and nothing in Lean can evaluate. -/

namespace Sys2Proof

/-- The open parameter of the model (R9, D14): the capacity of DEST in bytes, `none` when unbounded.
Statements hold for every value of it. DESIGN CHOICE (log 6) only for its value in `State.reset`. -/
structure Config where
  destCap : Option Nat
  deriving DecidableEq, Repr

namespace Config

/-- `BS`, the values of a block (R3). -/
@[simp] abbrev blockSize : Nat := 128

/-- `NMB`, the mini-blocks of a block (R3). -/
@[simp] abbrev numMiniBlocks : Nat := 4

/-- `VPM`, the values of a mini-block (R3). -/
@[simp] abbrev valuesPerMiniBlock : Nat := 32

/-- `RB_CAP = 2 × BS`, the entries of the rolling buffer (R11, R36). -/
@[simp] abbrev rollingCapacity : Nat := 256

/-- `CHUNK_SLOTS`, the most slots an ADD may carry (R10). -/
@[simp] abbrev chunkSlots : Nat := 128

/-- FREE VALUE (log 3): the byte that a memory holds at an offset nothing has written. The first argument
names the memory's contents, the second is the offset. -/
opaque freeByte : Nat → Nat → Byte

/-- FREE VALUE (logs 3 and 5): an unspecified element of OUT (R245, R292). The first argument names the event
that left it unspecified, the second is the index. -/
opaque freeElement : Nat → Nat → BitVec 64

/-- FREE VALUE (log 4): what `MBW[m]` holds between flushes (R38). The first argument names the flush, the
second is `m`. -/
opaque freeMiniWidth : Nat → Nat → BitVec 7

end Config
end Sys2Proof
end

