-- ==== Sys2Proof/Syntax.lean ====
section
/-! DEFINITION. The commands as syntax (R84, R87), the command tuple on the port (R80) and the chunk slots. -/

namespace Sys2Proof

/-- The value width `W` of a session or of one decode: 32 or 64 bits (R7, R82). -/
inductive ValueWidth
  | w32
  | w64
  deriving DecidableEq, Repr

/-- One chunk slot of an ADD: `VAL[i]` and `VALID[i]` (R63, R80). The value stands in a 64-bit lane, of which a
session at `W = 32` reads the low 32 bits (log 10). -/
structure Slot where
  value : Word
  valid : Bool
  deriving DecidableEq, Repr

/-- The slot of value 0 that is not valid, as the assembler writes `null` (R99). -/
abbrev Slot.null : Slot := ⟨0, false⟩

/-- One constructor per row of spec/opcode_table.json, with the operands the opcode reads (R84, R87). -/
inductive Instr
  /-- INIT (R190): the value width and `total_value_count` (ARG). -/
  | init (width : ValueWidth) (total : Word)
  /-- ADD (R193): NSLOTS and the chunk slots it may read (log 12). -/
  | add (nslots : BitVec 8) (slots : List Slot)
  /-- FINISH (R200). -/
  | finish
  /-- DECODE (R240): the value width, the expected count (ARG) and `LEN` (ARG2). -/
  | decode (width : ValueWidth) (total len : Word)
  deriving DecidableEq, Repr

/-- The command tuple of R80: CMD, ARG, ARG2 and the 128 chunk slots. -/
structure Command where
  cmd   : BitVec 32
  arg   : Word
  arg2  : Word
  slots : Vector Slot 128
  deriving DecidableEq, Repr

end Sys2Proof
end

