-- ==== Sys2Proof/WellFormed.lean ====
section
/-! DEFINITION. The well-formed instructions: those whose operands are what the command tuple can carry. -/

namespace Sys2Proof

/-- An ADD carries its slots `0 .. NSLOTS − 1`; the tuple has 128 of them, so an ADD whose NSLOTS is above 128
(encodable, R83; it raises ERR_BATCH_SIZE) carries all 128. No other operand has a condition (R87, R88). -/
def Instr.wf : Instr → Bool
  | .init _ _ => true
  | .add nslots slots => slots.length == min nslots.toNat Config.chunkSlots
  | .finish => true
  | .decode _ _ _ => true

end Sys2Proof
end

