-- ==== Sys2Proof/Decode.lean ====
section
/-! DEFINITION. The command decoder, total on every CMD word and rejecting by name (R81 to R87), and after it the
encoder, written from the same tables. -/

namespace Sys2Proof

/-- Why a CMD word matches no row of R85; each raises ERR_ILLEGAL_CMD (R86). -/
inductive DecodeError
  /-- OPC is outside 0x01 .. 0x04 (R84). -/
  | unknownOpcode
  /-- NSLOTS must be 0 for INIT, FINISH and DECODE (R85). -/
  | nslotsNotZero
  /-- WSEL must be 0 for ADD and FINISH (R85). -/
  | wselNotZero
  /-- RSVD must be 0 for every command (R81, R85). -/
  | reservedNotZero
  deriving DecidableEq, Repr

/-- OPC, CMD bits [7:0] (R81). -/
def fieldOpc (cmd : BitVec 32) : BitVec 8 := cmd.extractLsb' 0 8

/-- NSLOTS, CMD bits [15:8] (R81). -/
def fieldNslots (cmd : BitVec 32) : BitVec 8 := cmd.extractLsb' 8 8

/-- WSEL, CMD bit [16] (R81). -/
def fieldWsel (cmd : BitVec 32) : BitVec 1 := cmd.extractLsb' 16 1

/-- RSVD, CMD bits [31:17] (R81). -/
def fieldRsvd (cmd : BitVec 32) : BitVec 15 := cmd.extractLsb' 17 15

/-- `W = 32` when WSEL = 0 and `W = 64` when WSEL = 1 (R82). -/
def widthOfWsel (wsel : BitVec 1) : ValueWidth := if wsel = 1 then .w64 else .w32

/-- The WSEL bit of a width (R33, R82). -/
def wselOfWidth : ValueWidth → BitVec 1
  | .w32 => 0
  | .w64 => 1

/-- The decoder: the instruction a command tuple carries, or the reason its CMD word is illegal (R85, R86).
An operand the opcode does not read is dropped (R87). -/
def decode (c : Command) : Except DecodeError Instr :=
  if fieldRsvd c.cmd ≠ 0 then .error .reservedNotZero
  else if fieldOpc c.cmd = 0x01 then
    if fieldNslots c.cmd ≠ 0 then .error .nslotsNotZero
    else .ok (.init (widthOfWsel (fieldWsel c.cmd)) c.arg)
  else if fieldOpc c.cmd = 0x02 then
    if fieldWsel c.cmd ≠ 0 then .error .wselNotZero
    else .ok (.add (fieldNslots c.cmd) (c.slots.toList.take (fieldNslots c.cmd).toNat))
  else if fieldOpc c.cmd = 0x03 then
    if fieldNslots c.cmd ≠ 0 then .error .nslotsNotZero
    else if fieldWsel c.cmd ≠ 0 then .error .wselNotZero
    else .ok .finish
  else if fieldOpc c.cmd = 0x04 then
    if fieldNslots c.cmd ≠ 0 then .error .nslotsNotZero
    else .ok (.decode (widthOfWsel (fieldWsel c.cmd)) c.arg c.arg2)
  else .error .unknownOpcode

/-- CMD from its four fields, RSVD first (R81). -/
def cmdWord (rsvd : BitVec 15) (wsel : BitVec 1) (nslots opc : BitVec 8) : BitVec 32 :=
  rsvd ++ wsel ++ nslots ++ opc

/-- The CMD word of an instruction (R84, R85). -/
def encodeCmd : Instr → BitVec 32
  | .init width _ => cmdWord 0 (wselOfWidth width) 0 0x01
  | .add nslots _ => cmdWord 0 0 nslots 0x02
  | .finish => cmdWord 0 0 0 0x03
  | .decode width _ _ => cmdWord 0 (wselOfWidth width) 0 0x04

/-- The 128 slots of the tuple from the slots an ADD carries; those past them are null (R87). -/
def padSlots (slots : List Slot) : Vector Slot 128 :=
  Vector.ofFn fun i => slots.getD i.val Slot.null

/-- The encoder: the command tuple of an instruction, with 0 in every operand it does not read (R87). -/
def encode (i : Instr) : Command :=
  match i with
  | .init _ total => ⟨encodeCmd i, total, 0, padSlots []⟩
  | .add _ slots => ⟨encodeCmd i, 0, 0, padSlots slots⟩
  | .finish => ⟨encodeCmd i, 0, 0, padSlots []⟩
  | .decode _ total len => ⟨encodeCmd i, total, len, padSlots []⟩

/-- The command tuple whose low `nbits` bits are `w`, bit 0 the least significant bit of CMD, and whose every
other bit is 0. -/
def Command.ofTableWord (nbits w : Nat) : Command :=
  ⟨BitVec.ofNat 32 (w % 2 ^ nbits), 0, 0, Vector.replicate 128 Slot.null⟩

/-- The instruction the decoder reads from a word of spec/opcode_table.json's numbering (log 17). -/
def decodeTableWord (nbits w : Nat) : Option Instr :=
  match decode (Command.ofTableWord nbits w) with
  | .ok i => some i
  | .error _ => none

end Sys2Proof
end

