-- ==== Sys2Proof/Machine/State.lean ====
section
/-! DEFINITION. The state of the block: every register of 10_state.md, the three memories of 20_memory.md, the
parameter DEST_CAP, the host's coming actions, and the machine right after power-on reset (R49, R290). -/

namespace Sys2Proof.Machine

/-- `ENC_STATE`, a 2-bit register with four named values (R32). -/
inductive EncState
  | idle
  | opened
  | finished
  | error
  deriving DecidableEq, Repr

/-- A byte memory, DEST or IN (R60, R61): the bytes that have been written, offsets strictly rising, and the name
under which the free values of the other offsets are drawn (log 3). -/
structure Memory where
  cells : List Host.Cell
  seed  : Nat
  deriving DecidableEq, Repr

/-- A failed DECODE left the elements of OUT below `bound` unspecified, each of `width` bits (R245, log 5). -/
structure OutLayer where
  bound : Nat
  seed  : Nat
  width : ValueWidth
  deriving DecidableEq, Repr

/-- Where the bytes of IN lie (R61, R70): in a span the host has supplied, or in DEST, to which the host may bind IN
while the session is FINISHED (R100, R296 (b); log 9). -/
inductive Span
  | supplied (bytes : Memory)
  | boundToDest
  deriving DecidableEq, Repr

/-- OUT, the decoder's output array (R62): the elements that have been written, indexes strictly rising; the
failed decodes since, newest first, bounds strictly rising; and the name of the free values of the rest. -/
structure OutMemory where
  cells  : List (Nat × Word)
  layers : List OutLayer
  seed   : Nat
  deriving DecidableEq, Repr

/-- What the host does to the block between commands, as data (logs 1, 9, 14). -/
inductive HostAction
  /-- Issue a command on the command port (R66, R80). -/
  | command (c : Command)
  /-- Supply the decode span: its bytes from offset 0 (R61, R70). -/
  | provideIn (bytes : List Byte)
  /-- Bind IN to DEST, which the host may do when the session is FINISHED (R100, R296 (b)). -/
  | bindInToDest
  deriving DecidableEq, Repr

/-- The reasons a step can stop with a fault. -/
inductive Fault
  /-- Raised by FINISH (and by no other command) when FLUSH is called outside its operand range `1 ≤ n ≤ 128`,
  `n ≤ PENDING_COUNT`, `LOGICAL_INDEX ≥ 1`, for which the spec gives no block (R160; R142 lets a model treat an
  internal precondition so). No state reached from reset raises it (log 8). Safe. -/
  | flushOperand
  deriving DecidableEq, Repr

/-- The reasons a step can be refused. -/
inductive Refusal
  /-- An instruction of the opcode table that has no meaning yet, by its mnemonic; raised by `exec` only. Safe. -/
  | notModelled (mnemonic : String)
  /-- Raised by DECODE when IN is bound to DEST, and by the host action `bindInToDest`, when the session of DEST is
  not FINISHED: the spec calls that launch unsaid (R296 (b), U9; log 9). Safe. -/
  | overlapUnsaid
  /-- Raised by DECODE when IN is bound to the DEST of a FINISHED session of the other value width: the spec calls that
  launch unsaid (R296 (d), U9; log 20). Safe. -/
  | widthUnsaid
  deriving DecidableEq, Repr

/-- The state of the block. -/
structure State where
  /-- DEST_CAP (R9); constant. -/
  config        : Config
  /-- ENC_STATE (R32). -/
  encState      : EncState
  /-- ENC_W (R33). -/
  encW          : ValueWidth
  /-- TOTAL_VALUES (R34). -/
  totalValues   : Word
  /-- LOGICAL_INDEX (R35). -/
  logicalIndex  : Word
  /-- PENDING_COUNT (R36). -/
  pendingCount  : BitVec 9
  /-- RB (R37), each entry a `W`-bit value in a 64-bit cell (log 10). -/
  rb            : Vector Word 256
  /-- MBW (R38). -/
  mbw           : Vector (BitVec 7) 4
  /-- OUTPUT_CURSOR (R39). -/
  outputCursor  : Word
  /-- DEC_CONSUMED (R41). -/
  decConsumed   : Word
  /-- DEC_PRODUCED (R41). -/
  decProduced   : Word
  /-- RESULT (R42). -/
  result        : BitVec 8
  /-- DEST (R60). -/
  dest          : Memory
  /-- IN (R61). -/
  inSpan        : Span
  /-- OUT (R62). -/
  out           : OutMemory
  /-- The model's own field: the host's coming actions, oldest first (log 1). -/
  port          : List HostAction
  /-- The model's own field: how many names of free values have been drawn (log 16). -/
  freeCount     : Nat
  deriving DecidableEq, Repr

/-- The machine right after power-on reset (R49, R290, R292). DESIGN CHOICE: RB and MBW hold 0 (log 2), DEST_CAP is
unbounded (log 6), nothing is on the port (log 1) and three names of free values are drawn (log 16). -/
def State.reset : State where
  config       := ⟨none⟩
  encState     := .idle
  encW         := .w32
  totalValues  := 0
  logicalIndex := 0
  pendingCount := 0
  rb           := Vector.replicate 256 0
  mbw          := Vector.replicate 4 0
  outputCursor := 0
  decConsumed  := 0
  decProduced  := 0
  result       := 0
  dest         := ⟨[], 0⟩
  inSpan       := .supplied ⟨[], 1⟩
  out          := ⟨[], [], 2⟩
  port         := []
  freeCount    := 3

end Sys2Proof.Machine
end

