-- ==== Sys2Proof/Machine/Ops.lean ====
section
/-! DEFINITION. The named operations over the memories and the registers: reading and writing DEST, IN and OUT,
the rolling buffer, raising an error (R260), and the commit of a command's output list (R197). -/

namespace Sys2Proof

/-- The number of bits of a value width (R7, R82). -/
def ValueWidth.bits : ValueWidth → Nat
  | .w32 => 32
  | .w64 => 64

/-- The most bytes DEST can hold: DEST_CAP, and no more than the 64-bit OUTPUT_CURSOR can count (R9, R39, R60;
log 7). -/
def Config.sinkLimit (c : Config) : Nat := min (c.destCap.getD (2 ^ 64 - 1)) (2 ^ 64 - 1)

namespace Machine

/-! ## Memories -/

/-- The cells of consecutive offsets from `a` on. -/
def cellsFrom {α : Type} (a : Nat) : List α → List (Nat × α)
  | [] => []
  | v :: vs => (a, v) :: cellsFrom (a + 1) vs

/-- The value listed at `a`, if one is. -/
def lookupCell {α : Type} (cells : List (Nat × α)) (a : Nat) : Option α :=
  (cells.find? fun c => c.1 == a).map (·.2)

/-- Offsets or indexes strictly rising. -/
abbrev Rising {α : Type} (cells : List (Nat × α)) : Prop := (cells.map (·.1)).Pairwise (· < ·)

/-- The canonical form of a byte memory. An offset that is not listed has no written byte, so no entry can repeat
what an unlisted offset reads as. -/
def Memory.wf (m : Memory) : Bool := decide (Rising m.cells)

/-- What an offset holds: the byte written last, or nothing. -/
def Memory.read? (m : Memory) (a : Nat) : Option Byte := lookupCell m.cells a

/-- `MemRead` of one byte (R16, R65): an offset nothing has written reads as a free value (R292, log 3). -/
def Memory.read (m : Memory) (a : Nat) : Byte := (m.read? a).getD (Config.freeByte m.seed a)

/-- `MemWrite(M, a, n, s)` with `n` the length of `s` (R16). -/
def Memory.writeBytes (m : Memory) (a : Nat) (s : List Byte) : Memory :=
  { m with cells := m.cells.filter (fun c => c.1 < a) ++ cellsFrom a s
                      ++ m.cells.filter (fun c => a + s.length ≤ c.1) }

/-- The canonical form of OUT. -/
def OutMemory.wf (o : OutMemory) : Bool :=
  decide (Rising o.cells) && decide ((o.layers.map (·.bound)).Pairwise (· < ·))

/-- What an element of OUT holds: the value written last, or nothing. -/
def OutMemory.read? (o : OutMemory) (j : Nat) : Option Word := lookupCell o.cells j

/-- The free value of an element that has no written value: of the newest failed DECODE that covers it, a value of
that decode's width (R245, log 5), else of the contents nothing has written (log 3). -/
def OutMemory.unspecified (o : OutMemory) (j : Nat) : Word :=
  match o.layers.find? (fun l => j < l.bound) with
  | some l => ((Config.freeElement l.seed j).setWidth l.width.bits).setWidth 64
  | none => Config.freeElement o.seed j

/-- `OUT[j]` as the host reads it (R62), zero-extended to 64 bits (log 11). -/
def OutMemory.read (o : OutMemory) (j : Nat) : Word := (o.read? j).getD (o.unspecified j)

/-- `OUT[0 .. n−1] <- vs` with `n` the length of `vs`, and nothing else (R62, R247). -/
def OutMemory.writeAll (o : OutMemory) (vs : List Word) : OutMemory :=
  { o with cells  := cellsFrom 0 vs ++ o.cells.filter (fun c => vs.length ≤ c.1)
           layers := o.layers.filter (fun l => vs.length < l.bound) }

/-- `OUT[0 .. n−1]` becomes unspecified under the name `seed` (R245). -/
def OutMemory.forget (o : OutMemory) (n seed : Nat) (width : ValueWidth) : OutMemory :=
  if n = 0 then o
  else { o with cells  := o.cells.filter (fun c => n ≤ c.1)
                layers := ⟨n, seed, width⟩ :: o.layers.filter (fun l => n < l.bound) }

/-! ## Result codes and errors -/

/-- The result codes (R261). -/
inductive ResultCode
  | ok
  | errIllegalCmd
  | errSequence
  | errBatchSize
  | errOvercount
  | errUndercount
  | errSinkOverflow
  | decTruncated
  | decVarintOverflow
  | decBadHeader
  | decCountMismatch
  | decBadWidth
  deriving DecidableEq, Repr

/-- The 8-bit code of a result (R261). -/
def ResultCode.code : ResultCode → BitVec 8
  | .ok => 0x00
  | .errIllegalCmd => 0x01
  | .errSequence => 0x02
  | .errBatchSize => 0x03
  | .errOvercount => 0x04
  | .errUndercount => 0x05
  | .errSinkOverflow => 0x06
  | .decTruncated => 0x10
  | .decVarintOverflow => 0x11
  | .decBadHeader => 0x12
  | .decCountMismatch => 0x13
  | .decBadWidth => 0x14

/-- `RESULT <- code` (R42). -/
def State.setResult (s : State) (r : ResultCode) : State := { s with result := r.code }

/-- `raise E` (R260): the command ends with its code in RESULT, no saved state, no handler and no change of
control; the raising rule makes its own listed changes first. -/
def State.raise (s : State) (e : ResultCode) : State := s.setResult e

/-- `ENC_STATE <- ERROR` (R262). -/
def State.enterError (s : State) : State := { s with encState := .error }

/-- A CMD word that matches no row: ERR_ILLEGAL_CMD and no other change (R86). -/
def State.illegalCommand (s : State) : State := s.raise .errIllegalCmd

/-! ## Registers -/

/-- The width `W` of the session in bits (R33). -/
def State.sessionBits (s : State) : Nat := s.encW.bits

/-- `A = LOGICAL_INDEX + PENDING_COUNT` as an unbounded integer (R191). -/
def State.accepted (s : State) : Nat := s.logicalIndex.toNat + s.pendingCount.toNat

/-- The valid value at stream position `p`, held in `RB[p mod 256]` (R37); of the 64-bit cell the session's `W`
bits (log 10). -/
def State.rbValue (s : State) (p : Nat) : BitVec s.sessionBits :=
  (s.rb[p % Config.rollingCapacity]'(Nat.mod_lt _ (by decide))).setWidth s.sessionBits

/-- `RB[p mod 256] <- v` for the consecutive stream positions from `p` on (R192, R193). -/
def rbStore (rb : Vector Word 256) (p : Nat) : List Word → Vector Word 256
  | [] => rb
  | v :: vs => rbStore (rb.set (p % Config.rollingCapacity) v (Nat.mod_lt _ (by decide))) (p + 1) vs

/-! ## Commit -/

/-- The commit's capacity test passes: `OUTPUT_CURSOR + len(S) ≤ DEST_CAP` (R197, log 7). -/
def State.fits (s : State) (output : List Byte) : Bool :=
  decide (s.outputCursor.toNat + output.length ≤ s.config.sinkLimit)

/-- `MemWrite(DEST, OUTPUT_CURSOR, len(S), S)` and `OUTPUT_CURSOR <- OUTPUT_CURSOR + len(S)` (R197). -/
def State.commitBytes (s : State) (output : List Byte) : State :=
  { s with dest := s.dest.writeBytes s.outputCursor.toNat output
           outputCursor := s.outputCursor + BitVec.ofNat 64 output.length }

/-- ERR_SINK_OVERFLOW: RB, LOGICAL_INDEX and PENDING_COUNT go back to their values at the command's start and
ENC_STATE becomes ERROR (R197). -/
def State.overflowSink (start work : State) : State :=
  State.raise (State.enterError { work with rb := start.rb
                                            logicalIndex := start.logicalIndex
                                            pendingCount := start.pendingCount }) .errSinkOverflow

/-- `COMMIT()` (R197), the last step of ADD and FINISH: `start` is the state at the command's start, `work` the
state it has reached, `output` its output list, `finish` what the command does once the bytes are in DEST. -/
def State.commit (start work : State) (output : List Byte) (finish : State → State) : State :=
  if start.fits output then finish (work.commitBytes output) else start.overflowSink work

/-! ## The host's side -/

/-- The host supplies the decode span: its bytes at IN offsets from 0 on; what lies past them is unspecified under
a name of its own (R61, R70; log 14). -/
def State.supplySpan (s : State) (bytes : List Byte) : State :=
  { s with inSpan := .supplied ⟨cellsFrom 0 bytes, s.freeCount⟩, freeCount := s.freeCount + 1 }

/-- The host binds IN to DEST (R100, R296 (b); log 9). -/
def State.bindSpan (s : State) : State := { s with inSpan := .boundToDest }

/-- The byte memory that a read of IN reads: the supplied span, or DEST as it stands (R61, R100). -/
def State.inMem (s : State) : Memory :=
  match s.inSpan with
  | .supplied bytes => bytes
  | .boundToDest => s.dest

/-- Why a DECODE at `width` is a launch that R296 leaves unsaid, if it is one: IN is bound to DEST, and its session is
not FINISHED (b; log 9) or is of the other width (d; log 20). A supplied span does not say which session made it. -/
def State.launchRefusal (s : State) (width : ValueWidth) : Option Refusal :=
  match s.inSpan with
  | .supplied _ => none
  | .boundToDest =>
    if s.encState ≠ .finished then some .overlapUnsaid
    else if s.encW ≠ width then some .widthUnsaid
    else none

end Machine
end Sys2Proof
end

