-- ==== Sys2Proof/Machine/BitPack.lean ====
section
/-! DEFINITION. The bit width and the bit-packer (42_bitpack.md), exact on natural numbers (R144). -/

namespace Sys2Proof.Machine

/-- `bitlen(x)`: 0 for 0, else the least `k` with `x < 2^k` (R15); it is `BITWIDTH` (R149). -/
def bitLen (x : Nat) : Nat := if x = 0 then 0 else Nat.log2 x + 1

/-- `ceil(cnt × w / 8)`, the bytes of a packed run (R140). -/
def runBytes (cnt w : Nat) : Nat := (cnt * w + 7) / 8

/-- The packer's scratch: value `i` shifted to bit `i × w`, merged by bitwise OR into zeros (R140, R141). The first
argument is the number of the first value of the list. -/
def packScratch (w : Nat) : Nat → List Nat → Nat
  | _, [] => 0
  | i, v :: vs => (v <<< (i * w)) ||| packScratch w (i + 1) vs

/-- Bytes `0 .. nb − 1` of an integer, byte `k` its bits `8k+7 .. 8k` (R64, R140). -/
def bytesOfNat (nb acc : Nat) : List Byte := (List.range nb).map fun k => BitVec.ofNat 8 (acc >>> (8 * k))

/-- `PACK(cnt, w, vals)` with `cnt` the length of `vals` (R140). -/
def pack (w : Nat) (vals : List Nat) : List Byte := bytesOfNat (runBytes vals.length w) (packScratch w 0 vals)

/-- `MB_PAYLOAD(w, cnt, vals)` with `cnt` the length of `vals` (R145): the packed run and its zero fill to `4 × w`
bytes; nothing when there is no real value. -/
def miniBlockPayload (w : Nat) (vals : List Nat) : List Byte :=
  if vals = [] then []
  else pack w vals ++ List.replicate (4 * w - (pack w vals).length) 0

/-- The little-endian integer of `nb` bytes of the span from `c` on (R147). -/
def natOfSpan (rd : Nat → Byte) (c : Nat) : Nat → Nat
  | 0 => 0
  | nb + 1 => (rd c).toNat ||| (natOfSpan rd (c + 1) nb <<< 8)

/-- `UNPACK(cnt, w, c)` at value width `W` (R147): value `i` is bits `i × w + w − 1 .. i × w` of the run. -/
def unpack (W cnt w : Nat) (rd : Nat → Byte) (c : Nat) : List (BitVec W) :=
  (List.range cnt).map fun i => BitVec.ofNat W ((natOfSpan rd c (runBytes cnt w) >>> (i * w)) % 2 ^ w)

end Sys2Proof.Machine
end

