-- ==== Sys2Proof/Machine/Varint.lean ====
section
/-! DEFINITION. The varint primitives (41_varint.md): ULEB128 and zigzag, encode and decode. -/

namespace Sys2Proof.Machine

/-- `ML = ceil(N / 7)`, the most bytes a varint of an `N`-bit field has (R96, R116). -/
def varintMaxLen (n : Nat) : Nat := (n + 6) / 7

/-- The loop of R110: while `v ≥ 0x80` a byte with the low seven bits and the continuation bit, then the last
byte. The first argument bounds the turns; `ceil(N / 7)` of them end every `N`-bit value (R112). -/
def uvarintGroups : Nat → Nat → List Byte
  | 0, v => [BitVec.ofNat 8 v]
  | k + 1, v =>
    if 0x80 ≤ v then BitVec.ofNat 8 (v % 0x80 + 0x80) :: uvarintGroups k (v / 0x80)
    else [BitVec.ofNat 8 v]

/-- `UVARINT_ENC(N, v)` (R110). -/
def uvarintEnc (n : Nat) (v : BitVec n) : List Byte := uvarintGroups (varintMaxLen n) v.toNat

/-- `zz_W(v) = (v << 1) ^ (v >>s (W − 1))` (R113). -/
def zigzag {w : Nat} (v : BitVec w) : BitVec w := (v <<< 1) ^^^ (v.sshiftRight (w - 1))

/-- `ZZVARINT_ENC(W, v)` (R115). -/
def zzvarintEnc (w : Nat) (v : BitVec w) : List Byte := uvarintEnc w (zigzag v)

/-- `unzz_W(u) = (u >>u 1) ^ (0 −W (u & 1))` (R117). -/
def unzigzag {w : Nat} (u : BitVec w) : BitVec w := (u >>> 1) ^^^ (0 - (u &&& 1))

/-- The errors of DECODE (R240). -/
inductive DecFault
  | truncated
  | varintOverflow
  | badHeader
  | countMismatch
  | badWidth
  deriving DecidableEq, Repr

/-- The result code of a decode error (R261). -/
def DecFault.code : DecFault → ResultCode
  | .truncated => .decTruncated
  | .varintOverflow => .decVarintOverflow
  | .badHeader => .decBadHeader
  | .countMismatch => .decCountMismatch
  | .badWidth => .decBadWidth

/-- The loop of R116 over the span `rd` of `len` bytes: `i` the group number, `c` the cursor, `v` the value so far;
the first argument is how many groups may still be read, `ML − i`. -/
def uvarintLoop (rd : Nat → Byte) (len n : Nat) : Nat → Nat → Nat → Nat → Except DecFault (BitVec n × Nat)
  | 0, _, _, _ => .error .varintOverflow
  | k + 1, i, c, v =>
    if len ≤ c then .error .truncated
    else
      let b := rd c
      let g := (b.extractLsb' 0 7).toNat
      if k = 0 ∧ b.getLsbD 7 then .error .varintOverflow
      else if k = 0 ∧ g >>> (n - 7 * i) ≠ 0 then .error .varintOverflow
      else
        let v' := v ||| (g <<< (7 * i))
        if b.getLsbD 7 then uvarintLoop rd len n k (i + 1) (c + 1) v'
        else .ok (BitVec.ofNat n v', c + 1)

/-- `UVARINT_DEC(N, c)` (R116). -/
def uvarintDec (rd : Nat → Byte) (len n c : Nat) : Except DecFault (BitVec n × Nat) :=
  uvarintLoop rd len n (varintMaxLen n) 0 c 0

/-- `ZZVARINT_DEC(W, c)` (R118). -/
def zzvarintDec (rd : Nat → Byte) (len w c : Nat) : Except DecFault (BitVec w × Nat) :=
  match uvarintDec rd len w c with
  | .error e => .error e
  | .ok (u, c') => .ok (unzigzag u, c')

end Sys2Proof.Machine
end

