-- ==== Sys2Proof/Machine/Decoder.lean ====
section
/-! DEFINITION. The decoder (45_decoder.md): DECODE. The span IN is a function from the offset to the byte, of
`len` bytes. -/

namespace Sys2Proof.Machine

/-- What one DECODE keeps while it runs (R41, R240): the read cursor `c`, the running value `run` and the values
produced so far, `produced` being their number. -/
structure Progress (W : Nat) where
  c      : Nat
  run    : BitVec W
  values : List (BitVec W)
  deriving DecidableEq, Repr

/-- The stream header (R241): the cursor after it and the first value, when `block_size` is 128, `num_mini_blocks`
is 4 and `total_value_count` is `total`. -/
def decodeHeader (W : Nat) (rd : Nat → Byte) (len : Nat) (total : Word) : Except DecFault (BitVec W × Nat) :=
  match uvarintDec rd len 64 0 with
  | .error e => .error e
  | .ok (bs, c) =>
    if bs ≠ BitVec.ofNat 64 Config.blockSize then .error .badHeader
    else match uvarintDec rd len 64 c with
      | .error e => .error e
      | .ok (nmb, c) =>
        if nmb ≠ BitVec.ofNat 64 Config.numMiniBlocks then .error .badHeader
        else match uvarintDec rd len 64 c with
          | .error e => .error e
          | .ok (t, c) => if t ≠ total then .error .countMismatch else zzvarintDec rd len W c

/-- The width bytes of a block header, `k` of them, and the cursor after them (R242). -/
def readWidths (rd : Nat → Byte) (len : Nat) : Nat → Nat → Except DecFault (List Nat × Nat)
  | 0, c => .ok ([], c)
  | k + 1, c =>
    if len ≤ c then .error .truncated
    else match readWidths rd len k (c + 1) with
      | .error e => .error e
      | .ok (wds, c') => .ok ((rd c).toNat :: wds, c')

/-- Reconstruction (R244): `run <- run +W (norm +W bmin)` for each unpacked value, each result in turn. -/
def reconstruct {W : Nat} (bmin : BitVec W) : BitVec W → List (BitVec W) → List (BitVec W)
  | _, [] => []
  | run, norm :: norms => (run + (norm + bmin)) :: reconstruct bmin (run + (norm + bmin)) norms

/-- The mini-blocks of one block at their stored widths (R243), `t` the values of the stream. -/
def decodeMiniBlocks {W : Nat} (rd : Nat → Byte) (len t : Nat) (bmin : BitVec W) :
    List Nat → Progress W → Except DecFault (Progress W)
  | [], p => .ok p
  | wd :: wds, p =>
    let cnt := min Config.valuesPerMiniBlock (t - p.values.length)
    if cnt = 0 then decodeMiniBlocks rd len t bmin wds p
    else if len < p.c + 4 * wd then .error .truncated
    else
      let vals := reconstruct bmin p.run (unpack W cnt wd rd p.c)
      decodeMiniBlocks rd len t bmin wds ⟨p.c + 4 * wd, vals.getLastD p.run, p.values ++ vals⟩

/-- One block: its header (R242), the width checks, its mini-blocks (R243). -/
def decodeBlock {W : Nat} (rd : Nat → Byte) (len t : Nat) (p : Progress W) : Except DecFault (Progress W) :=
  match zzvarintDec rd len W p.c with
  | .error e => .error e
  | .ok (bmin, c) =>
    match readWidths rd len Config.numMiniBlocks c with
    | .error e => .error e
    | .ok (wds, c) =>
      if wds.any (fun wd => W < wd) then .error .badWidth
      else decodeMiniBlocks rd len t bmin wds { p with c := c }

/-- Blocks while fewer than `t` values have been produced (R240, R242). The first argument bounds the turns; each
block produces at least one value, so `t` of them are enough (log 18). -/
def decodeBlocks {W : Nat} (rd : Nat → Byte) (len t : Nat) : Nat → Progress W → Except DecFault (Progress W)
  | 0, p => .ok p
  | k + 1, p =>
    if t ≤ p.values.length then .ok p
    else match decodeBlock rd len t p with
      | .error e => .error e
      | .ok p' => decodeBlocks rd len t k p'

/-- The whole of DECODE but its register and memory writes (R240): the bytes consumed and the values, or the first
error in stream order (R248). A stream of no value has a first-value field and no output (R246). -/
def decodeStream (W : Nat) (rd : Nat → Byte) (len : Nat) (total : Word) :
    Except DecFault (Nat × List (BitVec W)) :=
  match decodeHeader W rd len total with
  | .error e => .error e
  | .ok (f, c) =>
    match decodeBlocks rd len total.toNat total.toNat ⟨c, f, if total = 0 then [] else [f]⟩ with
    | .error e => .error e
    | .ok p => .ok (p.c, p.values)

/-- The effects of a DECODE that reaches the end (R245). -/
def State.decodeDone {W : Nat} (s : State) (consumed : Nat) (values : List (BitVec W)) : State :=
  State.setResult { s with out := s.out.writeAll (values.map (·.setWidth 64))
                           decConsumed := BitVec.ofNat 64 consumed
                           decProduced := BitVec.ofNat 64 values.length } .ok

/-- The effects of a DECODE that raises an error (R245): its registers 0 and `OUT[0 .. ARG − 1]` unspecified. -/
def State.decodeFailed (s : State) (width : ValueWidth) (total : Word) (e : DecFault) : State :=
  State.raise { s with out := s.out.forget total.toNat s.freeCount width
                       decConsumed := 0
                       decProduced := 0
                       freeCount := s.freeCount + 1 } e.code

/-- `DECODE(WSEL, ARG, LEN)` (R240): in every ENC_STATE, without changing an encoder register, and of the encoder's
state reading nothing but whether the host, having bound IN to DEST, keeps its duties (b) and (d) of R296. A launch
that breaks one is refused: R296 has the model treat it as unsaid (U9, logs 9 and 20). -/
def execDecode (width : ValueWidth) (total len : Word) (s : State) : Host.Outcome State Fault Refusal :=
  match s.launchRefusal width with
  | some r => .refused r
  | none =>
    match decodeStream width.bits s.inMem.read len.toNat total with
    | .error e => .next (s.decodeFailed width total e)
    | .ok (consumed, values) => .next (s.decodeDone consumed values)

end Sys2Proof.Machine
end

