-- ==== Sys2Proof/Machine/Block.lean ====
section
/-! DEFINITION. The block encoder FLUSH (43_block_encoder.md), evaluated phase by phase in order (R160, R173). The
phases take the stream's values as a function of the position, so that one definition serves the rolling buffer
here and the stream format of Machine/Stream.lean. -/

namespace Sys2Proof.Machine

/-- The sentinel of a padding slot, the largest signed `W`-bit value (R161). -/
def sentinel (W : Nat) : BitVec W := BitVec.ofNat W (2 ^ (W - 1) - 1)

/-- Phase 1 (R161): the 128 deltas of a block of `n` real values from stream position `L` on, of values `v`. -/
def blockDeltas {W : Nat} (v : Nat → BitVec W) (L n : Nat) : List (BitVec W) :=
  (List.range Config.blockSize).map fun i => if i < n then v (L + i) - v (L + i - 1) else sentinel W

/-- `smin`: the one with the smaller signed reading (R15). -/
def smin {W : Nat} (a b : BitVec W) : BitVec W := if b.slt a then b else a

/-- `umax`: the one with the larger unsigned reading (R15). -/
def umax {W : Nat} (a b : BitVec W) : BitVec W := if a.ult b then b else a

/-- Phase 2 (R163): the signed minimum of the real deltas. -/
def blockMin {W : Nat} (n : Nat) (deltas : List (BitVec W)) : BitVec W :=
  match deltas.take n with
  | [] => sentinel W
  | d :: ds => ds.foldl smin d

/-- Phase 3 (R164): `d[i] −W bmin` for the real slots, 0 for the padding slots. -/
def blockNorms {W : Nat} (n : Nat) (deltas : List (BitVec W)) : List (BitVec W) :=
  (deltas.take n).map (· - blockMin n deltas) ++ List.replicate (Config.blockSize - n) 0

/-- `cnt[m] = min(32, max(0, n − 32m))` (R165); the subtraction of naturals stops at 0. -/
def miniCount (n m : Nat) : Nat := min Config.valuesPerMiniBlock (n - Config.valuesPerMiniBlock * m)

/-- The real normalized deltas of mini-block `m` (R165). -/
def miniValues {W : Nat} (n : Nat) (norms : List (BitVec W)) (m : Nat) : List (BitVec W) :=
  (norms.drop (Config.valuesPerMiniBlock * m)).take (miniCount n m)

/-- Phase 4 (R165): the bit width of the largest real normalized delta of mini-block `m`. -/
def miniWidth {W : Nat} (n : Nat) (norms : List (BitVec W)) (m : Nat) : Nat :=
  bitLen ((miniValues n norms m).foldl umax 0).toNat

/-- Phase 5 (R166): the block header. -/
def blockHeader {W : Nat} (n : Nat) (deltas : List (BitVec W)) : List Byte :=
  zzvarintEnc W (blockMin n deltas) ++
    (List.range Config.numMiniBlocks).map fun m => BitVec.ofNat 8 (miniWidth n (blockNorms n deltas) m)

/-- Phase 6 (R167): the payloads, back to back. -/
def blockPayload {W : Nat} (n : Nat) (norms : List (BitVec W)) : List Byte :=
  (List.range Config.numMiniBlocks).flatMap fun m =>
    miniBlockPayload (miniWidth n norms m) ((miniValues n norms m).map (·.toNat))

/-- The bytes FLUSH emits for `n` real values from stream position `L` on (R160, R92). -/
def blockBytes {W : Nat} (v : Nat → BitVec W) (L n : Nat) : List Byte :=
  blockHeader n (blockDeltas v L n) ++ blockPayload n (blockNorms n (blockDeltas v L n))

/-- FLUSH's operand range (R160): `1 ≤ n ≤ 128`, `n ≤ PENDING_COUNT`, `LOGICAL_INDEX ≥ 1`. -/
def State.flushable (s : State) (n : Nat) : Bool :=
  decide (1 ≤ n ∧ n ≤ Config.blockSize ∧ n ≤ s.pendingCount.toNat ∧ 1 ≤ s.logicalIndex.toNat)

/-- Phase 7 (R169), and MBW left unspecified after the flush within its range `0 .. W` (R38, log 4). -/
def State.afterFlush (s : State) (n : Nat) : State :=
  { s with logicalIndex := s.logicalIndex + BitVec.ofNat 64 n
           pendingCount := s.pendingCount - BitVec.ofNat 9 n
           mbw := Vector.ofFn fun m =>
             BitVec.ofNat 7 ((Config.freeMiniWidth s.freeCount m.val).toNat % (s.sessionBits + 1))
           freeCount := s.freeCount + 1 }

/-- `FLUSH(n)` (R160): the state after it and the bytes it emits. -/
def State.flush (s : State) (n : Nat) : State × List Byte :=
  (s.afterFlush n, blockBytes s.rbValue s.logicalIndex.toNat n)

end Sys2Proof.Machine
end

