-- ==== Sys2Proof/Machine/Operands.lean ====
section
/-! DEFINITION. The operand forms of the commands (R87, R88): the slots an ADD reads, their validity and their
values at the session's width. ARG and ARG2 are taken as they are. -/

namespace Sys2Proof.Machine

/-- The slots an ADD reads: `0 .. NSLOTS − 1` (R83, R87). -/
def readSlots (nslots : BitVec 8) (slots : List Slot) : List Slot := slots.take nslots.toNat

/-- `VAL[i]` as a `W`-bit pattern, in a 64-bit cell (R88, log 10). -/
def laneValue (width : ValueWidth) (v : Word) : Word := (v.setWidth width.bits).setWidth 64

/-- Compaction (R192): the values of the valid slots in slot order; a slot that is not valid takes no position and
its value is not read (R88). -/
def validValues (width : ValueWidth) (slots : List Slot) : List Word :=
  (slots.filter (·.valid)).map fun sl => laneValue width sl.value

/-- The exclusive prefix sum of R192: how many slots before slot `i` are valid. -/
def validBefore (slots : List Slot) (i : Nat) : Nat := ((slots.take i).filter (·.valid)).length

/-- The values an ADD appends (R192, R193). -/
def chunkValues (width : ValueWidth) (nslots : BitVec 8) (slots : List Slot) : List Word :=
  validValues width (readSlots nslots slots)

/-- `RB[pos mod 256] <- VAL[i]` from position `A` on, and `PENDING_COUNT <- PENDING_COUNT + k` (R193). -/
def State.appendValues (s : State) (vals : List Word) : State :=
  { s with rb := rbStore s.rb s.accepted vals
           pendingCount := s.pendingCount + BitVec.ofNat 9 vals.length }

end Sys2Proof.Machine
end

