-- ==== Sys2Proof/Machine/Encoder.lean ====
section
/-! DEFINITION. The streaming encoder (44_stream_encoder.md): INIT, ADD and FINISH. -/

namespace Sys2Proof.Machine

/-- `HEADER(F)` (R91, R194). -/
def streamHeader {W : Nat} (total : Word) (first : BitVec W) : List Byte :=
  uvarintEnc 64 (BitVec.ofNat 64 Config.blockSize) ++ uvarintEnc 64 (BitVec.ofNat 64 Config.numMiniBlocks)
    ++ uvarintEnc 64 total ++ zzvarintEnc W first

/-! ## INIT -/

/-- The registers INIT sets (R190, R291); RB, MBW, the decoder's registers and the memories stay. -/
def State.openSession (s : State) (width : ValueWidth) (total : Word) : State :=
  { s with encState := .opened
           encW := width
           totalValues := total
           logicalIndex := 0
           pendingCount := 0
           outputCursor := 0 }

/-- `INIT(WSEL, ARG)` (R190): accepted in every state. -/
def execInit (width : ValueWidth) (total : Word) (s : State) : Host.Outcome State Fault Refusal :=
  .next ((s.openSession width total).setResult .ok)

/-! ## ADD -/

/-- The bookkeeping of the stream header write (R194). -/
def State.takeHeader (s : State) : State := { s with logicalIndex := 1, pendingCount := s.pendingCount - 1 }

/-- The stream header write of ADD (R194): with the first valid value buffered, `HEADER(RB[0])`, after which
LOGICAL_INDEX is 1 and PENDING_COUNT one less. -/
def State.headerStep (s : State) : State × List Byte :=
  if s.logicalIndex = 0 ∧ 1 ≤ s.pendingCount.toNat then
    (s.takeHeader, streamHeader s.totalValues (s.rbValue 0))
  else (s, [])

/-- The full-block trigger of ADD (R195): one `FLUSH(128)` when at least 128 values are pending. Where it flushes
after `headerStep`, FLUSH's operands are in range. -/
def State.fullBlockStep (s : State) : State × List Byte :=
  if Config.blockSize ≤ s.pendingCount.toNat then s.flush Config.blockSize else (s, [])

/-- ADD between its checks and its commit (R193): append, header, full block; the state and the output list. -/
def State.addWork (s : State) (vals : List Word) : State × List Byte :=
  ((s.appendValues vals).headerStep.1.fullBlockStep.1,
    (s.appendValues vals).headerStep.2 ++ (s.appendValues vals).headerStep.1.fullBlockStep.2)

/-- `ADD` (R193), with the checks of R191 in their order. -/
def execAdd (nslots : BitVec 8) (slots : List Slot) (s : State) : Host.Outcome State Fault Refusal :=
  if s.encState ≠ .opened then .next (s.raise .errSequence)
  else if Config.chunkSlots < nslots.toNat then .next (s.raise .errBatchSize)
  else if s.totalValues.toNat < s.accepted + (chunkValues s.encW nslots slots).length then
    .next (s.enterError.raise .errOvercount)
  else
    .next (s.commit (s.addWork (chunkValues s.encW nslots slots)).1
      (s.addWork (chunkValues s.encW nslots slots)).2 fun t => t.setResult .ok)

/-! ## FINISH -/

/-- FINISH between its checks and its commit (R200): the header of an empty stream (R199), the last block. -/
def State.finishWork (s : State) : State × List Byte :=
  let header := if s.logicalIndex = 0 then streamHeader s.totalValues (0 : BitVec s.sessionBits) else []
  if 0 < s.pendingCount.toNat then
    ((s.flush s.pendingCount.toNat).1, header ++ (s.flush s.pendingCount.toNat).2)
  else (s, header)

/-- `ENC_STATE <- FINISHED` (R200). -/
def State.closeSession (s : State) : State := { s with encState := .finished }

/-- `FINISH` (R200), with the checks of R198 in their order. The fault stands for a PENDING_COUNT outside FLUSH's
operand range, which no state reached from reset holds (R196, R200; log 8). -/
def execFinish (s : State) : Host.Outcome State Fault Refusal :=
  if s.encState ≠ .opened then .next (s.raise .errSequence)
  else if s.accepted < s.totalValues.toNat then .next (s.enterError.raise .errUndercount)
  else if 0 < s.pendingCount.toNat ∧ s.flushable s.pendingCount.toNat = false then .fault .flushOperand
  else
    .next (s.commit s.finishWork.1 s.finishWork.2 fun t => t.closeSession.setResult .ok)

end Sys2Proof.Machine
end

