-- ==== Sys2Proof/Machine/Dispatch.lean ====
section
/-! DEFINITION. The meaning of every instruction: one arm per constructor of Instr. -/

namespace Sys2Proof.Machine

def exec (i : Instr) (s : State) : Host.Outcome State Fault Refusal :=
  match i with
  | .init width total => Sys2Proof.Machine.execInit width total s
  | .add nslots slots => Sys2Proof.Machine.execAdd nslots slots s
  | .finish => Sys2Proof.Machine.execFinish s
  | .decode width total len => Sys2Proof.Machine.execDecode width total len s

end Sys2Proof.Machine
end

