-- ==== Sys2Proof/Machine/Port.lean ====
section
/-! DEFINITION. The port: the host's coming actions in State (log 1), and the host's binding of IN to DEST. -/

namespace Sys2Proof.Machine

/-- `s` with `actions` on the port. -/
def State.withPort (s : State) (actions : List HostAction) : State := { s with port := actions }

/-- The host binds IN to DEST (R100, R296 (b)): while the session is FINISHED; otherwise the spec calls the launch
unsaid and the action is refused (U9, log 9). -/
def hostBindIn (s : State) : Host.Outcome State Fault Refusal :=
  if s.encState = .finished then .next s.bindSpan else .refused .overlapUnsaid

end Sys2Proof.Machine
end

