-- ==== Sys2Proof/Machine/Step.lean ====
section
/-! DEFINITION. One step of the block: the host's next action, taken whole (R17, R66). -/

namespace Sys2Proof.Machine

/-- One step. With nothing on the port the block idles and keeps all state (R275, R290). A command leaves the port
and runs to completion (R66); an illegal one raises ERR_ILLEGAL_CMD before anything else (R86, R265). -/
def step (s : State) : Host.Outcome State Fault Refusal :=
  match s.port with
  | [] => .next s
  | .command c :: rest =>
    match decode c with
    | .ok i => exec i (s.withPort rest)
    | .error _ => .next (s.withPort rest).illegalCommand
  | .provideIn bytes :: rest => .next ((s.withPort rest).supplySpan bytes)
  | .bindInToDest :: rest => hostBindIn (s.withPort rest)

/-- `s` with the command of a table word next on the port: the block has no memory that holds instructions, it takes
each command from the port (R75; log 17). -/
def State.withFetchWord (s : State) (nbits w : Nat) : State :=
  s.withPort (.command (Command.ofTableWord nbits w) :: s.port)

end Sys2Proof.Machine
end

