-- ==== Sys2Proof/Machine/Flags.lean ====
section
/-! DEFINITION. The block has no condition codes (R43): its flags are the fields of STATUS (R45), computed from
the registers, and the host reads them through the register map (R44). -/

namespace Sys2Proof.Machine

/-- The 2-bit code of ENC_STATE (R32). -/
def EncState.code : EncState → BitVec 2
  | .idle => 0
  | .opened => 1
  | .finished => 2
  | .error => 3

/-- HDR_WRITTEN: `LOGICAL_INDEX ≠ 0` or `ENC_STATE = FINISHED` (R45). -/
def State.hdrWritten (s : State) : Bool := s.logicalIndex != 0 || s.encState == .finished

/-- STATUS (R45): RESULT in [15:8], ENC_W in [3], HDR_WRITTEN in [2], ENC_STATE in [1:0], every other bit 0. -/
def State.statusWord (s : State) : Word :=
  0#48 ++ s.result ++ 0#4 ++ wselOfWidth s.encW ++ BitVec.ofBool s.hdrWritten ++ s.encState.code

/-- The register map (R44): numbers 0 to 6; 7 and above read as 0. A read changes nothing. -/
def State.readRegister (s : State) : Nat → Word
  | 0 => s.statusWord
  | 1 => s.outputCursor
  | 2 => s.totalValues
  | 3 => s.logicalIndex
  | 4 => s.pendingCount.setWidth 64
  | 5 => s.decConsumed
  | 6 => s.decProduced
  | _ => 0

end Sys2Proof.Machine
end

