-- ==== Sys2Proof/Machine/Pseudo.lean ====
section
/-! DEFINITION. The assembler's slot literals (R99) and the pseudo-instructions ENCODE and ROUNDTRIP (R100), as the
host actions they expand to; the text of the assembler itself is not modelled (log 19). -/

namespace Sys2Proof.Machine

/-- A slot as the assembler writes it (R99): `none` is `null`, an integer literal is its `W`-bit pattern; a literal
outside `[−2^(W−1), 2^W)` is refused. -/
def slotOfLiteral (width : ValueWidth) : Option Int → Option Slot
  | none => some Slot.null
  | some x =>
    if -(2 ^ (width.bits - 1) : Int) ≤ x ∧ x < (2 ^ width.bits : Int) then
      some ⟨(BitVec.ofInt width.bits x).setWidth 64, true⟩
    else none

/-- The slots of a list in pieces of 128, the last piece carrying the remainder (R100). The first argument bounds
the pieces; the list's length is enough. -/
def chunks : Nat → List Slot → List (List Slot)
  | 0, _ => []
  | k + 1, slots =>
    if slots = [] then []
    else slots.take Config.chunkSlots :: chunks k (slots.drop Config.chunkSlots)

/-- The number of items that are not null (R100). -/
def nonNullCount (slots : List Slot) : Nat := (slots.filter (·.valid)).length

/-- `ENCODE.wN {…}` (R100): INIT with the count of the non-null items, ADDs of up to 128 slots, FINISH. -/
def expandEncode (width : ValueWidth) (slots : List Slot) : List HostAction :=
  .command (encode (.init width (BitVec.ofNat 64 (nonNullCount slots)))) ::
    ((chunks slots.length slots).map fun piece =>
      HostAction.command (encode (.add (BitVec.ofNat 8 piece.length) piece))) ++
    [.command (encode .finish)]

/-- The second part of `ROUNDTRIP.wN {…}` (R100), issued once its ENCODE has finished in state `s`: IN bound to
DEST, and a DECODE of `CURSOR` bytes. -/
def expandRoundtripTail (width : ValueWidth) (slots : List Slot) (s : State) : List HostAction :=
  [.bindInToDest,
    .command (encode (.decode width (BitVec.ofNat 64 (nonNullCount slots)) (s.readRegister 1)))]

end Sys2Proof.Machine
end

