-- ==== Sys2Proof/Machine/Stream.lean ====
section
/-! DEFINITION. The byte format of a whole encoded stream (30_encoding.md Part B, R90 to R97), from the stream's
values and not from a command sequence: what a session's bytes are compared with (R201). -/

namespace Sys2Proof.Machine

/-- The value at stream position `p` of a stream, 0 past its end. -/
def streamValue {W : Nat} (vs : List (BitVec W)) (p : Nat) : BitVec W := vs.getD p 0

/-- The number of blocks of a stream of `t` values: `K = ceil(D / 128)` with `D = t − 1` deltas, and no delta when
`t = 0` (R94). -/
def blockCount (t : Nat) : Nat := (t - 1 + 127) / 128

/-- How many deltas block `k` (numbered from 0) of a stream of `t` values carries (R94). -/
def blockLength (t k : Nat) : Nat := min Config.blockSize (t - 1 - Config.blockSize * k)

/-- The first `k` blocks of a stream (R90, R94, R202): block `j` carries positions from `128 j + 1` on. -/
def streamBlocks {W : Nat} (vs : List (BitVec W)) (k : Nat) : List Byte :=
  (List.range k).flatMap fun j =>
    blockBytes (streamValue vs) (Config.blockSize * j + 1) (blockLength vs.length j)

/-- The encoded stream of `vs` (R90, R91): the header, with first value 0 when there is none (R199), and the
blocks. -/
def streamBytes {W : Nat} (vs : List (BitVec W)) : List Byte :=
  streamHeader (BitVec.ofNat 64 vs.length) (streamValue vs 0) ++ streamBlocks vs (blockCount vs.length)

/-- The size bound of R97 for `t` values of `W` bits. -/
def streamSizeBound (W t : Nat) : Nat :=
  (3 + 10 + (W + 6) / 7) + blockCount t * ((W + 6) / 7 + 4 + 16 * W)

end Sys2Proof.Machine
end

