-- ==== Sys2Proof/Safety.lean ====
section
/-! DEFINITION. What counts as a safe state of the block: the invariant of its registers and memories (R40, R196),
and the relation between a session and the values it has accepted (R40 (a), (e), R201), in the terms claims use. -/

namespace Sys2Proof.Machine

/-- The result codes R261 lists; the others are never written. -/
def resultCodes : List (BitVec 8) := [0x00, 0x01, 0x02, 0x03, 0x04, 0x05, 0x06, 0x10, 0x11, 0x12, 0x13, 0x14]

/-- What every state reached from reset satisfies. -/
structure State.Inv (s : State) : Prop where
  /-- The memories are in canonical form. -/
  dest_wf : s.dest.wf = true
  inSpan_wf : s.inMem.wf = true
  out_wf : s.out.wf = true
  /-- R40 (b), R196. -/
  pending_le : s.pendingCount.toNat ≤ 127
  /-- R40 (b). -/
  finished_pending : s.encState = .finished → s.pendingCount = 0
  /-- A session is FINISHED with exactly the declared values (R191, R198). -/
  finished_total : s.encState = .finished → s.accepted = s.totalValues.toNat
  /-- R40 (c). -/
  logical_pending : s.logicalIndex = 0 → s.pendingCount = 0
  /-- R40 (d). -/
  accepted_le : s.accepted ≤ s.totalValues.toNat
  /-- Every flush but the last of a session is of 128 values (R195, R202). -/
  logical_blocks : s.encState ≠ .finished → s.logicalIndex ≠ 0 → s.logicalIndex.toNat % 128 = 1
  /-- No byte lies past what DEST can hold (R197). -/
  cursor_le : s.outputCursor.toNat ≤ s.config.sinkLimit
  /-- The header is in DEST exactly when HDR_WRITTEN says so (R35, R45). -/
  header_cursor : s.outputCursor = 0 ↔ s.hdrWritten = false
  /-- Before the first INIT the encoder's registers are those of reset (R290). -/
  idle_reset : s.encState = .idle → s.totalValues = 0 ∧ s.logicalIndex = 0 ∧ s.outputCursor = 0
  /-- R38: the range of MBW. -/
  mbw_le : ∀ m : Fin 4, s.mbw[m].toNat ≤ 64
  /-- R261. -/
  result_code : s.result ∈ resultCodes

/-- DEST offsets `0 .. OUTPUT_CURSOR − 1` hold exactly `bytes` (R67). -/
def State.destHolds (s : State) (bytes : List Byte) : Prop :=
  s.outputCursor.toNat = bytes.length ∧ ∀ a < bytes.length, s.dest.read? a = bytes[a]?

/-- The values of a session at its width. -/
def atWidth (W : Nat) (vals : List Word) : List (BitVec W) := vals.map (·.setWidth W)

/-- A session that is OPEN and has accepted the valid values `vals` since its INIT (R40 (a), (e), R202): every live
position stands in RB, and DEST holds the header and the full blocks flushed so far. -/
structure State.Session (s : State) (vals : List Word) : Prop where
  opened : s.encState = .opened
  count : s.accepted = vals.length
  live : ∀ p, s.logicalIndex.toNat ≤ p + 1 → (hp : p < vals.length) →
    s.rbValue p = (vals[p]'hp).setWidth s.sessionBits
  written : s.destHolds
    (if s.logicalIndex = 0 then []
     else streamHeader s.totalValues (streamValue (atWidth s.sessionBits vals) 0)
       ++ streamBlocks (atWidth s.sessionBits vals) ((s.logicalIndex.toNat - 1) / 128))

/-- One ADD after another, each of which succeeds. -/
def State.runAdds (s : State) : List (BitVec 8 × List Slot) → Option State
  | [] => some s
  | c :: cs =>
    match exec (.add c.1 c.2) s with
    | .next t => if t.result = ResultCode.ok.code then t.runAdds cs else none
    | _ => none

/-- A whole session of R294: INIT, the ADDs, FINISH, each of which succeeds. -/
def State.runSession (s : State) (width : ValueWidth) (total : Word) (chunks : List (BitVec 8 × List Slot)) :
    Option State :=
  match exec (.init width total) s with
  | .next t =>
    match t.runAdds chunks with
    | none => none
    | some u =>
      match exec .finish u with
      | .next v => if v.result = ResultCode.ok.code then some v else none
      | _ => none
  | _ => none

/-- The valid values the chunks of a session carry, in order. -/
def sessionValues (width : ValueWidth) (chunks : List (BitVec 8 × List Slot)) : List Word :=
  chunks.flatMap fun c => chunkValues width c.1 c.2

end Sys2Proof.Machine
end

