-- ==== Sys2Proof/Certificates/Slice0/Obligations.lean ====
section
/-! DEFINITION. The statements about the model, for the provers. Each docstring names the rule it formalises. -/

open Sys2Proof Sys2Proof.Machine

/-! ## Command encodings -/

/-- R101: the worked command encodings, each way. -/
def Obligations.WorkedCommandWordsDecode : Prop :=
  (∀ arg2 slots, decode ⟨0x00010001, 6, arg2, slots⟩ = .ok (.init .w64 6)) ∧
  (∀ arg2 slots, decode ⟨0x00000001, 6, arg2, slots⟩ = .ok (.init .w32 6)) ∧
  (∀ arg arg2 slots, decode ⟨0x00000602, arg, arg2, slots⟩ = .ok (.add 6 (slots.toList.take 6))) ∧
  (∀ arg arg2 slots, decode ⟨0x00008002, arg, arg2, slots⟩ = .ok (.add 128 slots.toList)) ∧
  (∀ arg arg2 slots, decode ⟨0x00000003, arg, arg2, slots⟩ = .ok .finish) ∧
  (∀ slots, decode ⟨0x00010004, 6, 35, slots⟩ = .ok (.decode .w64 6 35)) ∧
  ((encode (.init .w64 6)).cmd = 0x00010001 ∧ (encode (.init .w64 6)).arg = 6) ∧
  (encode (.init .w32 6)).cmd = 0x00000001 ∧
  (∀ slots : List Slot, slots.map (·.value) = [100, 101, 102, 50, 50, 50] → (∀ sl ∈ slots, sl.valid = true) →
    (encode (.add 6 slots)).cmd = 0x00000602 ∧ ∀ i (h : i < 6), (encode (.add 6 slots)).slots[i].valid = true) ∧
  (∀ slots, (encode (.add 128 slots)).cmd = 0x00008002) ∧
  (encode .finish).cmd = 0x00000003 ∧
  ((encode (.decode .w64 6 35)).cmd = 0x00010004 ∧ (encode (.decode .w64 6 35)).arg = 6 ∧
    (encode (.decode .w64 6 35)).arg2 = 35)

/-- R81, R84, R85, R87: decoding the encoding of any well-formed instruction gives it back. -/
def Obligations.DecodeOfEncode : Prop :=
  ∀ i : Instr, i.wf = true → decode (encode i) = .ok i

/-- R81, R85, R87, R88: what the decoder accepts is well-formed and has the CMD word it was read from, no bit dropped;
its operands are the tuple's (ARG, ARG2, and the slots below NSLOTS, of which the tuple has 128); and an operand that
the opcode does not read has no effect, whatever its value. -/
def Obligations.EncodeOfDecode : Prop :=
  (∀ (c : Command) (i : Instr), decode c = .ok i → i.wf = true ∧ encodeCmd i = c.cmd ∧
    (∀ w total, i = .init w total → total = c.arg) ∧
    (∀ n slots, i = .add n slots → slots = c.slots.toList.take (min n.toNat 128)) ∧
    (∀ w total len, i = .decode w total len → total = c.arg ∧ len = c.arg2)) ∧
  (∀ c d : Command, c.cmd = d.cmd → (fieldOpc c.cmd = 0x01 ∨ fieldOpc c.cmd = 0x04 → c.arg = d.arg) →
    (fieldOpc c.cmd = 0x04 → c.arg2 = d.arg2) →
    (fieldOpc c.cmd = 0x02 → ∀ i (_ : i < 128), i < (fieldNslots c.cmd).toNat → c.slots[i] = d.slots[i]) →
    decode c = decode d)

/-- R85: the must-be-zero fields per opcode, and the match and mask of each row. -/
def Obligations.DecodeMatchesOpcodeTable : Prop :=
  ∀ c : Command,
    ((∃ w t, decode c = .ok (.init w t)) ↔ fieldOpc c.cmd = 0x01 ∧ fieldNslots c.cmd = 0 ∧ fieldRsvd c.cmd = 0) ∧
    ((∃ n sl, decode c = .ok (.add n sl)) ↔ fieldOpc c.cmd = 0x02 ∧ fieldWsel c.cmd = 0 ∧ fieldRsvd c.cmd = 0) ∧
    (decode c = .ok .finish ↔
      fieldOpc c.cmd = 0x03 ∧ fieldNslots c.cmd = 0 ∧ fieldWsel c.cmd = 0 ∧ fieldRsvd c.cmd = 0) ∧
    ((∃ w t l, decode c = .ok (.decode w t l)) ↔
      fieldOpc c.cmd = 0x04 ∧ fieldNslots c.cmd = 0 ∧ fieldRsvd c.cmd = 0) ∧
    ((∃ w t, decode c = .ok (.init w t)) ↔ c.cmd &&& 0xFFFEFFFF = 0x00000001) ∧
    ((∃ n sl, decode c = .ok (.add n sl)) ↔ c.cmd &&& 0xFFFF00FF = 0x00000002) ∧
    (decode c = .ok .finish ↔ c.cmd &&& 0xFFFFFFFF = 0x00000003) ∧
    ((∃ w t l, decode c = .ok (.decode w t l)) ↔ c.cmd &&& 0xFFFEFFFF = 0x00000004)

/-! ## The step and the host -/

/-- R86: a CMD word that matches no row of R85 raises ERR_ILLEGAL_CMD and changes nothing else (the command leaves
the port). -/
def Obligations.IllegalCommandChangesOnlyResult : Prop :=
  ∀ (s : State) (c : Command) (rest : List HostAction), s.port = .command c :: rest →
    c.cmd &&& 0xFFFEFFFF ≠ 0x00000001 → c.cmd &&& 0xFFFF00FF ≠ 0x00000002 →
    c.cmd &&& 0xFFFFFFFF ≠ 0x00000003 → c.cmd &&& 0xFFFEFFFF ≠ 0x00000004 →
    step s = .next { s with port := rest, result := 0x01 }

/-- R66, R80: a step with a legal command next on the port is the meaning of the instruction decoded from it, on the
state without that command; so is a step with the encoding of a well-formed instruction next. -/
def Obligations.StepRunsDecodedInstruction : Prop :=
  (∀ (s : State) (c : Command) (rest : List HostAction) (i : Instr),
    s.port = .command c :: rest → decode c = .ok i → step s = exec i { s with port := rest }) ∧
  (∀ (s : State) (rest : List HostAction) (i : Instr),
    s.port = .command (encode i) :: rest → i.wf = true → step s = exec i { s with port := rest })

/-- R275: with nothing on the port a step keeps all state. -/
def Obligations.IdleBlockKeepsState : Prop :=
  ∀ s : State, s.port = [] → step s = .next s

/-- R61, R69, R70, R100, R296 (b), with logs 9, 14 and 20: what the host's actions on IN do. The span supplied reads as
its bytes; IN bound to a FINISHED session's DEST reads as DEST, and a DECODE at the session's width is no unsaid launch;
a binding in another state is refused. Nothing else of the block changes. That a bound IN stays bound, and reads as DEST,
through every later step but one that supplies a span is the model's choice (log 9). -/
def Obligations.HostActionsChangeOnlySpan : Prop :=
  (∀ (s : State) (bytes : List Byte) (rest : List HostAction), s.port = .provideIn bytes :: rest →
    ∃ t, step s = .next t ∧ t = { s with port := rest, inSpan := t.inSpan, freeCount := t.freeCount } ∧
      (∀ w, t.launchRefusal w = none) ∧ ∀ a (h : a < bytes.length), t.inMem.read a = bytes[a]) ∧
  (∀ (s : State) (rest : List HostAction), s.port = .bindInToDest :: rest → s.encState = .finished →
    ∃ t, step s = .next t ∧ t = { s with port := rest, inSpan := t.inSpan } ∧
      t.inSpan = .boundToDest ∧ t.launchRefusal t.encW = none ∧ t.inMem = s.dest) ∧
  (∀ s t : State, s.inSpan = .boundToDest → step s = .next t →
    (∀ (bytes : List Byte) (rest : List HostAction), s.port ≠ .provideIn bytes :: rest) →
    t.inSpan = .boundToDest ∧ t.inMem = t.dest) ∧
  (∀ (s : State) (rest : List HostAction), s.port = .bindInToDest :: rest → s.encState ≠ .finished →
    step s = .refused .overlapUnsaid)

/-! ## Reset and the invariant -/

/-- R290: every register after power-on reset. -/
def Obligations.ResetRegisterValues : Prop :=
  State.reset.encState = .idle ∧ State.reset.encW = .w32 ∧ wselOfWidth State.reset.encW = 0 ∧
  State.reset.totalValues = 0 ∧ State.reset.logicalIndex = 0 ∧ State.reset.pendingCount = 0 ∧
  State.reset.outputCursor = 0 ∧ State.reset.decConsumed = 0 ∧ State.reset.decProduced = 0 ∧
  State.reset.result = 0

/-- R40, R196, R261, R290: the state after reset satisfies the invariant, for every value of DEST_CAP, every content of
RB and every content of MBW within its range (R38), which R290 and R49 leave unspecified. The zeros that `State.reset`
itself holds there (log 2) are one of these contents. -/
def Obligations.ResetMeetsInvariant : Prop :=
  ∀ (config : Config) (rb : Vector Word 256) (mbw : Vector (BitVec 7) 4), (∀ m : Fin 4, mbw[m].toNat ≤ 64) →
    State.Inv { State.reset with config := config, rb := rb, mbw := mbw }

/-- R36, R38, R40 (b) to (d), R196, R261 and the canonical form of the memories: every step keeps the invariant. -/
def Obligations.StepKeepsInvariant : Prop :=
  ∀ s t : State, s.Inv → step s = .next t → t.Inv

/-- R172, R196, R200: from a state that satisfies the invariant every instruction answers a next state; INIT, ADD and
DECODE do so from every state. Of DECODE this excludes the launches that R296 (b) and (d) call unsaid, with IN bound to
the DEST of an unfinished session (log 9) or of a session of the other width (log 20). -/
def Obligations.CommandsNeverStop : Prop :=
  ∀ (s : State) (i : Instr), (i = .finish → s.Inv) →
    (∀ w total len, i = .decode w total len → s.launchRefusal w = none) → ∃ t, exec i s = .next t

/-! ## INIT -/

/-- R190, R291: INIT resets the encoder state to the "after INIT" column of R49 from any state, and touches neither the
decoder's registers nor a memory. That RB and MBW keep their contents is the model's reading of "unspecified
(unchanged)" (log 13). -/
def Obligations.InitOpensSession : Prop :=
  ∀ (s : State) (w : ValueWidth) (total : Word),
    exec (.init w total) s = .next { s with
      encState := .opened, encW := w, totalValues := total, logicalIndex := 0, pendingCount := 0,
      outputCursor := 0, result := 0 }

/-! ## ADD -/

/-- R191: the checks of ADD, in this order. `k` is the number of valid slots below NSLOTS. -/
def Obligations.AddRejectsInOrder : Prop :=
  ∀ (s : State) (n : BitVec 8) (slots : List Slot),
    (s.encState ≠ .opened → exec (.add n slots) s = .next { s with result := 0x02 }) ∧
    (s.encState = .opened → 128 < n.toNat → exec (.add n slots) s = .next { s with result := 0x03 }) ∧
    (s.encState = .opened → n.toNat ≤ 128 →
      s.totalValues.toNat < s.logicalIndex.toNat + s.pendingCount.toNat
        + ((slots.take n.toNat).filter (·.valid)).length →
      exec (.add n slots) s = .next { s with encState := .error, result := 0x04 })

/-- R193, corner cases: an ADD of no slot, or of null slots only, changes no register but RESULT and writes
nothing. -/
def Obligations.AddOfNullsChangesOnlyResult : Prop :=
  ∀ (s : State) (n : BitVec 8) (slots : List Slot), s.Inv → s.encState = .opened → n.toNat ≤ 128 →
    (∀ sl ∈ slots.take n.toNat, sl.valid = false) →
    exec (.add n slots) s = .next { s with result := 0 }

/-- R193, R195: an ADD after the header that leaves fewer than 128 values pending only buffers its valid values. -/
def Obligations.AddBuffersValues : Prop :=
  ∀ (s : State) (n : BitVec 8) (slots : List Slot), s.Inv → s.encState = .opened → n.toNat ≤ 128 →
    s.logicalIndex ≠ 0 → s.pendingCount.toNat + (chunkValues s.encW n slots).length < 128 →
    s.accepted + (chunkValues s.encW n slots).length ≤ s.totalValues.toNat →
    ∃ t, exec (.add n slots) s = .next t ∧
      t = { s with rb := t.rb, pendingCount := t.pendingCount, result := 0 } ∧
      t.pendingCount.toNat = s.pendingCount.toNat + (chunkValues s.encW n slots).length ∧
      (∀ i (h : i < (chunkValues s.encW n slots).length),
        t.rb[(s.accepted + i) % 256]'(Nat.mod_lt _ (by decide)) = (chunkValues s.encW n slots)[i]) ∧
      (∀ j (h : j < 256), (∀ i < (chunkValues s.encW n slots).length, (s.accepted + i) % 256 ≠ j) →
        t.rb[j] = s.rb[j])

/-- R194: the first ADD that carries a valid value writes the stream header of that value, before any block, sets
LOGICAL_INDEX to 1 and leaves one value less pending than it appended. -/
def Obligations.AddWritesStreamHeader : Prop :=
  ∀ (s : State) (n : BitVec 8) (slots : List Slot) (first : Word) (more : List Word) (header : List Byte),
    s.Inv → s.encState = .opened → n.toNat ≤ 128 → s.logicalIndex = 0 →
    chunkValues s.encW n slots = first :: more → more.length + 1 ≤ s.totalValues.toNat →
    header = uvarintEnc 64 128 ++ uvarintEnc 64 4 ++ uvarintEnc 64 s.totalValues
      ++ zzvarintEnc s.encW.bits (first.setWidth s.encW.bits) →
    header.length ≤ s.config.sinkLimit →
    ∃ t, exec (.add n slots) s = .next t ∧
      t = { s with rb := t.rb, logicalIndex := 1, pendingCount := t.pendingCount,
                   outputCursor := t.outputCursor, dest := t.dest, result := 0 } ∧
      t.pendingCount.toNat = more.length ∧ t.destHolds header ∧
      (∀ a, header.length ≤ a → t.dest.read a = s.dest.read a) ∧
      t.rbValue 0 = first.setWidth t.sessionBits

/-- R195, R196: an ADD that brings the pending values to 128 or more flushes exactly one block, over the stream
positions from LOGICAL_INDEX on. -/
def Obligations.AddFlushesFullBlock : Prop :=
  ∀ (s : State) (n : BitVec 8) (slots : List Slot) (block : List Byte), s.Inv → s.encState = .opened →
    n.toNat ≤ 128 → s.logicalIndex ≠ 0 → 128 ≤ s.pendingCount.toNat + (chunkValues s.encW n slots).length →
    s.accepted + (chunkValues s.encW n slots).length ≤ s.totalValues.toNat →
    block = blockBytes (s.appendValues (chunkValues s.encW n slots)).rbValue s.logicalIndex.toNat 128 →
    s.outputCursor.toNat + block.length ≤ s.config.sinkLimit →
    ∃ t, exec (.add n slots) s = .next t ∧
      t = { s with rb := (s.appendValues (chunkValues s.encW n slots)).rb, logicalIndex := t.logicalIndex,
                   pendingCount := t.pendingCount, mbw := t.mbw, outputCursor := t.outputCursor,
                   dest := t.dest, freeCount := t.freeCount, result := 0 } ∧
      t.logicalIndex.toNat = s.logicalIndex.toNat + 128 ∧
      t.pendingCount.toNat + 128 = s.pendingCount.toNat + (chunkValues s.encW n slots).length ∧
      t.pendingCount.toNat ≤ 127 ∧
      t.outputCursor.toNat = s.outputCursor.toNat + block.length ∧
      (∀ a (h : a < block.length), t.dest.read (s.outputCursor.toNat + a) = block[a]) ∧
      (∀ a, a < s.outputCursor.toNat ∨ s.outputCursor.toNat + block.length ≤ a →
        t.dest.read a = s.dest.read a)

/-- R192: the valid slot `i` takes stream position `A` plus the number of valid slots before it; a slot that is not
valid takes none, and its value is not read. -/
def Obligations.AddCompactsValidSlots : Prop :=
  ∀ (s t : State) (n : BitVec 8) (slots : List Slot), s.encState = .opened →
    exec (.add n slots) s = .next t → t.result = ResultCode.ok.code →
    (∀ i (h : i < slots.length), i < n.toNat → slots[i].valid = true →
      t.rb[(s.logicalIndex.toNat + s.pendingCount.toNat + ((slots.take i).filter (·.valid)).length) % 256]'(
        Nat.mod_lt _ (by decide)) = (slots[i].value.setWidth s.encW.bits).setWidth 64) ∧
    (∀ j (h : j < 256),
      (∀ i (hi : i < slots.length), i < n.toNat → slots[i].valid = true →
        (s.logicalIndex.toNat + s.pendingCount.toNat + ((slots.take i).filter (·.valid)).length) % 256 ≠ j) →
      t.rb[j] = s.rb[j]) ∧
    (∀ slots' : List Slot, slots'.length = slots.length →
      (∀ i (h : i < slots.length) (h' : i < slots'.length), slots'[i].valid = slots[i].valid ∧
        (slots[i].valid = true → slots'[i].value = slots[i].value)) →
      exec (.add n slots') s = .next t)

/-- R193: what an ADD that answers a next state leaves alone, in every state. LOGICAL_INDEX, PENDING_COUNT,
OUTPUT_CURSOR, ENC_STATE and RESULT may change; RB only at the positions of its valid values; MBW only when it
flushes; DEST only at the output list's bytes from OUTPUT_CURSOR on. -/
def Obligations.AddFrame : Prop :=
  ∀ (s t : State) (n : BitVec 8) (slots : List Slot), exec (.add n slots) s = .next t →
    t = { s with encState := t.encState, logicalIndex := t.logicalIndex, pendingCount := t.pendingCount,
                 rb := t.rb, mbw := t.mbw, outputCursor := t.outputCursor, dest := t.dest,
                 freeCount := t.freeCount, result := t.result } ∧
    (∀ j (h : j < 256), (∀ i < (chunkValues s.encW n slots).length, (s.accepted + i) % 256 ≠ j) →
      t.rb[j] = s.rb[j]) ∧
    (∀ a, a < s.outputCursor.toNat ∨
        s.outputCursor.toNat + (s.addWork (chunkValues s.encW n slots)).2.length ≤ a →
      t.dest.read a = s.dest.read a) ∧
    (s.Inv → s.logicalIndex = 0 ∨ s.pendingCount.toNat + (chunkValues s.encW n slots).length < 128 →
      t.mbw = s.mbw ∧ t.freeCount = s.freeCount)

/-! ## The commit -/

/-- R197 for ADD and FINISH once their checks have passed, with the output list their work emits: past DEST_CAP nothing
is written, RB, LOGICAL_INDEX and PENDING_COUNT keep their values, ENC_STATE becomes ERROR and ERR_SINK_OVERFLOW is
raised; otherwise the bytes stand in DEST from OUTPUT_CURSOR on and the cursor is past them. The commit that succeeds
is stated for cursors that 64 bits can hold (log 7). -/
def Obligations.CommitIsAllOrNothing : Prop :=
  ∀ (s work : State) (i : Instr) (output : List Byte), s.encState = .opened →
    ((∃ n slots, i = .add n slots ∧ n.toNat ≤ 128 ∧
        s.accepted + (chunkValues s.encW n slots).length ≤ s.totalValues.toNat ∧
        (work, output) = s.addWork (chunkValues s.encW n slots)) ∨
      (i = .finish ∧ s.Inv ∧ s.totalValues.toNat ≤ s.accepted ∧ (work, output) = s.finishWork)) →
    ((∃ cap, s.config.destCap = some cap ∧ cap < s.outputCursor.toNat + output.length) →
      ∃ t, exec i s = .next t ∧
        t = { s with encState := .error, mbw := t.mbw, freeCount := t.freeCount, result := 0x06 }) ∧
    ((∀ cap, s.config.destCap = some cap → s.outputCursor.toNat + output.length ≤ cap) →
      s.outputCursor.toNat + output.length < 2 ^ 64 →
      ∃ t, exec i s = .next t ∧ t.result = 0x00 ∧
        t.rb = work.rb ∧ t.logicalIndex = work.logicalIndex ∧ t.pendingCount = work.pendingCount ∧
        t.outputCursor.toNat = s.outputCursor.toNat + output.length ∧
        (∀ a (h : a < output.length), t.dest.read (s.outputCursor.toNat + a) = output[a]) ∧
        (∀ a, a < s.outputCursor.toNat ∨ s.outputCursor.toNat + output.length ≤ a →
          t.dest.read a = s.dest.read a))

/-! ## FINISH -/

/-- R198: the checks of FINISH, in this order. -/
def Obligations.FinishRejectsInOrder : Prop :=
  ∀ s : State,
    (s.encState ≠ .opened → exec .finish s = .next { s with result := 0x02 }) ∧
    (s.encState = .opened → s.logicalIndex.toNat + s.pendingCount.toNat < s.totalValues.toNat →
      exec .finish s = .next { s with encState := .error, result := 0x05 })

/-- R199: a FINISH that passes its checks with LOGICAL_INDEX = 0 (then nothing was declared and nothing is pending)
writes the five bytes `80 01 04 00 00` and leaves LOGICAL_INDEX at 0. -/
def Obligations.FinishWritesEmptyStream : Prop :=
  ∀ s : State, s.Inv → s.encState = .opened → s.totalValues.toNat ≤ s.accepted → s.logicalIndex = 0 →
    s.totalValues = 0 ∧ s.pendingCount = 0 ∧
    (5 ≤ s.config.sinkLimit →
      ∃ t, exec .finish s = .next t ∧
        t = { s with encState := .finished, outputCursor := 5, dest := t.dest, result := 0 } ∧
        t.logicalIndex = 0 ∧ t.destHolds [0x80, 0x01, 0x04, 0x00, 0x00] ∧
        ∀ a, 5 ≤ a → t.dest.read a = s.dest.read a)

/-- R200: a FINISH with values pending writes their block, of 1 to 127 real values, and ends the session. -/
def Obligations.FinishFlushesLastBlock : Prop :=
  ∀ (s : State) (block : List Byte), s.Inv → s.encState = .opened → s.totalValues.toNat ≤ s.accepted →
    0 < s.pendingCount.toNat → block = blockBytes s.rbValue s.logicalIndex.toNat s.pendingCount.toNat →
    s.outputCursor.toNat + block.length ≤ s.config.sinkLimit →
    s.pendingCount.toNat ≤ 127 ∧
    ∃ t, exec .finish s = .next t ∧
      t = { s with encState := .finished, logicalIndex := s.totalValues, pendingCount := 0, mbw := t.mbw,
                   outputCursor := t.outputCursor, dest := t.dest, freeCount := t.freeCount, result := 0 } ∧
      t.logicalIndex.toNat = s.logicalIndex.toNat + s.pendingCount.toNat ∧
      t.outputCursor.toNat = s.outputCursor.toNat + block.length ∧
      (∀ a (h : a < block.length), t.dest.read (s.outputCursor.toNat + a) = block[a]) ∧
      (∀ a, a < s.outputCursor.toNat ∨ s.outputCursor.toNat + block.length ≤ a →
        t.dest.read a = s.dest.read a)

/-- R200, corner case: when the deltas fill whole blocks, FINISH writes nothing and ends the session. -/
def Obligations.FinishWithNothingPending : Prop :=
  ∀ s : State, s.Inv → s.encState = .opened → s.totalValues.toNat ≤ s.accepted → s.logicalIndex ≠ 0 →
    s.pendingCount = 0 → exec .finish s = .next { s with encState := .finished, result := 0 }

/-- R200: what a FINISH that answers a next state leaves alone, in every state: everything but ENC_STATE,
LOGICAL_INDEX, PENDING_COUNT, MBW, OUTPUT_CURSOR, RESULT and DEST's bytes of its output list from OUTPUT_CURSOR on;
MBW too when nothing is pending. -/
def Obligations.FinishFrame : Prop :=
  ∀ s t : State, exec .finish s = .next t →
    t = { s with encState := t.encState, logicalIndex := t.logicalIndex, pendingCount := t.pendingCount,
                 mbw := t.mbw, outputCursor := t.outputCursor, dest := t.dest, freeCount := t.freeCount,
                 result := t.result } ∧
    (∀ a, a < s.outputCursor.toNat ∨ s.outputCursor.toNat + s.finishWork.2.length ≤ a →
      t.dest.read a = s.dest.read a) ∧
    (s.pendingCount = 0 → t.mbw = s.mbw ∧ t.freeCount = s.freeCount)

/-! ## DECODE -/

/-- R240: DECODE answers a next state whatever ENC_STATE with a supplied span, and with IN bound to the DEST of a
FINISHED session of its width; it changes no encoder register, no byte of DEST or IN and nothing on the port. With IN
bound to the DEST of a session that is not FINISHED, or of the other width, the launches that R296 (b) and (d) call
unsaid, it is refused by name (logs 9 and 20). -/
def Obligations.DecodeKeepsEncoder : Prop :=
  ∀ (s : State) (w : ValueWidth) (total len : Word),
    (s.inSpan ≠ .boundToDest ∨ s.encState = .finished ∧ s.encW = w → ∃ t, exec (.decode w total len) s = .next t ∧
      t = { s with decConsumed := t.decConsumed, decProduced := t.decProduced, result := t.result, out := t.out,
                   freeCount := t.freeCount }) ∧
    (s.inSpan = .boundToDest → s.encState ≠ .finished →
      exec (.decode w total len) s = .refused .overlapUnsaid) ∧
    (s.inSpan = .boundToDest → s.encState = .finished → s.encW ≠ w →
      exec (.decode w total len) s = .refused .widthUnsaid)

/-- R240, D39: what DECODE does depends on no encoder register, nor on anything else but the bytes of IN below LEN:
two states whose IN agrees there end with the same registers, the same produced values and the same code. The launch
is unsaid in neither (R296, logs 9 and 20). -/
def Obligations.DecodeIgnoresEncoderState : Prop :=
  ∀ (s u : State) (w : ValueWidth) (total len : Word),
    s.launchRefusal w = none → u.launchRefusal w = none →
    (∀ a < len.toNat, s.inMem.read a = u.inMem.read a) →
    ∃ t v, exec (.decode w total len) s = .next t ∧ exec (.decode w total len) u = .next v ∧
      t.decConsumed = v.decConsumed ∧ t.decProduced = v.decProduced ∧ t.result = v.result ∧
      (t.result = ResultCode.ok.code → ∀ j < t.decProduced.toNat, t.out.read j = v.out.read j)

/-- R245, R62, R247, R261: the end of a DECODE, successful or not. On success DEC_CONSUMED is the number of IN bytes used, DEC_PRODUCED
is `t`, RESULT is OK, the values stand in `OUT[0 .. t−1]`, nothing else of OUT changes, and the bytes of IN after
DEC_CONSUMED are not read. On an error both registers are 0, RESULT is the error's code and only `OUT[0 .. ARG−1]`
may change. That the elements of OUT from `t` or ARG on stay is R62's "and nothing else", read by element index: the
model's reading for old elements of the other width (log 11). -/
def Obligations.DecodeEndEffects : Prop :=
  (DecFault.truncated.code.code = 0x10 ∧ DecFault.varintOverflow.code.code = 0x11 ∧
    DecFault.badHeader.code.code = 0x12 ∧ DecFault.countMismatch.code.code = 0x13 ∧
    DecFault.badWidth.code.code = 0x14) ∧
  ∀ (s : State) (w : ValueWidth) (total len : Word), s.launchRefusal w = none →
    (∀ e, decodeStream w.bits s.inMem.read len.toNat total = .error e →
      ∃ t, exec (.decode w total len) s = .next t ∧ t.decConsumed = 0 ∧ t.decProduced = 0 ∧
        t.result = e.code.code ∧ ∀ j, total.toNat ≤ j → t.out.read j = s.out.read j) ∧
    (∀ c vs, decodeStream w.bits s.inMem.read len.toNat total = .ok (c, vs) →
      (∃ t, exec (.decode w total len) s = .next t ∧ t.decConsumed.toNat = c ∧ t.decProduced = total ∧
        t.result = 0 ∧ vs.length = total.toNat ∧
        (∀ j (h : j < vs.length), t.out.read j = vs[j].setWidth 64) ∧
        (∀ j, total.toNat ≤ j → t.out.read j = s.out.read j)) ∧
      (∀ rd : Nat → Byte, (∀ a < c, rd a = s.inMem.read a) →
        decodeStream w.bits rd len.toNat total = .ok (c, vs)))

/-- R243, R245, R247: a DECODE that succeeds produces exactly the declared count and uses only bytes of the span. -/
def Obligations.DecodeProducesDeclaredCount : Prop :=
  ∀ (w : ValueWidth) (rd : Nat → Byte) (len : Nat) (total : Word) (c : Nat) (vs : List (BitVec w.bits)),
    decodeStream w.bits rd len total = .ok (c, vs) → vs.length = total.toNat ∧ 5 ≤ c ∧ c ≤ len

/-- R246: a DECODE of an empty stream reads the whole stream header, its first-value field included, and produces
nothing. -/
def Obligations.DecodeOfEmptyStream : Prop :=
  ∀ (s : State) (w : ValueWidth) (len : Word) (f : BitVec w.bits) (c : Nat),
    s.launchRefusal w = none → decodeHeader w.bits s.inMem.read len.toNat 0 = .ok (f, c) →
    ∃ t, exec (.decode w 0 len) s = .next t ∧ t.decConsumed.toNat = c ∧ t.decProduced = 0 ∧ t.result = 0 ∧
      ∀ j, t.out.read j = s.out.read j

/-- R240, R241, R246, R248: the stream header on any span. Each field is what `UVARINT_DEC` reads at the cursor after
the field before it, canonical or not, and a field that fails to decode fails the DECODE with its error. `block_size`
other than 128 or `num_mini_blocks` other than 4 is DEC_BAD_HEADER, `total_value_count` other than ARG is
DEC_COUNT_MISMATCH, each before the next field is read. Past the header the DECODE is its blocks, from the first value
on (from none when ARG is 0). The last clause says it of a header written with canonical varints. -/
def Obligations.DecodeChecksStreamHeader : Prop :=
  (∀ (w : ValueWidth) (rd : Nat → Byte) (len : Nat) (total : Word),
    (∀ e, uvarintDec rd len 64 0 = .error e → decodeStream w.bits rd len total = .error e) ∧
    ∀ bs c₁, uvarintDec rd len 64 0 = .ok (bs, c₁) →
      (bs ≠ 128 → decodeStream w.bits rd len total = .error .badHeader) ∧
      (bs = 128 →
        (∀ e, uvarintDec rd len 64 c₁ = .error e → decodeStream w.bits rd len total = .error e) ∧
        ∀ nmb c₂, uvarintDec rd len 64 c₁ = .ok (nmb, c₂) →
          (nmb ≠ 4 → decodeStream w.bits rd len total = .error .badHeader) ∧
          (nmb = 4 →
            (∀ e, uvarintDec rd len 64 c₂ = .error e → decodeStream w.bits rd len total = .error e) ∧
            ∀ t c₃, uvarintDec rd len 64 c₂ = .ok (t, c₃) →
              (t ≠ total → decodeStream w.bits rd len total = .error .countMismatch) ∧
              (t = total →
                (∀ e, zzvarintDec rd len w.bits c₃ = .error e → decodeStream w.bits rd len total = .error e) ∧
                ∀ f c₄, zzvarintDec rd len w.bits c₃ = .ok (f, c₄) →
                  decodeHeader w.bits rd len total = .ok (f, c₄) ∧
                  (total = 0 → decodeStream w.bits rd len total = .ok (c₄, [])) ∧
                  (total ≠ 0 → decodeStream w.bits rd len total =
                    (decodeBlocks rd len total.toNat total.toNat ⟨c₄, f, [f]⟩).map fun p => (p.c, p.values)))))) ∧
  ∀ (w : ValueWidth) (rd : Nat → Byte) (len : Nat) (bs nmb t total : Word) (f : BitVec w.bits)
    (header : List Byte),
    header = uvarintEnc 64 bs ++ uvarintEnc 64 nmb ++ uvarintEnc 64 t ++ zzvarintEnc w.bits f →
    header.length ≤ len → (∀ a (h : a < header.length), rd a = header[a]) →
    decodeHeader w.bits rd len total =
      if bs ≠ 128 ∨ nmb ≠ 4 then .error .badHeader
      else if t ≠ total then .error .countMismatch
      else .ok (f, header.length)

/-- R242, R248: while fewer than `t` values have been produced the decoder reads a block, and stops at its first error.
After the minimum of a block it reads all four width bytes, then checks each against `W`. -/
def Obligations.DecodeChecksWidthBytes : Prop :=
  (∀ (w : ValueWidth) (rd : Nat → Byte) (len t k : Nat) (p : Progress w.bits),
    (t ≤ p.values.length → decodeBlocks rd len t k p = .ok p) ∧
    (p.values.length < t → t ≤ p.values.length + k →
      decodeBlocks rd len t k p = (decodeBlock rd len t p).bind (decodeBlocks rd len t k))) ∧
  (∀ (w : ValueWidth) (rd : Nat → Byte) (len t : Nat) (p : Progress w.bits) (e : DecFault),
    zzvarintDec rd len w.bits p.c = .error e → decodeBlock rd len t p = .error e) ∧
  ∀ (w : ValueWidth) (rd : Nat → Byte) (len t : Nat) (p : Progress w.bits) (bmin : BitVec w.bits) (c : Nat),
    zzvarintDec rd len w.bits p.c = .ok (bmin, c) →
    (len < c + 4 → decodeBlock rd len t p = .error .truncated) ∧
    (c + 4 ≤ len → (∃ m < 4, w.bits < (rd (c + m)).toNat) → decodeBlock rd len t p = .error .badWidth) ∧
    (c + 4 ≤ len → (∀ m < 4, (rd (c + m)).toNat ≤ w.bits) →
      decodeBlock rd len t p = decodeMiniBlocks rd len t bmin
        [(rd c).toNat, (rd (c + 1)).toNat, (rd (c + 2)).toNat, (rd (c + 3)).toNat] { p with c := c + 4 })

/-- R243, R244, with R147: the mini-blocks of a block on any span. One with no value left takes no byte, whatever its
width byte holds. One with values left takes `4 × wd` bytes, or DEC_TRUNCATED where they are not all in the span; its
values are `min(32, t − produced)` in number, each the value before it plus the minimum plus the `wd` bits of the run
that are its own. -/
def Obligations.DecodeTakesMiniBlocks : Prop :=
  ∀ (w : ValueWidth) (rd : Nat → Byte) (len t : Nat) (bmin : BitVec w.bits) (wd : Nat) (wds : List Nat)
    (p : Progress w.bits),
    decodeMiniBlocks rd len t bmin [] p = .ok p ∧
    (t ≤ p.values.length →
      decodeMiniBlocks rd len t bmin (wd :: wds) p = decodeMiniBlocks rd len t bmin wds p) ∧
    (p.values.length < t → len < p.c + 4 * wd →
      decodeMiniBlocks rd len t bmin (wd :: wds) p = .error .truncated) ∧
    (p.values.length < t → p.c + 4 * wd ≤ len → wd ≤ w.bits → ∃ vals : List (BitVec w.bits),
      decodeMiniBlocks rd len t bmin (wd :: wds) p =
        decodeMiniBlocks rd len t bmin wds ⟨p.c + 4 * wd, vals.getLastD p.run, p.values ++ vals⟩ ∧
      vals.length = min 32 (t - p.values.length) ∧
      ∀ j (h : j < vals.length), ∃ norm : BitVec w.bits,
        vals[j] = (if j = 0 then p.run else vals[j - 1]'(by omega)) + (norm + bmin) ∧
        ∀ b < w.bits, norm.getLsbD b =
          (decide (b < wd) && (rd (p.c + (j * wd + b) / 8)).getLsbD ((j * wd + b) % 8)))

/-! ## Varint primitives -/

/-- R116, R118: the decoder of a varint on any span in which the bytes from `c` to `c + k − 1` continue. The span ends
there: DEC_TRUNCATED. Byte `c + k` ends the varint and the groups' value fits `N` bits: that value, canonical or not
(`80 00` is 0, R98), and the cursor past it. It is the last byte a varint may have, and continues or carries bits at or
above bit `N`: DEC_VARINT_OVERFLOW. -/
def Obligations.UvarintDecodesAnySpan : Prop :=
  (∀ (w : ValueWidth) (rd : Nat → Byte) (len c k v : Nat),
    (∀ i < k, c + i < len ∧ (rd (c + i)).getLsbD 7 = true) → k < (w.bits + 6) / 7 →
    v = ((Finset.range (k + 1)).sum fun i => (rd (c + i)).toNat % 128 * 128 ^ i) →
    (len ≤ c + k →
      uvarintDec rd len w.bits c = .error .truncated ∧ zzvarintDec rd len w.bits c = .error .truncated) ∧
    (c + k < len → (rd (c + k)).getLsbD 7 = false → v < 2 ^ w.bits →
      uvarintDec rd len w.bits c = .ok (BitVec.ofNat w.bits v, c + k + 1) ∧
      zzvarintDec rd len w.bits c = .ok (unzigzag (BitVec.ofNat w.bits v), c + k + 1)) ∧
    (c + k < len → k + 1 = (w.bits + 6) / 7 → (rd (c + k)).getLsbD 7 = true ∨ 2 ^ w.bits ≤ v →
      uvarintDec rd len w.bits c = .error .varintOverflow ∧
      zzvarintDec rd len w.bits c = .error .varintOverflow)) ∧
  (∀ (w : ValueWidth) (rd : Nat → Byte) (len c : Nat), rd c = 0x80 → rd (c + 1) = 0x00 → c + 2 ≤ len →
    uvarintDec rd len w.bits c = .ok (0, c + 2))

/-- R119: decoding the encoding of any value gives it back, and the cursor past it. -/
def Obligations.VarintRoundTrip : Prop :=
  ∀ (w : ValueWidth) (rd : Nat → Byte) (len c : Nat) (v : BitVec w.bits),
    ((∀ i (h : i < (uvarintEnc w.bits v).length), rd (c + i) = (uvarintEnc w.bits v)[i]) →
      c + (uvarintEnc w.bits v).length ≤ len →
      uvarintDec rd len w.bits c = .ok (v, c + (uvarintEnc w.bits v).length)) ∧
    ((∀ i (h : i < (zzvarintEnc w.bits v).length), rd (c + i) = (zzvarintEnc w.bits v)[i]) →
      c + (zzvarintEnc w.bits v).length ≤ len →
      zzvarintDec rd len w.bits c = .ok (v, c + (zzvarintEnc w.bits v).length))

/-- R111: every byte but the last has bit 7 set, the last has it clear, and the last is not `00` unless it is the only
byte. -/
def Obligations.UvarintIsCanonical : Prop :=
  ∀ (w : ValueWidth) (v : BitVec w.bits), ∃ init last, uvarintEnc w.bits v = init ++ [last] ∧
    (∀ b ∈ init, b.getLsbD 7 = true) ∧ last.getLsbD 7 = false ∧ (last = 0 → init = [])

/-- R112: the length is `max(1, ceil(bitlen(v) / 7))`, so `k` bytes for `2^(7(k−1)) ≤ v < 2^(7k)`, and at most
`ceil(N / 7)`. -/
def Obligations.UvarintLength : Prop :=
  ∀ (w : ValueWidth) (v : BitVec w.bits),
    (uvarintEnc w.bits v).length = max 1 ((bitLen v.toNat + 6) / 7) ∧
    (v.toNat < 2 ^ 7 → (uvarintEnc w.bits v).length = 1) ∧
    (∀ k, 1 ≤ k → 2 ^ (7 * (k - 1)) ≤ v.toNat → v.toNat < 2 ^ (7 * k) → (uvarintEnc w.bits v).length = k) ∧
    (uvarintEnc w.bits v).length ≤ (w.bits + 6) / 7

/-- R114: the arithmetic reading of zigzag. -/
def Obligations.ZigzagArithmetic : Prop :=
  ∀ (w : ValueWidth) (v : BitVec w.bits),
    (0 ≤ v.toInt → ((zigzag v).toNat : Int) = 2 * v.toInt) ∧
    (v.toInt < 0 → ((zigzag v).toNat : Int) = -2 * v.toInt - 1)

/-- R113, R117: zigzag and its decoding undo each other, so zigzag is a bijection. -/
def Obligations.ZigzagInverse : Prop :=
  ∀ (w : ValueWidth) (v : BitVec w.bits), unzigzag (zigzag v) = v ∧ zigzag (unzigzag v) = v

/-! ## Bit width and bit-packer -/

/-- R149: the bit width is the least number of bits that holds the value, with its corner cases. -/
def Obligations.BitWidthIsLeast : Prop :=
  bitLen 0 = 0 ∧ bitLen 53 = 6 ∧
  (∀ x, x < 2 ^ bitLen x ∧ ∀ k, x < 2 ^ k → bitLen x ≤ k) ∧
  (∀ k, bitLen (2 ^ k - 1) = k ∧ bitLen (2 ^ k) = k + 1) ∧
  (∀ (w : ValueWidth) (x : BitVec w.bits), bitLen x.toNat ≤ w.bits)

/-- R140: the packed run has `ceil(cnt × w / 8)` bytes; value `i` occupies its bits from `i × w` on, and the bits above
the last value are 0. -/
def Obligations.PackPlacesBits : Prop :=
  ∀ (w : Nat) (vals : List Nat), vals.length ≤ 32 → w ≤ 64 → (∀ v ∈ vals, v < 2 ^ w) →
    (pack w vals).length = (vals.length * w + 7) / 8 ∧
    (∀ i j (hi : i < vals.length), j < w → ∀ h : (i * w + j) / 8 < (pack w vals).length,
      (pack w vals)[(i * w + j) / 8].getLsbD ((i * w + j) % 8) = vals[i].testBit j) ∧
    (∀ i j, i < vals.length → j < w → (i * w + j) / 8 < (pack w vals).length) ∧
    (∀ k, vals.length * w ≤ k → ∀ h : k / 8 < (pack w vals).length,
      (pack w vals)[k / 8].getLsbD (k % 8) = false)

/-- R146, R93: the payload of a mini-block that holds a real value is all 32 slots packed, the padding slots as 0; it
has `4 × w` bytes. -/
def Obligations.PayloadIsPaddedPack : Prop :=
  ∀ (w : Nat) (vals : List Nat), 1 ≤ vals.length → vals.length ≤ 32 → w ≤ 64 → (∀ v ∈ vals, v < 2 ^ w) →
    miniBlockPayload w vals = pack w (vals ++ List.replicate (32 - vals.length) 0) ∧
    (miniBlockPayload w vals).length = 4 * w

/-- R148: unpacking a packed run, or the start of a mini-block's payload, gives the values back. -/
def Obligations.PackUnpackRoundTrip : Prop :=
  ∀ (W : ValueWidth) (w : Nat) (vals : List Nat) (rd : Nat → Byte) (c : Nat),
    vals.length ≤ 32 → w ≤ W.bits → (∀ v ∈ vals, v < 2 ^ w) →
    ((∀ k (h : k < (pack w vals).length), rd (c + k) = (pack w vals)[k]) →
      unpack W.bits vals.length w rd c = vals.map (BitVec.ofNat W.bits)) ∧
    ((∀ k (h : k < (miniBlockPayload w vals).length), k < (vals.length * w + 7) / 8 →
        rd (c + k) = (miniBlockPayload w vals)[k]) →
      unpack W.bits vals.length w rd c = vals.map (BitVec.ofNat W.bits))

/-! ## Block encoder -/

/-- R163, R164: the frame of reference is the signed minimum of the real deltas, and each real normalized delta is the
exact difference, with no wrap. -/
def Obligations.FrameOfReferenceIsMinimum : Prop :=
  ∀ (w : ValueWidth) (v : Nat → BitVec w.bits) (L n : Nat), 1 ≤ n → n ≤ 128 →
    (∃ i < n, blockMin n (blockDeltas v L n) = v (L + i) - v (L + i - 1)) ∧
    (∀ i < n, (blockMin n (blockDeltas v L n)).toInt ≤ (v (L + i) - v (L + i - 1)).toInt) ∧
    (∀ i < n, ∃ norm, (blockNorms n (blockDeltas v L n))[i]? = some norm ∧
      (norm.toNat : Int) = (v (L + i) - v (L + i - 1)).toInt - (blockMin n (blockDeltas v L n)).toInt) ∧
    (∀ i, n ≤ i → i < 128 → (blockNorms n (blockDeltas v L n))[i]? = some 0)

/-- R165: the mini-block widths: every real normalized delta of mini-block `m` is below `2^MBW[m]`, no smaller width
would do, every width is at most `W`, and a mini-block with no real value has width 0. R166, R167, with R92 and R168: the
block is its minimum, the four width bytes and the four payloads in order, each of the mini-block's own real normalized
deltas at its width and empty where there is none, and so of `4 × MBW[m]` bytes. -/
def Obligations.MiniBlockWidthsFit : Prop :=
  (∀ (w : ValueWidth) (v : Nat → BitVec w.bits) (L n : Nat), 1 ≤ n → n ≤ 128 →
    ∃ (norms : List (BitVec w.bits)) (width : Nat → Nat) (payload : Nat → List Byte),
      norms = blockNorms n (blockDeltas v L n) ∧ (∀ m, width m = miniWidth n norms m) ∧
      (∀ m < 4, payload m = miniBlockPayload (width m)
        ((List.range (miniCount n m)).map fun i => (norms.getD (32 * m + i) 0).toNat)) ∧
      (∀ m < 4, miniCount n m = 0 → payload m = []) ∧
      (∀ m < 4, (payload m).length = 4 * width m) ∧
      blockBytes v L n = zzvarintEnc w.bits (blockMin n (blockDeltas v L n))
        ++ [BitVec.ofNat 8 (width 0), BitVec.ofNat 8 (width 1), BitVec.ofNat 8 (width 2), BitVec.ofNat 8 (width 3)]
        ++ payload 0 ++ payload 1 ++ payload 2 ++ payload 3 ∧
      (blockBytes v L n).length = (zzvarintEnc w.bits (blockMin n (blockDeltas v L n))).length + 4
        + 4 * (width 0 + width 1 + width 2 + width 3)) ∧
  ∀ (w : ValueWidth) (v : Nat → BitVec w.bits) (L n m : Nat), 1 ≤ n → n ≤ 128 → m < 4 →
    miniCount n m = min 32 (n - 32 * m) ∧
    miniWidth n (blockNorms n (blockDeltas v L n)) m ≤ w.bits ∧
    (miniCount n m = 0 → miniWidth n (blockNorms n (blockDeltas v L n)) m = 0) ∧
    (∀ i norm, 32 * m ≤ i → i < 32 * m + miniCount n m →
      (blockNorms n (blockDeltas v L n))[i]? = some norm →
      norm.toNat < 2 ^ miniWidth n (blockNorms n (blockDeltas v L n)) m) ∧
    (∀ k, (∀ i norm, 32 * m ≤ i → i < 32 * m + miniCount n m →
        (blockNorms n (blockDeltas v L n))[i]? = some norm → norm.toNat < 2 ^ k) →
      miniWidth n (blockNorms n (blockDeltas v L n)) m ≤ k)

/-- R170: a block of equal deltas is its minimum and four zero width bytes. -/
def Obligations.EqualDeltasGiveNoPayload : Prop :=
  ∀ (w : ValueWidth) (v : Nat → BitVec w.bits) (L n : Nat) (x : BitVec w.bits), 1 ≤ n → n ≤ 128 →
    (∀ i < n, v (L + i) - v (L + i - 1) = x) →
    blockMin n (blockDeltas v L n) = x ∧
    (∀ i < n, (blockNorms n (blockDeltas v L n))[i]? = some 0) ∧
    (∀ m < 4, miniWidth n (blockNorms n (blockDeltas v L n)) m = 0) ∧
    blockBytes v L n = zzvarintEnc w.bits x ++ [0x00, 0x00, 0x00, 0x00]

/-! ## The stream format -/

/-- R91: the stream header begins `80 01 04`, and its length is that of its two other fields plus 3, between 5 and
`3 + 10 + ceil(W/7)`; the stream of no value is the header of first value 0. -/
def Obligations.HeaderForm : Prop :=
  ∀ (w : ValueWidth) (total : Word) (f : BitVec w.bits),
    streamHeader total f = [0x80, 0x01, 0x04] ++ uvarintEnc 64 total ++ uvarintEnc w.bits (zigzag f) ∧
    (streamHeader total f).length = 3 + (uvarintEnc 64 total).length + (uvarintEnc w.bits (zigzag f)).length ∧
    5 ≤ (streamHeader total f).length ∧ (streamHeader total f).length ≤ 3 + 10 + (w.bits + 6) / 7 ∧
    streamBytes ([] : List (BitVec w.bits)) = streamHeader 0 (0 : BitVec w.bits)

/-- R97: the size bound of a stream of `T` values, and the size of a block whose widths are all 0. -/
def Obligations.StreamSizeWithinBound : Prop :=
  ∀ (w : ValueWidth) (vs : List (BitVec w.bits)),
    (streamBytes vs).length ≤
      (3 + 10 + (w.bits + 6) / 7) + ((vs.length - 1 + 127) / 128) * ((w.bits + 6) / 7 + 4 + 16 * w.bits) ∧
    (∀ (v : Nat → BitVec w.bits) (L : Nat),
      (∀ m < 4, miniWidth 128 (blockNorms 128 (blockDeltas v L 128)) m = 0) →
      (blockBytes v L 128).length =
        (zzvarintEnc w.bits (blockMin 128 (blockDeltas v L 128))).length + 4)

/-- R249, the decoder's half: a span that begins with the encoded stream of any values decodes to exactly those values
and uses exactly the stream's bytes. -/
def Obligations.StreamDecodesToItsValues : Prop :=
  ∀ (w : ValueWidth) (vs : List (BitVec w.bits)) (rd : Nat → Byte) (len : Nat), vs.length < 2 ^ 64 →
    (streamBytes vs).length ≤ len → (∀ a (h : a < (streamBytes vs).length), rd a = (streamBytes vs)[a]) →
    decodeStream w.bits rd len (BitVec.ofNat 64 vs.length) = .ok ((streamBytes vs).length, vs)

/-- R40 (a), (e), R202, R203: INIT begins a session with no accepted value, and an ADD that succeeds extends the
accepted values by its valid ones, every live position in RB, the header and full blocks in DEST. -/
def Obligations.SessionKeepsAcceptedValues : Prop :=
  (∀ (s t : State) (w : ValueWidth) (total : Word), exec (.init w total) s = .next t → t.Session []) ∧
  (∀ (s t : State) (n : BitVec 8) (slots : List Slot) (vals : List Word), s.Inv → s.Session vals →
    exec (.add n slots) s = .next t → t.result = ResultCode.ok.code →
    t.Session (vals ++ chunkValues s.encW n slots))

/-- R201: after a session that succeeds, DEST holds exactly the encoded stream of its valid values, whatever the
chunking and the nulls. -/
def Obligations.SessionWritesStream : Prop :=
  ∀ (s u : State) (w : ValueWidth) (total : Word) (chunks : List (BitVec 8 × List Slot)),
    s.Inv → s.runSession w total chunks = some u →
    (sessionValues w chunks).length = total.toNat ∧ u.encState = .finished ∧
    u.destHolds (streamBytes (atWidth w.bits (sessionValues w chunks)))

/-- R249: decoding what a session wrote gives the session's valid values back, and consumes exactly its bytes. -/
def Obligations.RoundTripReturnsValues : Prop :=
  ∀ (s u z : State) (w : ValueWidth) (total len : Word) (chunks : List (BitVec 8 × List Slot)),
    s.Inv → s.runSession w total chunks = some u →
    z.launchRefusal w = none → (∀ a < u.outputCursor.toNat, z.inMem.read a = u.dest.read a) → u.outputCursor.toNat ≤ len.toNat →
    ∃ y, exec (.decode w total len) z = .next y ∧ y.result = 0 ∧ y.decConsumed = u.outputCursor ∧
      y.decProduced = total ∧
      ∀ j (h : j < (sessionValues w chunks).length), y.out.read j = (sessionValues w chunks)[j]

/-! ## Whole-machine rules -/

/-- R32: the transitions of ENC_STATE, and its codes. -/
def Obligations.EncStateTransitions : Prop :=
  (EncState.idle.code = 0 ∧ EncState.opened.code = 1 ∧ EncState.finished.code = 2 ∧ EncState.error.code = 3) ∧
  (∀ s t : State, step s = .next t →
    (∀ c rest w total, s.port = .command c :: rest → decode c = .ok (.init w total) → t.encState = .opened) ∧
    (∀ c rest n slots, s.port = .command c :: rest → decode c = .ok (.add n slots) → s.encState = .opened →
      (t.result = 0x00 → t.encState = .opened) ∧ (t.result = 0x04 ∨ t.result = 0x06 → t.encState = .error) ∧
      (t.result = 0x03 → t.encState = .opened) ∧ (t.result ∈ [0x00, 0x03, 0x04, 0x06])) ∧
    (∀ c rest, s.port = .command c :: rest → decode c = .ok .finish → s.encState = .opened →
      (t.result = 0x00 → t.encState = .finished) ∧ (t.result = 0x05 ∨ t.result = 0x06 → t.encState = .error) ∧
      (t.result ∈ [0x00, 0x05, 0x06])) ∧
    ((∀ c rest w total, s.port = .command c :: rest → decode c ≠ .ok (.init w total)) →
      s.encState ≠ .opened → t.encState = s.encState) ∧
    ((∀ c rest i, s.port = .command c :: rest → decode c = .ok i → ∃ w total len, i = .decode w total len) →
      t.encState = s.encState))

/-- R262: a contract violation moves ENC_STATE from OPEN to ERROR; ERR_ILLEGAL_CMD, ERR_SEQUENCE and ERR_BATCH_SIZE
leave the session as it was; decode errors affect only the decoder's registers and OUT. -/
def Obligations.ErrorsChangeOnlyListedState : Prop :=
  ∀ (s t : State) (c : Command) (rest : List HostAction), s.port = .command c :: rest → step s = .next t →
    (t.result ∈ [0x04, 0x05, 0x06] → s.encState = .opened ∧ t.encState = .error) ∧
    (t.result ∈ [0x01, 0x02, 0x03] → t = { s with port := rest, result := t.result }) ∧
    (t.result ∈ [0x10, 0x11, 0x12, 0x13, 0x14] →
      t = { s with port := rest, decConsumed := 0, decProduced := 0, result := t.result, out := t.out,
                   freeCount := t.freeCount })

/-- R33, R34, R41: ENC_W and TOTAL_VALUES are written only by INIT; DEC_CONSUMED and DEC_PRODUCED only by DECODE; OUT
only by DECODE (R62); DEST_CAP by nothing. -/
def Obligations.RegistersWrittenByTheirCommands : Prop :=
  ∀ s t : State, step s = .next t →
    t.config = s.config ∧
    ((∀ c rest w total, s.port = .command c :: rest → decode c ≠ .ok (.init w total)) →
      t.encW = s.encW ∧ t.totalValues = s.totalValues) ∧
    ((∀ c rest w total len, s.port = .command c :: rest → decode c ≠ .ok (.decode w total len)) →
      t.decConsumed = s.decConsumed ∧ t.decProduced = s.decProduced ∧ t.out = s.out) ∧
    ((∀ c rest n slots, s.port = .command c :: rest → decode c ≠ .ok (.add n slots)) → t.rb = s.rb)

/-- R39, R60, R67: no step but an INIT moves OUTPUT_CURSOR back, and a step writes DEST only at the offsets the cursor
passes, each of which it writes. -/
def Obligations.DestWrittenOnlyAtCursor : Prop :=
  ∀ s t : State, step s = .next t →
    ((∀ c rest w total, s.port = .command c :: rest → decode c ≠ .ok (.init w total)) →
      s.outputCursor.toNat ≤ t.outputCursor.toNat) ∧
    (∀ a, a < s.outputCursor.toNat ∨ t.outputCursor.toNat ≤ a → t.dest.read a = s.dest.read a) ∧
    (∀ a, s.outputCursor.toNat ≤ a → a < t.outputCursor.toNat → (t.dest.read? a).isSome = true)

/-- R42: every command, one rejected as illegal included, writes RESULT: what it held before makes no difference, and
it then holds one of the codes of R261. -/
def Obligations.EveryCommandWritesResult : Prop :=
  ∀ (s : State) (c : Command) (rest : List HostAction) (r : BitVec 8), s.port = .command c :: rest →
    step { s with result := r } = step s ∧ ∀ t, step s = .next t → t.result ∈ resultCodes

/-- R45: the fields of STATUS; every bit not listed reads as 0. -/
def Obligations.StatusFields : Prop :=
  ∀ s : State,
    (s.readRegister 0).extractLsb' 0 2 = s.encState.code ∧
    ((s.readRegister 0).getLsbD 2 = true ↔ s.logicalIndex ≠ 0 ∨ s.encState = .finished) ∧
    (s.readRegister 0).extractLsb' 3 1 = wselOfWidth s.encW ∧
    (s.readRegister 0).extractLsb' 4 4 = 0 ∧
    (s.readRegister 0).extractLsb' 8 8 = s.result ∧
    (s.readRegister 0).extractLsb' 16 48 = 0

/-- R44: the register map; numbers 7 and above read as 0. -/
def Obligations.RegisterMap : Prop :=
  ∀ s : State, s.readRegister 0 = s.statusWord ∧ s.readRegister 1 = s.outputCursor ∧
    s.readRegister 2 = s.totalValues ∧ s.readRegister 3 = s.logicalIndex ∧
    (s.readRegister 4).toNat = s.pendingCount.toNat ∧ s.readRegister 5 = s.decConsumed ∧
    s.readRegister 6 = s.decProduced ∧ ∀ n, 7 ≤ n → s.readRegister n = 0
end

