-- ==== Sys2Proof/Laws/BitPack.lean ====
section
/-! SUPPORT. The laws of the bit-packer: lengths, the bits of the scratch and of a packed run, and the integer a span
holds. -/

namespace Sys2Proof.Machine

/-! ## Bit width -/

@[simp] theorem bitLen_zero : bitLen 0 = 0 := rfl

theorem bitLen_of_pos {x : Nat} (h : x ≠ 0) : bitLen x = Nat.log2 x + 1 := by simp [bitLen, h]

/-! ## Lengths -/

@[simp] theorem bytesOfNat_length (nb acc : Nat) : (bytesOfNat nb acc).length = nb := by simp [bytesOfNat]

@[simp] theorem pack_length (w : Nat) (vals : List Nat) : (pack w vals).length = runBytes vals.length w := by
  simp [pack]

/-- A run of at most 32 values is no longer than the mini-block's `4 × w` bytes (R93, R145). -/
theorem runBytes_le {cnt : Nat} (w : Nat) (h : cnt ≤ 32) : runBytes cnt w ≤ 4 * w := by
  unfold runBytes
  have : cnt * w ≤ 32 * w := Nat.mul_le_mul_right w h
  omega

@[simp] theorem miniBlockPayload_nil (w : Nat) : miniBlockPayload w [] = [] := by simp [miniBlockPayload]

theorem miniBlockPayload_length {w : Nat} {vals : List Nat} (h : vals ≠ []) (hl : vals.length ≤ 32) :
    (miniBlockPayload w vals).length = 4 * w := by
  have := runBytes_le w hl
  rw [miniBlockPayload, if_neg h, List.length_append, List.length_replicate, pack_length]
  omega

@[simp] theorem unpack_length (W cnt w : Nat) (rd : Nat → Byte) (c : Nat) : (unpack W cnt w rd c).length = cnt := by
  simp [unpack]

/-! ## Bits -/

/-- Bit `k` of a byte sequence is bit `k mod 8` of byte `k / 8` (R140). -/
theorem bytesOfNat_bit {nb acc k : Nat} (h : k / 8 < nb) :
    ((bytesOfNat nb acc)[k / 8]'(by simpa using h)).getLsbD (k % 8) = acc.testBit k := by
  have hk : k % 8 < 8 := Nat.mod_lt _ (by decide)
  simp only [bytesOfNat, List.getElem_map, List.getElem_range, BitVec.getLsbD_ofNat, Nat.testBit_shiftRight]
  simp [hk, Nat.div_add_mod]

/-- The scratch of the values from number `i + 1` on is that from number `i` on, moved up by one field. -/
theorem packScratch_succ (w i : Nat) (vals : List Nat) :
    packScratch w (i + 1) vals = packScratch w i vals <<< w := by
  induction vals generalizing i with
  | nil => simp [packScratch]
  | cons v vs ih =>
    rw [packScratch, packScratch, ih (i + 1), Nat.shiftLeft_or_distrib, ← Nat.shiftLeft_add, Nat.add_one_mul]

/-- One value at the foot of the scratch, the others moved up by one field. -/
theorem packScratch_cons (w v : Nat) (vals : List Nat) :
    packScratch w 0 (v :: vals) = v ||| (packScratch w 0 vals <<< w) := by
  rw [packScratch, packScratch_succ]
  simp

/-- The integer a span holds depends only on the bytes it is made of. -/
theorem natOfSpan_congr {rd rd' : Nat → Byte} {c nb : Nat} (h : ∀ a, c ≤ a → a < c + nb → rd a = rd' a) :
    natOfSpan rd c nb = natOfSpan rd' c nb := by
  induction nb generalizing c with
  | zero => rfl
  | succ nb ih =>
    rw [natOfSpan, natOfSpan, h c le_rfl (by omega), ih]
    intro a h1 h2
    exact h a (by omega) (by omega)

/-- Bit `k` of the integer is bit `k mod 8` of byte `k / 8` of the span (R147). -/
theorem natOfSpan_bit (rd : Nat → Byte) (c nb k : Nat) :
    (natOfSpan rd c nb).testBit k = (decide (k / 8 < nb) && (rd (c + k / 8)).getLsbD (k % 8)) := by
  induction nb generalizing c k with
  | zero => simp [natOfSpan]
  | succ nb ih =>
    rw [natOfSpan, Nat.testBit_or, Nat.testBit_shiftLeft]
    by_cases hk : k < 8
    · have h0 : k / 8 = 0 := Nat.div_eq_of_lt hk
      simp [h0, Nat.mod_eq_of_lt hk, show ¬ 8 ≤ k by omega, BitVec.testBit_toNat]
    · have hbig : (rd c).toNat.testBit k = false := by
        apply Nat.testBit_lt_two_pow
        have := (rd c).isLt
        exact this.trans_le (Nat.pow_le_pow_right (by decide) (by omega))
      obtain ⟨j, rfl⟩ : ∃ j, k = j + 8 := ⟨k - 8, by omega⟩
      rw [hbig, ih]
      simp [Nat.add_div_right, Nat.add_assoc, Nat.add_comm 1]

theorem unpack_congr {W cnt w c : Nat} {rd rd' : Nat → Byte}
    (h : ∀ a, c ≤ a → a < c + runBytes cnt w → rd a = rd' a) : unpack W cnt w rd c = unpack W cnt w rd' c := by
  rw [unpack, unpack, natOfSpan_congr h]

end Sys2Proof.Machine
end

