-- ==== Sys2Proof/Laws/Memory.lean ====
section
/-! SUPPORT. The laws of the memories: what a read gives after each operation, and that every operation keeps the
canonical form. -/

namespace Sys2Proof.Machine

/-! ## Lists of cells -/

@[simp] theorem cellsFrom_nil {α : Type} (a : Nat) : cellsFrom (α := α) a [] = [] := rfl

@[simp] theorem cellsFrom_length {α : Type} (a : Nat) (vs : List α) : (cellsFrom a vs).length = vs.length := by
  induction vs generalizing a with
  | nil => rfl
  | cons v vs ih => simp [cellsFrom, ih]

theorem cellsFrom_keys {α : Type} (a : Nat) (vs : List α) :
    (cellsFrom a vs).map (·.1) = List.range' a vs.length := by
  induction vs generalizing a with
  | nil => rfl
  | cons v vs ih => simp [cellsFrom, ih, List.range'_succ]

theorem mem_cellsFrom_key {α : Type} {a : Nat} {vs : List α} {c : Nat × α} (h : c ∈ cellsFrom a vs) :
    a ≤ c.1 ∧ c.1 < a + vs.length := by
  have hk : c.1 ∈ List.range' a vs.length := by
    rw [← cellsFrom_keys a vs]
    exact List.mem_map_of_mem h
  simpa [List.mem_range'_1] using hk

theorem cellsFrom_rising {α : Type} (a : Nat) (vs : List α) : Rising (cellsFrom a vs) := by
  unfold Rising
  rw [cellsFrom_keys]
  exact List.pairwise_lt_range'

theorem lookupCell_cons {α : Type} (c : Nat × α) (cs : List (Nat × α)) (j : Nat) :
    lookupCell (c :: cs) j = if c.1 = j then some c.2 else lookupCell cs j := by
  by_cases h : c.1 = j <;> simp [lookupCell, h]

@[simp] theorem lookupCell_nil {α : Type} (j : Nat) : lookupCell ([] : List (Nat × α)) j = none := rfl

theorem lookupCell_append {α : Type} (cs ds : List (Nat × α)) (j : Nat) :
    lookupCell (cs ++ ds) j = (lookupCell cs j).or (lookupCell ds j) := by
  induction cs with
  | nil => simp
  | cons c cs ih =>
    rw [List.cons_append, lookupCell_cons, lookupCell_cons, ih]
    split <;> simp

theorem lookupCell_cellsFrom {α : Type} (a j : Nat) (vs : List α) :
    lookupCell (cellsFrom a vs) j = if a ≤ j then vs[j - a]? else none := by
  induction vs generalizing a with
  | nil => simp
  | cons v vs ih =>
    rw [cellsFrom, lookupCell_cons, ih]
    by_cases h : a = j
    · simp [h]
    · by_cases h2 : a ≤ j
      · obtain ⟨k, rfl⟩ : ∃ k, j = a + 1 + k := ⟨j - (a + 1), by omega⟩
        simp [h, h2, show a + 1 + k - a = k + 1 by omega]
      · simp [h, h2, show ¬ (a + 1 ≤ j) by omega]

theorem lookupCell_filter {α : Type} (p : Nat → Bool) (cs : List (Nat × α)) (j : Nat) :
    lookupCell (cs.filter fun c => p c.1) j = if p j then lookupCell cs j else none := by
  induction cs with
  | nil => simp
  | cons c cs ih =>
    rw [List.filter_cons, lookupCell_cons]
    by_cases hc : p c.1 = true
    · rw [if_pos hc, lookupCell_cons, ih]
      by_cases h : c.1 = j
      · subst h; simp [hc]
      · simp [h]
    · rw [if_neg hc, ih]
      by_cases h : c.1 = j
      · subst h; simp [hc]
      · simp [h]

theorem filter_rising {α : Type} {cs : List (Nat × α)} (p : Nat × α → Bool) (h : Rising cs) :
    Rising (cs.filter p) :=
  List.Pairwise.sublist (List.filter_sublist.map _) h

theorem append_rising {α : Type} {cs ds : List (Nat × α)} (hc : Rising cs) (hd : Rising ds)
    (h : ∀ c ∈ cs, ∀ d ∈ ds, c.1 < d.1) : Rising (cs ++ ds) := by
  unfold Rising
  rw [List.map_append, List.pairwise_append]
  refine ⟨hc, hd, ?_⟩
  rintro x hx y hy
  obtain ⟨c, hc', rfl⟩ := List.mem_map.1 hx
  obtain ⟨d, hd', rfl⟩ := List.mem_map.1 hy
  exact h c hc' d hd'

/-! ## DEST and IN -/

theorem Memory.wf_iff (m : Memory) : m.wf = true ↔ Rising m.cells := by simp [Memory.wf]

/-- A write gives its bytes back at the offsets written and leaves every other offset alone. -/
theorem Memory.read?_writeBytes (m : Memory) (a : Nat) (s : List Byte) (j : Nat) :
    (m.writeBytes a s).read? j = if a ≤ j ∧ j < a + s.length then s[j - a]? else m.read? j := by
  unfold Memory.read? Memory.writeBytes
  simp only [lookupCell_append]
  rw [lookupCell_filter (fun x => decide (x < a)), lookupCell_filter (fun x => decide (a + s.length ≤ x)),
    lookupCell_cellsFrom]
  by_cases h1 : j < a
  · simp [h1, show ¬ a ≤ j by omega, show ¬ (a + s.length ≤ j) by omega]
  · by_cases h2 : j < a + s.length
    · simp [h1, show a ≤ j by omega, h2, show ¬ (a + s.length ≤ j) by omega]
    · have : s[j - a]? = none := List.getElem?_eq_none (by omega)
      simp [h1, this, h2]

@[simp] theorem Memory.seed_writeBytes (m : Memory) (a : Nat) (s : List Byte) : (m.writeBytes a s).seed = m.seed := rfl

/-- The same through the total read. -/
theorem Memory.read_writeBytes_of_outside (m : Memory) (a : Nat) (s : List Byte) (j : Nat)
    (h : j < a ∨ a + s.length ≤ j) : (m.writeBytes a s).read j = m.read j := by
  unfold Memory.read
  rw [Memory.read?_writeBytes, if_neg (by omega), Memory.seed_writeBytes]

theorem Memory.wf_writeBytes (m : Memory) (a : Nat) (s : List Byte) (h : m.wf = true) :
    (m.writeBytes a s).wf = true := by
  rw [Memory.wf_iff] at h ⊢
  refine append_rising (append_rising (filter_rising _ h) (cellsFrom_rising a s) ?_) (filter_rising _ h) ?_
  · intro c hc d hd
    have := (List.mem_filter.1 hc).2
    have := mem_cellsFrom_key hd
    simp at *
    omega
  · intro c hc d hd
    have hd' := (List.mem_filter.1 hd).2
    rcases List.mem_append.1 hc with hc | hc
    · have := (List.mem_filter.1 hc).2
      simp at *
      omega
    · have := mem_cellsFrom_key hc
      simp at *
      omega

/-- Writing nothing changes nothing. -/
theorem Memory.writeBytes_nil (m : Memory) (a : Nat) (h : m.wf = true) : m.writeBytes a [] = m := by
  rw [Memory.wf_iff] at h
  have key : ∀ cs : List Host.Cell, Rising cs →
      cs.filter (fun c => decide (c.1 < a)) ++ cs.filter (fun c => decide (a ≤ c.1)) = cs := by
    intro cs hcs
    induction cs with
    | nil => rfl
    | cons c cs ih =>
      obtain ⟨hc, hr⟩ := List.pairwise_cons.1 hcs
      by_cases hca : c.1 < a
      · simp [hca, ih hr]
      · have h1 : cs.filter (fun c => decide (c.1 < a)) = [] := by
          rw [List.filter_eq_nil_iff]
          intro d hd
          have : c.1 < d.1 := hc d.1 (List.mem_map_of_mem hd)
          simp
          omega
        have h2 : cs.filter (fun c => decide (a ≤ c.1)) = cs := by
          rw [List.filter_eq_self]
          intro d hd
          have : c.1 < d.1 := hc d.1 (List.mem_map_of_mem hd)
          simp
          omega
        simp [hca, show a ≤ c.1 by omega, h1, h2]
  cases m
  simp only [Memory.writeBytes, List.length_nil, Nat.add_zero, cellsFrom_nil, List.append_nil]
  rw [key _ h]

/-- The span the host supplies reads as its bytes. -/
theorem read?_supplied (bytes : List Byte) (seed j : Nat) :
    (⟨cellsFrom 0 bytes, seed⟩ : Memory).read? j = bytes[j]? := by
  simp [Memory.read?, lookupCell_cellsFrom]

theorem wf_supplied (bytes : List Byte) (seed : Nat) : (⟨cellsFrom 0 bytes, seed⟩ : Memory).wf = true := by
  rw [Memory.wf_iff]
  exact cellsFrom_rising 0 bytes

/-! ## OUT -/

theorem OutMemory.wf_iff (o : OutMemory) :
    o.wf = true ↔ Rising o.cells ∧ (o.layers.map (·.bound)).Pairwise (· < ·) := by
  simp [OutMemory.wf]

theorem OutMemory.read?_writeAll (o : OutMemory) (vs : List Word) (j : Nat) :
    (o.writeAll vs).read? j = if j < vs.length then vs[j]? else o.read? j := by
  unfold OutMemory.read? OutMemory.writeAll
  simp only [lookupCell_append, lookupCell_cellsFrom]
  rw [lookupCell_filter (fun x => decide (vs.length ≤ x))]
  by_cases h : j < vs.length
  · simp [h, show ¬ vs.length ≤ j by omega]
  · simp [h]

theorem find?_filter_layers (ls : List OutLayer) (n j : Nat) (h : n ≤ j) :
    (ls.filter fun l => decide (n < l.bound)).find? (fun l => decide (j < l.bound)) =
      ls.find? fun l => decide (j < l.bound) := by
  rw [List.find?_filter]
  congr 1
  funext l
  by_cases hl : j < l.bound
  · simp [hl, show n < l.bound by omega]
  · simp [hl]

/-- A successful DECODE's write gives its values back and leaves every other element alone (R62). -/
theorem OutMemory.read_writeAll (o : OutMemory) (vs : List Word) (j : Nat) :
    (o.writeAll vs).read j = if h : j < vs.length then vs[j] else o.read j := by
  unfold OutMemory.read
  rw [OutMemory.read?_writeAll]
  by_cases h : j < vs.length
  · simp [h]
  · simp only [h, if_false, dite_false]
    congr 1
    unfold OutMemory.unspecified OutMemory.writeAll
    simp only
    rw [find?_filter_layers _ _ _ (by omega)]

/-- A failed DECODE leaves every element at or above its bound alone (R245). -/
theorem OutMemory.read_forget (o : OutMemory) (n seed : Nat) (w : ValueWidth) (j : Nat) (h : n ≤ j) :
    (o.forget n seed w).read j = o.read j := by
  unfold OutMemory.forget
  by_cases hn : n = 0
  · simp [hn]
  · simp only [hn, if_false]
    unfold OutMemory.read OutMemory.read? OutMemory.unspecified
    simp only [List.find?_cons]
    rw [lookupCell_filter (fun x => decide (n ≤ x)), find?_filter_layers _ _ _ h]
    simp [h, show ¬ j < n by omega]

/-- The elements below the bound of a failed DECODE read as free values of its width (R245). -/
theorem OutMemory.read_forget_below (o : OutMemory) (n seed : Nat) (w : ValueWidth) (j : Nat) (h : j < n) :
    (o.forget n seed w).read j = ((Config.freeElement seed j).setWidth w.bits).setWidth 64 := by
  unfold OutMemory.forget
  simp only [show n ≠ 0 by omega, if_false]
  unfold OutMemory.read OutMemory.read? OutMemory.unspecified
  simp only [List.find?_cons]
  rw [lookupCell_filter (fun x => decide (n ≤ x))]
  simp [h, show ¬ n ≤ j by omega]

theorem OutMemory.wf_writeAll (o : OutMemory) (vs : List Word) (h : o.wf = true) : (o.writeAll vs).wf = true := by
  rw [OutMemory.wf_iff] at h ⊢
  refine ⟨append_rising (cellsFrom_rising 0 vs) (filter_rising _ h.1) ?_, ?_⟩
  · intro c hc d hd
    have := mem_cellsFrom_key hc
    have := (List.mem_filter.1 hd).2
    simp at *
    omega
  · exact List.Pairwise.sublist (List.filter_sublist.map _) h.2

theorem OutMemory.wf_forget (o : OutMemory) (n seed : Nat) (w : ValueWidth) (h : o.wf = true) :
    (o.forget n seed w).wf = true := by
  unfold OutMemory.forget
  by_cases hn : n = 0
  · simpa [hn] using h
  · simp only [hn, if_false]
    rw [OutMemory.wf_iff] at h ⊢
    refine ⟨filter_rising _ h.1, ?_⟩
    simp only [List.map_cons, List.pairwise_cons]
    refine ⟨?_, List.Pairwise.sublist (List.filter_sublist.map _) h.2⟩
    intro b hb
    obtain ⟨l, hl, rfl⟩ := List.mem_map.1 hb
    simpa using (List.mem_filter.1 hl).2

end Sys2Proof.Machine
end

