-- ==== Sys2Proof/Laws/State.lean ====
section
/-! SUPPORT. What each named update of State does to each field, true by unfolding, so that no proof unfolds a
record update. -/

namespace Sys2Proof.Machine

/-! ## setResult -/

@[simp] theorem State.setResult_config (s : State) (r : ResultCode) : (s.setResult r).config = s.config := rfl
@[simp] theorem State.setResult_encState (s : State) (r : ResultCode) : (s.setResult r).encState = s.encState := rfl
@[simp] theorem State.setResult_encW (s : State) (r : ResultCode) : (s.setResult r).encW = s.encW := rfl
@[simp] theorem State.setResult_totalValues (s : State) (r : ResultCode) :
    (s.setResult r).totalValues = s.totalValues := rfl
@[simp] theorem State.setResult_logicalIndex (s : State) (r : ResultCode) :
    (s.setResult r).logicalIndex = s.logicalIndex := rfl
@[simp] theorem State.setResult_pendingCount (s : State) (r : ResultCode) :
    (s.setResult r).pendingCount = s.pendingCount := rfl
@[simp] theorem State.setResult_rb (s : State) (r : ResultCode) : (s.setResult r).rb = s.rb := rfl
@[simp] theorem State.setResult_mbw (s : State) (r : ResultCode) : (s.setResult r).mbw = s.mbw := rfl
@[simp] theorem State.setResult_outputCursor (s : State) (r : ResultCode) :
    (s.setResult r).outputCursor = s.outputCursor := rfl
@[simp] theorem State.setResult_decConsumed (s : State) (r : ResultCode) :
    (s.setResult r).decConsumed = s.decConsumed := rfl
@[simp] theorem State.setResult_decProduced (s : State) (r : ResultCode) :
    (s.setResult r).decProduced = s.decProduced := rfl
@[simp] theorem State.setResult_result (s : State) (r : ResultCode) : (s.setResult r).result = r.code := rfl
@[simp] theorem State.setResult_dest (s : State) (r : ResultCode) : (s.setResult r).dest = s.dest := rfl
@[simp] theorem State.setResult_inSpan (s : State) (r : ResultCode) : (s.setResult r).inSpan = s.inSpan := rfl
@[simp] theorem State.setResult_out (s : State) (r : ResultCode) : (s.setResult r).out = s.out := rfl
@[simp] theorem State.setResult_port (s : State) (r : ResultCode) : (s.setResult r).port = s.port := rfl
@[simp] theorem State.setResult_freeCount (s : State) (r : ResultCode) :
    (s.setResult r).freeCount = s.freeCount := rfl
@[simp] theorem State.setResult_inMem (s : State) (r : ResultCode) : (s.setResult r).inMem = s.inMem := rfl

/-! ## raise -/

@[simp] theorem State.raise_config (s : State) (e : ResultCode) : (s.raise e).config = s.config := rfl
@[simp] theorem State.raise_encState (s : State) (e : ResultCode) : (s.raise e).encState = s.encState := rfl
@[simp] theorem State.raise_encW (s : State) (e : ResultCode) : (s.raise e).encW = s.encW := rfl
@[simp] theorem State.raise_totalValues (s : State) (e : ResultCode) : (s.raise e).totalValues = s.totalValues := rfl
@[simp] theorem State.raise_logicalIndex (s : State) (e : ResultCode) :
    (s.raise e).logicalIndex = s.logicalIndex := rfl
@[simp] theorem State.raise_pendingCount (s : State) (e : ResultCode) :
    (s.raise e).pendingCount = s.pendingCount := rfl
@[simp] theorem State.raise_rb (s : State) (e : ResultCode) : (s.raise e).rb = s.rb := rfl
@[simp] theorem State.raise_mbw (s : State) (e : ResultCode) : (s.raise e).mbw = s.mbw := rfl
@[simp] theorem State.raise_outputCursor (s : State) (e : ResultCode) :
    (s.raise e).outputCursor = s.outputCursor := rfl
@[simp] theorem State.raise_decConsumed (s : State) (e : ResultCode) : (s.raise e).decConsumed = s.decConsumed := rfl
@[simp] theorem State.raise_decProduced (s : State) (e : ResultCode) : (s.raise e).decProduced = s.decProduced := rfl
@[simp] theorem State.raise_result (s : State) (e : ResultCode) : (s.raise e).result = e.code := rfl
@[simp] theorem State.raise_dest (s : State) (e : ResultCode) : (s.raise e).dest = s.dest := rfl
@[simp] theorem State.raise_inSpan (s : State) (e : ResultCode) : (s.raise e).inSpan = s.inSpan := rfl
@[simp] theorem State.raise_out (s : State) (e : ResultCode) : (s.raise e).out = s.out := rfl
@[simp] theorem State.raise_port (s : State) (e : ResultCode) : (s.raise e).port = s.port := rfl
@[simp] theorem State.raise_freeCount (s : State) (e : ResultCode) : (s.raise e).freeCount = s.freeCount := rfl
@[simp] theorem State.raise_inMem (s : State) (e : ResultCode) : (s.raise e).inMem = s.inMem := rfl

/-! ## enterError -/

@[simp] theorem State.enterError_config (s : State) : (s.enterError).config = s.config := rfl
@[simp] theorem State.enterError_encState (s : State) : (s.enterError).encState = .error := rfl
@[simp] theorem State.enterError_encW (s : State) : (s.enterError).encW = s.encW := rfl
@[simp] theorem State.enterError_totalValues (s : State) : (s.enterError).totalValues = s.totalValues := rfl
@[simp] theorem State.enterError_logicalIndex (s : State) : (s.enterError).logicalIndex = s.logicalIndex := rfl
@[simp] theorem State.enterError_pendingCount (s : State) : (s.enterError).pendingCount = s.pendingCount := rfl
@[simp] theorem State.enterError_rb (s : State) : (s.enterError).rb = s.rb := rfl
@[simp] theorem State.enterError_mbw (s : State) : (s.enterError).mbw = s.mbw := rfl
@[simp] theorem State.enterError_outputCursor (s : State) : (s.enterError).outputCursor = s.outputCursor := rfl
@[simp] theorem State.enterError_decConsumed (s : State) : (s.enterError).decConsumed = s.decConsumed := rfl
@[simp] theorem State.enterError_decProduced (s : State) : (s.enterError).decProduced = s.decProduced := rfl
@[simp] theorem State.enterError_result (s : State) : (s.enterError).result = s.result := rfl
@[simp] theorem State.enterError_dest (s : State) : (s.enterError).dest = s.dest := rfl
@[simp] theorem State.enterError_inSpan (s : State) : (s.enterError).inSpan = s.inSpan := rfl
@[simp] theorem State.enterError_out (s : State) : (s.enterError).out = s.out := rfl
@[simp] theorem State.enterError_port (s : State) : (s.enterError).port = s.port := rfl
@[simp] theorem State.enterError_freeCount (s : State) : (s.enterError).freeCount = s.freeCount := rfl
@[simp] theorem State.enterError_inMem (s : State) : (s.enterError).inMem = s.inMem := rfl

/-! ## illegalCommand -/

@[simp] theorem State.illegalCommand_config (s : State) : (s.illegalCommand).config = s.config := rfl
@[simp] theorem State.illegalCommand_encState (s : State) : (s.illegalCommand).encState = s.encState := rfl
@[simp] theorem State.illegalCommand_encW (s : State) : (s.illegalCommand).encW = s.encW := rfl
@[simp] theorem State.illegalCommand_totalValues (s : State) : (s.illegalCommand).totalValues = s.totalValues := rfl
@[simp] theorem State.illegalCommand_logicalIndex (s : State) :
    (s.illegalCommand).logicalIndex = s.logicalIndex := rfl
@[simp] theorem State.illegalCommand_pendingCount (s : State) :
    (s.illegalCommand).pendingCount = s.pendingCount := rfl
@[simp] theorem State.illegalCommand_rb (s : State) : (s.illegalCommand).rb = s.rb := rfl
@[simp] theorem State.illegalCommand_mbw (s : State) : (s.illegalCommand).mbw = s.mbw := rfl
@[simp] theorem State.illegalCommand_outputCursor (s : State) :
    (s.illegalCommand).outputCursor = s.outputCursor := rfl
@[simp] theorem State.illegalCommand_decConsumed (s : State) : (s.illegalCommand).decConsumed = s.decConsumed := rfl
@[simp] theorem State.illegalCommand_decProduced (s : State) : (s.illegalCommand).decProduced = s.decProduced := rfl
@[simp] theorem State.illegalCommand_result (s : State) :
    (s.illegalCommand).result = ResultCode.errIllegalCmd.code := rfl
@[simp] theorem State.illegalCommand_dest (s : State) : (s.illegalCommand).dest = s.dest := rfl
@[simp] theorem State.illegalCommand_inSpan (s : State) : (s.illegalCommand).inSpan = s.inSpan := rfl
@[simp] theorem State.illegalCommand_out (s : State) : (s.illegalCommand).out = s.out := rfl
@[simp] theorem State.illegalCommand_port (s : State) : (s.illegalCommand).port = s.port := rfl
@[simp] theorem State.illegalCommand_freeCount (s : State) : (s.illegalCommand).freeCount = s.freeCount := rfl
@[simp] theorem State.illegalCommand_inMem (s : State) : (s.illegalCommand).inMem = s.inMem := rfl

/-! ## appendValues -/

@[simp] theorem State.appendValues_config (s : State) (vals : List Word) :
    (s.appendValues vals).config = s.config := rfl
@[simp] theorem State.appendValues_encState (s : State) (vals : List Word) :
    (s.appendValues vals).encState = s.encState := rfl
@[simp] theorem State.appendValues_encW (s : State) (vals : List Word) : (s.appendValues vals).encW = s.encW := rfl
@[simp] theorem State.appendValues_totalValues (s : State) (vals : List Word) :
    (s.appendValues vals).totalValues = s.totalValues := rfl
@[simp] theorem State.appendValues_logicalIndex (s : State) (vals : List Word) :
    (s.appendValues vals).logicalIndex = s.logicalIndex := rfl
@[simp] theorem State.appendValues_pendingCount (s : State) (vals : List Word) :
    (s.appendValues vals).pendingCount = s.pendingCount + BitVec.ofNat 9 vals.length := rfl
@[simp] theorem State.appendValues_rb (s : State) (vals : List Word) :
    (s.appendValues vals).rb = rbStore s.rb s.accepted vals := rfl
@[simp] theorem State.appendValues_mbw (s : State) (vals : List Word) : (s.appendValues vals).mbw = s.mbw := rfl
@[simp] theorem State.appendValues_outputCursor (s : State) (vals : List Word) :
    (s.appendValues vals).outputCursor = s.outputCursor := rfl
@[simp] theorem State.appendValues_decConsumed (s : State) (vals : List Word) :
    (s.appendValues vals).decConsumed = s.decConsumed := rfl
@[simp] theorem State.appendValues_decProduced (s : State) (vals : List Word) :
    (s.appendValues vals).decProduced = s.decProduced := rfl
@[simp] theorem State.appendValues_result (s : State) (vals : List Word) :
    (s.appendValues vals).result = s.result := rfl
@[simp] theorem State.appendValues_dest (s : State) (vals : List Word) : (s.appendValues vals).dest = s.dest := rfl
@[simp] theorem State.appendValues_inSpan (s : State) (vals : List Word) :
    (s.appendValues vals).inSpan = s.inSpan := rfl
@[simp] theorem State.appendValues_out (s : State) (vals : List Word) : (s.appendValues vals).out = s.out := rfl
@[simp] theorem State.appendValues_port (s : State) (vals : List Word) : (s.appendValues vals).port = s.port := rfl
@[simp] theorem State.appendValues_freeCount (s : State) (vals : List Word) :
    (s.appendValues vals).freeCount = s.freeCount := rfl
@[simp] theorem State.appendValues_inMem (s : State) (vals : List Word) : (s.appendValues vals).inMem = s.inMem := rfl

/-! ## afterFlush -/

@[simp] theorem State.afterFlush_config (s : State) (n : Nat) : (s.afterFlush n).config = s.config := rfl
@[simp] theorem State.afterFlush_encState (s : State) (n : Nat) : (s.afterFlush n).encState = s.encState := rfl
@[simp] theorem State.afterFlush_encW (s : State) (n : Nat) : (s.afterFlush n).encW = s.encW := rfl
@[simp] theorem State.afterFlush_totalValues (s : State) (n : Nat) :
    (s.afterFlush n).totalValues = s.totalValues := rfl
@[simp] theorem State.afterFlush_logicalIndex (s : State) (n : Nat) :
    (s.afterFlush n).logicalIndex = s.logicalIndex + BitVec.ofNat 64 n := rfl
@[simp] theorem State.afterFlush_pendingCount (s : State) (n : Nat) :
    (s.afterFlush n).pendingCount = s.pendingCount - BitVec.ofNat 9 n := rfl
@[simp] theorem State.afterFlush_rb (s : State) (n : Nat) : (s.afterFlush n).rb = s.rb := rfl
@[simp] theorem State.afterFlush_mbw (s : State) (n : Nat) :
    (s.afterFlush n).mbw = Vector.ofFn fun m => BitVec.ofNat 7 ((Config.freeMiniWidth s.freeCount m.val).toNat % (s.sessionBits + 1)) := rfl
@[simp] theorem State.afterFlush_outputCursor (s : State) (n : Nat) :
    (s.afterFlush n).outputCursor = s.outputCursor := rfl
@[simp] theorem State.afterFlush_decConsumed (s : State) (n : Nat) :
    (s.afterFlush n).decConsumed = s.decConsumed := rfl
@[simp] theorem State.afterFlush_decProduced (s : State) (n : Nat) :
    (s.afterFlush n).decProduced = s.decProduced := rfl
@[simp] theorem State.afterFlush_result (s : State) (n : Nat) : (s.afterFlush n).result = s.result := rfl
@[simp] theorem State.afterFlush_dest (s : State) (n : Nat) : (s.afterFlush n).dest = s.dest := rfl
@[simp] theorem State.afterFlush_inSpan (s : State) (n : Nat) : (s.afterFlush n).inSpan = s.inSpan := rfl
@[simp] theorem State.afterFlush_out (s : State) (n : Nat) : (s.afterFlush n).out = s.out := rfl
@[simp] theorem State.afterFlush_port (s : State) (n : Nat) : (s.afterFlush n).port = s.port := rfl
@[simp] theorem State.afterFlush_freeCount (s : State) (n : Nat) : (s.afterFlush n).freeCount = s.freeCount + 1 := rfl
@[simp] theorem State.afterFlush_inMem (s : State) (n : Nat) : (s.afterFlush n).inMem = s.inMem := rfl

/-! ## openSession -/

@[simp] theorem State.openSession_config (s : State) (w : ValueWidth) (total : Word) :
    (s.openSession w total).config = s.config := rfl
@[simp] theorem State.openSession_encState (s : State) (w : ValueWidth) (total : Word) :
    (s.openSession w total).encState = .opened := rfl
@[simp] theorem State.openSession_encW (s : State) (w : ValueWidth) (total : Word) :
    (s.openSession w total).encW = w := rfl
@[simp] theorem State.openSession_totalValues (s : State) (w : ValueWidth) (total : Word) :
    (s.openSession w total).totalValues = total := rfl
@[simp] theorem State.openSession_logicalIndex (s : State) (w : ValueWidth) (total : Word) :
    (s.openSession w total).logicalIndex = 0 := rfl
@[simp] theorem State.openSession_pendingCount (s : State) (w : ValueWidth) (total : Word) :
    (s.openSession w total).pendingCount = 0 := rfl
@[simp] theorem State.openSession_rb (s : State) (w : ValueWidth) (total : Word) :
    (s.openSession w total).rb = s.rb := rfl
@[simp] theorem State.openSession_mbw (s : State) (w : ValueWidth) (total : Word) :
    (s.openSession w total).mbw = s.mbw := rfl
@[simp] theorem State.openSession_outputCursor (s : State) (w : ValueWidth) (total : Word) :
    (s.openSession w total).outputCursor = 0 := rfl
@[simp] theorem State.openSession_decConsumed (s : State) (w : ValueWidth) (total : Word) :
    (s.openSession w total).decConsumed = s.decConsumed := rfl
@[simp] theorem State.openSession_decProduced (s : State) (w : ValueWidth) (total : Word) :
    (s.openSession w total).decProduced = s.decProduced := rfl
@[simp] theorem State.openSession_result (s : State) (w : ValueWidth) (total : Word) :
    (s.openSession w total).result = s.result := rfl
@[simp] theorem State.openSession_dest (s : State) (w : ValueWidth) (total : Word) :
    (s.openSession w total).dest = s.dest := rfl
@[simp] theorem State.openSession_inSpan (s : State) (w : ValueWidth) (total : Word) :
    (s.openSession w total).inSpan = s.inSpan := rfl
@[simp] theorem State.openSession_out (s : State) (w : ValueWidth) (total : Word) :
    (s.openSession w total).out = s.out := rfl
@[simp] theorem State.openSession_port (s : State) (w : ValueWidth) (total : Word) :
    (s.openSession w total).port = s.port := rfl
@[simp] theorem State.openSession_freeCount (s : State) (w : ValueWidth) (total : Word) :
    (s.openSession w total).freeCount = s.freeCount := rfl
@[simp] theorem State.openSession_inMem (s : State) (w : ValueWidth) (total : Word) :
    (s.openSession w total).inMem = s.inMem := rfl

/-! ## takeHeader -/

@[simp] theorem State.takeHeader_config (s : State) : (s.takeHeader).config = s.config := rfl
@[simp] theorem State.takeHeader_encState (s : State) : (s.takeHeader).encState = s.encState := rfl
@[simp] theorem State.takeHeader_encW (s : State) : (s.takeHeader).encW = s.encW := rfl
@[simp] theorem State.takeHeader_totalValues (s : State) : (s.takeHeader).totalValues = s.totalValues := rfl
@[simp] theorem State.takeHeader_logicalIndex (s : State) : (s.takeHeader).logicalIndex = 1 := rfl
@[simp] theorem State.takeHeader_pendingCount (s : State) : (s.takeHeader).pendingCount = s.pendingCount - 1 := rfl
@[simp] theorem State.takeHeader_rb (s : State) : (s.takeHeader).rb = s.rb := rfl
@[simp] theorem State.takeHeader_mbw (s : State) : (s.takeHeader).mbw = s.mbw := rfl
@[simp] theorem State.takeHeader_outputCursor (s : State) : (s.takeHeader).outputCursor = s.outputCursor := rfl
@[simp] theorem State.takeHeader_decConsumed (s : State) : (s.takeHeader).decConsumed = s.decConsumed := rfl
@[simp] theorem State.takeHeader_decProduced (s : State) : (s.takeHeader).decProduced = s.decProduced := rfl
@[simp] theorem State.takeHeader_result (s : State) : (s.takeHeader).result = s.result := rfl
@[simp] theorem State.takeHeader_dest (s : State) : (s.takeHeader).dest = s.dest := rfl
@[simp] theorem State.takeHeader_inSpan (s : State) : (s.takeHeader).inSpan = s.inSpan := rfl
@[simp] theorem State.takeHeader_out (s : State) : (s.takeHeader).out = s.out := rfl
@[simp] theorem State.takeHeader_port (s : State) : (s.takeHeader).port = s.port := rfl
@[simp] theorem State.takeHeader_freeCount (s : State) : (s.takeHeader).freeCount = s.freeCount := rfl
@[simp] theorem State.takeHeader_inMem (s : State) : (s.takeHeader).inMem = s.inMem := rfl

/-! ## closeSession -/

@[simp] theorem State.closeSession_config (s : State) : (s.closeSession).config = s.config := rfl
@[simp] theorem State.closeSession_encState (s : State) : (s.closeSession).encState = .finished := rfl
@[simp] theorem State.closeSession_encW (s : State) : (s.closeSession).encW = s.encW := rfl
@[simp] theorem State.closeSession_totalValues (s : State) : (s.closeSession).totalValues = s.totalValues := rfl
@[simp] theorem State.closeSession_logicalIndex (s : State) : (s.closeSession).logicalIndex = s.logicalIndex := rfl
@[simp] theorem State.closeSession_pendingCount (s : State) : (s.closeSession).pendingCount = s.pendingCount := rfl
@[simp] theorem State.closeSession_rb (s : State) : (s.closeSession).rb = s.rb := rfl
@[simp] theorem State.closeSession_mbw (s : State) : (s.closeSession).mbw = s.mbw := rfl
@[simp] theorem State.closeSession_outputCursor (s : State) : (s.closeSession).outputCursor = s.outputCursor := rfl
@[simp] theorem State.closeSession_decConsumed (s : State) : (s.closeSession).decConsumed = s.decConsumed := rfl
@[simp] theorem State.closeSession_decProduced (s : State) : (s.closeSession).decProduced = s.decProduced := rfl
@[simp] theorem State.closeSession_result (s : State) : (s.closeSession).result = s.result := rfl
@[simp] theorem State.closeSession_dest (s : State) : (s.closeSession).dest = s.dest := rfl
@[simp] theorem State.closeSession_inSpan (s : State) : (s.closeSession).inSpan = s.inSpan := rfl
@[simp] theorem State.closeSession_out (s : State) : (s.closeSession).out = s.out := rfl
@[simp] theorem State.closeSession_port (s : State) : (s.closeSession).port = s.port := rfl
@[simp] theorem State.closeSession_freeCount (s : State) : (s.closeSession).freeCount = s.freeCount := rfl
@[simp] theorem State.closeSession_inMem (s : State) : (s.closeSession).inMem = s.inMem := rfl

/-! ## commitBytes -/

@[simp] theorem State.commitBytes_config (s : State) (output : List Byte) :
    (s.commitBytes output).config = s.config := rfl
@[simp] theorem State.commitBytes_encState (s : State) (output : List Byte) :
    (s.commitBytes output).encState = s.encState := rfl
@[simp] theorem State.commitBytes_encW (s : State) (output : List Byte) : (s.commitBytes output).encW = s.encW := rfl
@[simp] theorem State.commitBytes_totalValues (s : State) (output : List Byte) :
    (s.commitBytes output).totalValues = s.totalValues := rfl
@[simp] theorem State.commitBytes_logicalIndex (s : State) (output : List Byte) :
    (s.commitBytes output).logicalIndex = s.logicalIndex := rfl
@[simp] theorem State.commitBytes_pendingCount (s : State) (output : List Byte) :
    (s.commitBytes output).pendingCount = s.pendingCount := rfl
@[simp] theorem State.commitBytes_rb (s : State) (output : List Byte) : (s.commitBytes output).rb = s.rb := rfl
@[simp] theorem State.commitBytes_mbw (s : State) (output : List Byte) : (s.commitBytes output).mbw = s.mbw := rfl
@[simp] theorem State.commitBytes_outputCursor (s : State) (output : List Byte) :
    (s.commitBytes output).outputCursor = s.outputCursor + BitVec.ofNat 64 output.length := rfl
@[simp] theorem State.commitBytes_decConsumed (s : State) (output : List Byte) :
    (s.commitBytes output).decConsumed = s.decConsumed := rfl
@[simp] theorem State.commitBytes_decProduced (s : State) (output : List Byte) :
    (s.commitBytes output).decProduced = s.decProduced := rfl
@[simp] theorem State.commitBytes_result (s : State) (output : List Byte) :
    (s.commitBytes output).result = s.result := rfl
@[simp] theorem State.commitBytes_dest (s : State) (output : List Byte) :
    (s.commitBytes output).dest = s.dest.writeBytes s.outputCursor.toNat output := rfl
@[simp] theorem State.commitBytes_inSpan (s : State) (output : List Byte) :
    (s.commitBytes output).inSpan = s.inSpan := rfl
@[simp] theorem State.commitBytes_out (s : State) (output : List Byte) : (s.commitBytes output).out = s.out := rfl
@[simp] theorem State.commitBytes_port (s : State) (output : List Byte) : (s.commitBytes output).port = s.port := rfl
@[simp] theorem State.commitBytes_freeCount (s : State) (output : List Byte) :
    (s.commitBytes output).freeCount = s.freeCount := rfl

/-! ## supplySpan -/

@[simp] theorem State.supplySpan_config (s : State) (bytes : List Byte) :
    (s.supplySpan bytes).config = s.config := rfl
@[simp] theorem State.supplySpan_encState (s : State) (bytes : List Byte) :
    (s.supplySpan bytes).encState = s.encState := rfl
@[simp] theorem State.supplySpan_encW (s : State) (bytes : List Byte) : (s.supplySpan bytes).encW = s.encW := rfl
@[simp] theorem State.supplySpan_totalValues (s : State) (bytes : List Byte) :
    (s.supplySpan bytes).totalValues = s.totalValues := rfl
@[simp] theorem State.supplySpan_logicalIndex (s : State) (bytes : List Byte) :
    (s.supplySpan bytes).logicalIndex = s.logicalIndex := rfl
@[simp] theorem State.supplySpan_pendingCount (s : State) (bytes : List Byte) :
    (s.supplySpan bytes).pendingCount = s.pendingCount := rfl
@[simp] theorem State.supplySpan_rb (s : State) (bytes : List Byte) : (s.supplySpan bytes).rb = s.rb := rfl
@[simp] theorem State.supplySpan_mbw (s : State) (bytes : List Byte) : (s.supplySpan bytes).mbw = s.mbw := rfl
@[simp] theorem State.supplySpan_outputCursor (s : State) (bytes : List Byte) :
    (s.supplySpan bytes).outputCursor = s.outputCursor := rfl
@[simp] theorem State.supplySpan_decConsumed (s : State) (bytes : List Byte) :
    (s.supplySpan bytes).decConsumed = s.decConsumed := rfl
@[simp] theorem State.supplySpan_decProduced (s : State) (bytes : List Byte) :
    (s.supplySpan bytes).decProduced = s.decProduced := rfl
@[simp] theorem State.supplySpan_result (s : State) (bytes : List Byte) :
    (s.supplySpan bytes).result = s.result := rfl
@[simp] theorem State.supplySpan_dest (s : State) (bytes : List Byte) : (s.supplySpan bytes).dest = s.dest := rfl
@[simp] theorem State.supplySpan_inSpan (s : State) (bytes : List Byte) :
    (s.supplySpan bytes).inSpan = .supplied ⟨cellsFrom 0 bytes, s.freeCount⟩ := rfl
@[simp] theorem State.supplySpan_out (s : State) (bytes : List Byte) : (s.supplySpan bytes).out = s.out := rfl
@[simp] theorem State.supplySpan_port (s : State) (bytes : List Byte) : (s.supplySpan bytes).port = s.port := rfl
@[simp] theorem State.supplySpan_freeCount (s : State) (bytes : List Byte) :
    (s.supplySpan bytes).freeCount = s.freeCount + 1 := rfl
@[simp] theorem State.supplySpan_inMem (s : State) (bytes : List Byte) :
    (s.supplySpan bytes).inMem = ⟨cellsFrom 0 bytes, s.freeCount⟩ := rfl

/-! ## bindSpan -/

@[simp] theorem State.bindSpan_config (s : State) : (s.bindSpan).config = s.config := rfl
@[simp] theorem State.bindSpan_encState (s : State) : (s.bindSpan).encState = s.encState := rfl
@[simp] theorem State.bindSpan_encW (s : State) : (s.bindSpan).encW = s.encW := rfl
@[simp] theorem State.bindSpan_totalValues (s : State) : (s.bindSpan).totalValues = s.totalValues := rfl
@[simp] theorem State.bindSpan_logicalIndex (s : State) : (s.bindSpan).logicalIndex = s.logicalIndex := rfl
@[simp] theorem State.bindSpan_pendingCount (s : State) : (s.bindSpan).pendingCount = s.pendingCount := rfl
@[simp] theorem State.bindSpan_rb (s : State) : (s.bindSpan).rb = s.rb := rfl
@[simp] theorem State.bindSpan_mbw (s : State) : (s.bindSpan).mbw = s.mbw := rfl
@[simp] theorem State.bindSpan_outputCursor (s : State) : (s.bindSpan).outputCursor = s.outputCursor := rfl
@[simp] theorem State.bindSpan_decConsumed (s : State) : (s.bindSpan).decConsumed = s.decConsumed := rfl
@[simp] theorem State.bindSpan_decProduced (s : State) : (s.bindSpan).decProduced = s.decProduced := rfl
@[simp] theorem State.bindSpan_result (s : State) : (s.bindSpan).result = s.result := rfl
@[simp] theorem State.bindSpan_dest (s : State) : (s.bindSpan).dest = s.dest := rfl
@[simp] theorem State.bindSpan_inSpan (s : State) : (s.bindSpan).inSpan = .boundToDest := rfl
@[simp] theorem State.bindSpan_out (s : State) : (s.bindSpan).out = s.out := rfl
@[simp] theorem State.bindSpan_port (s : State) : (s.bindSpan).port = s.port := rfl
@[simp] theorem State.bindSpan_freeCount (s : State) : (s.bindSpan).freeCount = s.freeCount := rfl
@[simp] theorem State.bindSpan_inMem (s : State) : (s.bindSpan).inMem = s.dest := rfl

/-! ## withPort -/

@[simp] theorem State.withPort_config (s : State) (actions : List HostAction) :
    (s.withPort actions).config = s.config := rfl
@[simp] theorem State.withPort_encState (s : State) (actions : List HostAction) :
    (s.withPort actions).encState = s.encState := rfl
@[simp] theorem State.withPort_encW (s : State) (actions : List HostAction) :
    (s.withPort actions).encW = s.encW := rfl
@[simp] theorem State.withPort_totalValues (s : State) (actions : List HostAction) :
    (s.withPort actions).totalValues = s.totalValues := rfl
@[simp] theorem State.withPort_logicalIndex (s : State) (actions : List HostAction) :
    (s.withPort actions).logicalIndex = s.logicalIndex := rfl
@[simp] theorem State.withPort_pendingCount (s : State) (actions : List HostAction) :
    (s.withPort actions).pendingCount = s.pendingCount := rfl
@[simp] theorem State.withPort_rb (s : State) (actions : List HostAction) : (s.withPort actions).rb = s.rb := rfl
@[simp] theorem State.withPort_mbw (s : State) (actions : List HostAction) : (s.withPort actions).mbw = s.mbw := rfl
@[simp] theorem State.withPort_outputCursor (s : State) (actions : List HostAction) :
    (s.withPort actions).outputCursor = s.outputCursor := rfl
@[simp] theorem State.withPort_decConsumed (s : State) (actions : List HostAction) :
    (s.withPort actions).decConsumed = s.decConsumed := rfl
@[simp] theorem State.withPort_decProduced (s : State) (actions : List HostAction) :
    (s.withPort actions).decProduced = s.decProduced := rfl
@[simp] theorem State.withPort_result (s : State) (actions : List HostAction) :
    (s.withPort actions).result = s.result := rfl
@[simp] theorem State.withPort_dest (s : State) (actions : List HostAction) :
    (s.withPort actions).dest = s.dest := rfl
@[simp] theorem State.withPort_inSpan (s : State) (actions : List HostAction) :
    (s.withPort actions).inSpan = s.inSpan := rfl
@[simp] theorem State.withPort_out (s : State) (actions : List HostAction) : (s.withPort actions).out = s.out := rfl
@[simp] theorem State.withPort_port (s : State) (actions : List HostAction) :
    (s.withPort actions).port = actions := rfl
@[simp] theorem State.withPort_freeCount (s : State) (actions : List HostAction) :
    (s.withPort actions).freeCount = s.freeCount := rfl
@[simp] theorem State.withPort_inMem (s : State) (actions : List HostAction) :
    (s.withPort actions).inMem = s.inMem := rfl

/-! ## decodeDone -/

@[simp] theorem State.decodeDone_config (s : State) {W : Nat} (c : Nat) (vs : List (BitVec W)) :
    (s.decodeDone c vs).config = s.config := rfl
@[simp] theorem State.decodeDone_encState (s : State) {W : Nat} (c : Nat) (vs : List (BitVec W)) :
    (s.decodeDone c vs).encState = s.encState := rfl
@[simp] theorem State.decodeDone_encW (s : State) {W : Nat} (c : Nat) (vs : List (BitVec W)) :
    (s.decodeDone c vs).encW = s.encW := rfl
@[simp] theorem State.decodeDone_totalValues (s : State) {W : Nat} (c : Nat) (vs : List (BitVec W)) :
    (s.decodeDone c vs).totalValues = s.totalValues := rfl
@[simp] theorem State.decodeDone_logicalIndex (s : State) {W : Nat} (c : Nat) (vs : List (BitVec W)) :
    (s.decodeDone c vs).logicalIndex = s.logicalIndex := rfl
@[simp] theorem State.decodeDone_pendingCount (s : State) {W : Nat} (c : Nat) (vs : List (BitVec W)) :
    (s.decodeDone c vs).pendingCount = s.pendingCount := rfl
@[simp] theorem State.decodeDone_rb (s : State) {W : Nat} (c : Nat) (vs : List (BitVec W)) :
    (s.decodeDone c vs).rb = s.rb := rfl
@[simp] theorem State.decodeDone_mbw (s : State) {W : Nat} (c : Nat) (vs : List (BitVec W)) :
    (s.decodeDone c vs).mbw = s.mbw := rfl
@[simp] theorem State.decodeDone_outputCursor (s : State) {W : Nat} (c : Nat) (vs : List (BitVec W)) :
    (s.decodeDone c vs).outputCursor = s.outputCursor := rfl
@[simp] theorem State.decodeDone_decConsumed (s : State) {W : Nat} (c : Nat) (vs : List (BitVec W)) :
    (s.decodeDone c vs).decConsumed = BitVec.ofNat 64 c := rfl
@[simp] theorem State.decodeDone_decProduced (s : State) {W : Nat} (c : Nat) (vs : List (BitVec W)) :
    (s.decodeDone c vs).decProduced = BitVec.ofNat 64 vs.length := rfl
@[simp] theorem State.decodeDone_result (s : State) {W : Nat} (c : Nat) (vs : List (BitVec W)) :
    (s.decodeDone c vs).result = ResultCode.ok.code := rfl
@[simp] theorem State.decodeDone_dest (s : State) {W : Nat} (c : Nat) (vs : List (BitVec W)) :
    (s.decodeDone c vs).dest = s.dest := rfl
@[simp] theorem State.decodeDone_inSpan (s : State) {W : Nat} (c : Nat) (vs : List (BitVec W)) :
    (s.decodeDone c vs).inSpan = s.inSpan := rfl
@[simp] theorem State.decodeDone_out (s : State) {W : Nat} (c : Nat) (vs : List (BitVec W)) :
    (s.decodeDone c vs).out = s.out.writeAll (vs.map (·.setWidth 64)) := rfl
@[simp] theorem State.decodeDone_port (s : State) {W : Nat} (c : Nat) (vs : List (BitVec W)) :
    (s.decodeDone c vs).port = s.port := rfl
@[simp] theorem State.decodeDone_freeCount (s : State) {W : Nat} (c : Nat) (vs : List (BitVec W)) :
    (s.decodeDone c vs).freeCount = s.freeCount := rfl
@[simp] theorem State.decodeDone_inMem (s : State) {W : Nat} (c : Nat) (vs : List (BitVec W)) :
    (s.decodeDone c vs).inMem = s.inMem := rfl

/-! ## decodeFailed -/

@[simp] theorem State.decodeFailed_config (s : State) (w : ValueWidth) (total : Word) (e : DecFault) :
    (s.decodeFailed w total e).config = s.config := rfl
@[simp] theorem State.decodeFailed_encState (s : State) (w : ValueWidth) (total : Word) (e : DecFault) :
    (s.decodeFailed w total e).encState = s.encState := rfl
@[simp] theorem State.decodeFailed_encW (s : State) (w : ValueWidth) (total : Word) (e : DecFault) :
    (s.decodeFailed w total e).encW = s.encW := rfl
@[simp] theorem State.decodeFailed_totalValues (s : State) (w : ValueWidth) (total : Word) (e : DecFault) :
    (s.decodeFailed w total e).totalValues = s.totalValues := rfl
@[simp] theorem State.decodeFailed_logicalIndex (s : State) (w : ValueWidth) (total : Word) (e : DecFault) :
    (s.decodeFailed w total e).logicalIndex = s.logicalIndex := rfl
@[simp] theorem State.decodeFailed_pendingCount (s : State) (w : ValueWidth) (total : Word) (e : DecFault) :
    (s.decodeFailed w total e).pendingCount = s.pendingCount := rfl
@[simp] theorem State.decodeFailed_rb (s : State) (w : ValueWidth) (total : Word) (e : DecFault) :
    (s.decodeFailed w total e).rb = s.rb := rfl
@[simp] theorem State.decodeFailed_mbw (s : State) (w : ValueWidth) (total : Word) (e : DecFault) :
    (s.decodeFailed w total e).mbw = s.mbw := rfl
@[simp] theorem State.decodeFailed_outputCursor (s : State) (w : ValueWidth) (total : Word) (e : DecFault) :
    (s.decodeFailed w total e).outputCursor = s.outputCursor := rfl
@[simp] theorem State.decodeFailed_decConsumed (s : State) (w : ValueWidth) (total : Word) (e : DecFault) :
    (s.decodeFailed w total e).decConsumed = 0 := rfl
@[simp] theorem State.decodeFailed_decProduced (s : State) (w : ValueWidth) (total : Word) (e : DecFault) :
    (s.decodeFailed w total e).decProduced = 0 := rfl
@[simp] theorem State.decodeFailed_result (s : State) (w : ValueWidth) (total : Word) (e : DecFault) :
    (s.decodeFailed w total e).result = e.code.code := rfl
@[simp] theorem State.decodeFailed_dest (s : State) (w : ValueWidth) (total : Word) (e : DecFault) :
    (s.decodeFailed w total e).dest = s.dest := rfl
@[simp] theorem State.decodeFailed_inSpan (s : State) (w : ValueWidth) (total : Word) (e : DecFault) :
    (s.decodeFailed w total e).inSpan = s.inSpan := rfl
@[simp] theorem State.decodeFailed_out (s : State) (w : ValueWidth) (total : Word) (e : DecFault) :
    (s.decodeFailed w total e).out = s.out.forget total.toNat s.freeCount w := rfl
@[simp] theorem State.decodeFailed_port (s : State) (w : ValueWidth) (total : Word) (e : DecFault) :
    (s.decodeFailed w total e).port = s.port := rfl
@[simp] theorem State.decodeFailed_freeCount (s : State) (w : ValueWidth) (total : Word) (e : DecFault) :
    (s.decodeFailed w total e).freeCount = s.freeCount + 1 := rfl
@[simp] theorem State.decodeFailed_inMem (s : State) (w : ValueWidth) (total : Word) (e : DecFault) :
    (s.decodeFailed w total e).inMem = s.inMem := rfl

/-! ## overflowSink -/

@[simp] theorem State.overflowSink_config (s u : State) : (s.overflowSink u).config = u.config := rfl
@[simp] theorem State.overflowSink_encState (s u : State) : (s.overflowSink u).encState = .error := rfl
@[simp] theorem State.overflowSink_encW (s u : State) : (s.overflowSink u).encW = u.encW := rfl
@[simp] theorem State.overflowSink_totalValues (s u : State) : (s.overflowSink u).totalValues = u.totalValues := rfl
@[simp] theorem State.overflowSink_logicalIndex (s u : State) : (s.overflowSink u).logicalIndex = s.logicalIndex := rfl
@[simp] theorem State.overflowSink_pendingCount (s u : State) : (s.overflowSink u).pendingCount = s.pendingCount := rfl
@[simp] theorem State.overflowSink_rb (s u : State) : (s.overflowSink u).rb = s.rb := rfl
@[simp] theorem State.overflowSink_mbw (s u : State) : (s.overflowSink u).mbw = u.mbw := rfl
@[simp] theorem State.overflowSink_outputCursor (s u : State) : (s.overflowSink u).outputCursor = u.outputCursor := rfl
@[simp] theorem State.overflowSink_decConsumed (s u : State) : (s.overflowSink u).decConsumed = u.decConsumed := rfl
@[simp] theorem State.overflowSink_decProduced (s u : State) : (s.overflowSink u).decProduced = u.decProduced := rfl
@[simp] theorem State.overflowSink_result (s u : State) : (s.overflowSink u).result = ResultCode.errSinkOverflow.code := rfl
@[simp] theorem State.overflowSink_dest (s u : State) : (s.overflowSink u).dest = u.dest := rfl
@[simp] theorem State.overflowSink_inSpan (s u : State) : (s.overflowSink u).inSpan = u.inSpan := rfl
@[simp] theorem State.overflowSink_out (s u : State) : (s.overflowSink u).out = u.out := rfl
@[simp] theorem State.overflowSink_port (s u : State) : (s.overflowSink u).port = u.port := rfl
@[simp] theorem State.overflowSink_freeCount (s u : State) : (s.overflowSink u).freeCount = u.freeCount := rfl

/-! ## headerStep and fullBlockStep -/

@[simp] theorem State.headerStep_config (s : State) : s.headerStep.1.config = s.config := by unfold headerStep; split <;> rfl
@[simp] theorem State.headerStep_encState (s : State) : s.headerStep.1.encState = s.encState := by unfold headerStep; split <;> rfl
@[simp] theorem State.headerStep_encW (s : State) : s.headerStep.1.encW = s.encW := by unfold headerStep; split <;> rfl
@[simp] theorem State.headerStep_totalValues (s : State) : s.headerStep.1.totalValues = s.totalValues := by unfold headerStep; split <;> rfl
@[simp] theorem State.headerStep_rb (s : State) : s.headerStep.1.rb = s.rb := by unfold headerStep; split <;> rfl
@[simp] theorem State.headerStep_mbw (s : State) : s.headerStep.1.mbw = s.mbw := by unfold headerStep; split <;> rfl
@[simp] theorem State.headerStep_outputCursor (s : State) : s.headerStep.1.outputCursor = s.outputCursor := by unfold headerStep; split <;> rfl
@[simp] theorem State.headerStep_decConsumed (s : State) : s.headerStep.1.decConsumed = s.decConsumed := by unfold headerStep; split <;> rfl
@[simp] theorem State.headerStep_decProduced (s : State) : s.headerStep.1.decProduced = s.decProduced := by unfold headerStep; split <;> rfl
@[simp] theorem State.headerStep_result (s : State) : s.headerStep.1.result = s.result := by unfold headerStep; split <;> rfl
@[simp] theorem State.headerStep_dest (s : State) : s.headerStep.1.dest = s.dest := by unfold headerStep; split <;> rfl
@[simp] theorem State.headerStep_inSpan (s : State) : s.headerStep.1.inSpan = s.inSpan := by unfold headerStep; split <;> rfl
@[simp] theorem State.headerStep_out (s : State) : s.headerStep.1.out = s.out := by unfold headerStep; split <;> rfl
@[simp] theorem State.headerStep_port (s : State) : s.headerStep.1.port = s.port := by unfold headerStep; split <;> rfl
@[simp] theorem State.headerStep_freeCount (s : State) : s.headerStep.1.freeCount = s.freeCount := by unfold headerStep; split <;> rfl
@[simp] theorem State.fullBlockStep_config (s : State) : s.fullBlockStep.1.config = s.config := by unfold fullBlockStep; split <;> rfl
@[simp] theorem State.fullBlockStep_encState (s : State) : s.fullBlockStep.1.encState = s.encState := by unfold fullBlockStep; split <;> rfl
@[simp] theorem State.fullBlockStep_encW (s : State) : s.fullBlockStep.1.encW = s.encW := by unfold fullBlockStep; split <;> rfl
@[simp] theorem State.fullBlockStep_totalValues (s : State) : s.fullBlockStep.1.totalValues = s.totalValues := by unfold fullBlockStep; split <;> rfl
@[simp] theorem State.fullBlockStep_rb (s : State) : s.fullBlockStep.1.rb = s.rb := by unfold fullBlockStep; split <;> rfl
@[simp] theorem State.fullBlockStep_outputCursor (s : State) : s.fullBlockStep.1.outputCursor = s.outputCursor := by unfold fullBlockStep; split <;> rfl
@[simp] theorem State.fullBlockStep_decConsumed (s : State) : s.fullBlockStep.1.decConsumed = s.decConsumed := by unfold fullBlockStep; split <;> rfl
@[simp] theorem State.fullBlockStep_decProduced (s : State) : s.fullBlockStep.1.decProduced = s.decProduced := by unfold fullBlockStep; split <;> rfl
@[simp] theorem State.fullBlockStep_result (s : State) : s.fullBlockStep.1.result = s.result := by unfold fullBlockStep; split <;> rfl
@[simp] theorem State.fullBlockStep_dest (s : State) : s.fullBlockStep.1.dest = s.dest := by unfold fullBlockStep; split <;> rfl
@[simp] theorem State.fullBlockStep_inSpan (s : State) : s.fullBlockStep.1.inSpan = s.inSpan := by unfold fullBlockStep; split <;> rfl
@[simp] theorem State.fullBlockStep_out (s : State) : s.fullBlockStep.1.out = s.out := by unfold fullBlockStep; split <;> rfl
@[simp] theorem State.fullBlockStep_port (s : State) : s.fullBlockStep.1.port = s.port := by unfold fullBlockStep; split <;> rfl

end Sys2Proof.Machine
end

