-- ==== Sys2Proof/Laws/Commands.lean ====
section
/-! SUPPORT. What each command and each step can do, said once: inversion lemmas that later proofs cite instead of
unfolding a meaning. -/

namespace Sys2Proof.Machine

/-! ## Commit -/

/-- A commit either writes the whole output list and goes on, or overflows the sink and writes nothing (R197). -/
theorem State.commit_cases (start work : State) (output : List Byte) (finish : State → State) :
    (start.fits output = true ∧ start.commit work output finish = finish (work.commitBytes output)) ∨
      (start.fits output = false ∧ start.commit work output finish = start.overflowSink work) := by
  unfold State.commit
  cases start.fits output <;> simp

theorem State.fits_iff (s : State) (output : List Byte) :
    s.fits output = true ↔ s.outputCursor.toNat + output.length ≤ s.config.sinkLimit := by
  simp [State.fits]

theorem sinkLimit_lt (c : Config) : c.sinkLimit < 2 ^ 64 := by
  unfold Config.sinkLimit
  omega

/-- The cursor after a commit that fits has not wrapped (R39, log 7). -/
theorem State.cursor_commitBytes (s : State) (output : List Byte) (h : s.fits output = true) :
    (s.outputCursor + BitVec.ofNat 64 output.length).toNat = s.outputCursor.toNat + output.length := by
  have h1 := (s.fits_iff output).1 h
  have h2 := sinkLimit_lt s.config
  rw [BitVec.toNat_add, BitVec.toNat_ofNat]
  omega

/-! ## The commands -/

/-- ADD answers a next state in every state; which one, in the order of its checks (R191, R193). -/
theorem execAdd_cases (nslots : BitVec 8) (slots : List Slot) (s : State) :
    (s.encState ≠ .opened ∧ execAdd nslots slots s = .next (s.raise .errSequence)) ∨
    (s.encState = .opened ∧ 128 < nslots.toNat ∧ execAdd nslots slots s = .next (s.raise .errBatchSize)) ∨
    (s.encState = .opened ∧ nslots.toNat ≤ 128 ∧
      s.totalValues.toNat < s.accepted + (chunkValues s.encW nslots slots).length ∧
      execAdd nslots slots s = .next (s.enterError.raise .errOvercount)) ∨
    (s.encState = .opened ∧ nslots.toNat ≤ 128 ∧
      s.accepted + (chunkValues s.encW nslots slots).length ≤ s.totalValues.toNat ∧
      execAdd nslots slots s =
        .next (s.commit (s.addWork (chunkValues s.encW nslots slots)).1
          (s.addWork (chunkValues s.encW nslots slots)).2 fun t => t.setResult .ok)) := by
  unfold execAdd
  by_cases h1 : s.encState = .opened
  · by_cases h2 : 128 < nslots.toNat
    · simp [h1, h2]
    · by_cases h3 : s.totalValues.toNat < s.accepted + (chunkValues s.encW nslots slots).length
      · simp [h1, h2, h3, Nat.not_lt.1 h2]
      · simp [h1, h2, h3, Nat.not_lt.1 h2, Nat.not_lt.1 h3]
  · simp [h1]

/-- What FINISH answers, in the order of its checks (R198, R200). -/
theorem execFinish_cases (s : State) :
    (s.encState ≠ .opened ∧ execFinish s = .next (s.raise .errSequence)) ∨
    (s.encState = .opened ∧ s.accepted < s.totalValues.toNat ∧
      execFinish s = .next (s.enterError.raise .errUndercount)) ∨
    (s.encState = .opened ∧ s.totalValues.toNat ≤ s.accepted ∧ 0 < s.pendingCount.toNat ∧
      s.flushable s.pendingCount.toNat = false ∧ execFinish s = .fault .flushOperand) ∨
    (s.encState = .opened ∧ s.totalValues.toNat ≤ s.accepted ∧
      (0 < s.pendingCount.toNat → s.flushable s.pendingCount.toNat = true) ∧
      execFinish s = .next (s.commit s.finishWork.1 s.finishWork.2
        fun t => t.closeSession.setResult .ok)) := by
  unfold execFinish
  by_cases h1 : s.encState = .opened
  · by_cases h2 : s.accepted < s.totalValues.toNat
    · simp [h1, h2]
    · by_cases h3 : 0 < s.pendingCount.toNat ∧ s.flushable s.pendingCount.toNat = false
      · simp [h1, h2, h3, Nat.not_lt.1 h2]
      · have h4 : 0 < s.pendingCount.toNat → s.flushable s.pendingCount.toNat = true := by
          intro hp
          by_contra hc
          exact h3 ⟨hp, by simpa using hc⟩
        refine Or.inr (Or.inr (Or.inr ⟨h1, Nat.not_lt.1 h2, h4, ?_⟩))
        rw [if_neg (by simp [h1]), if_neg h2, if_neg h3]
  · simp [h1]

/-- IN stays in canonical form where its binding stays and DEST keeps the form: what a bound IN reads is DEST. -/
theorem State.inMem_wf {s t : State} (hi : t.inSpan = s.inSpan) (hd : t.dest.wf = true) (hs : s.inMem.wf = true) :
    t.inMem.wf = true := by
  unfold State.inMem at hs ⊢
  rw [hi]
  cases h : s.inSpan with
  | supplied bytes => simpa [h] using hs
  | boundToDest => exact hd

/-- Which launches of DECODE are refused, and which not (R296 (b), (d)). -/
theorem State.launchRefusal_cases (s : State) (width : ValueWidth) :
    (s.inSpan = .boundToDest ∧ s.encState ≠ .finished ∧ s.launchRefusal width = some .overlapUnsaid) ∨
    (s.inSpan = .boundToDest ∧ s.encState = .finished ∧ s.encW ≠ width ∧
      s.launchRefusal width = some .widthUnsaid) ∨
    ((s.inSpan ≠ .boundToDest ∨ s.encState = .finished ∧ s.encW = width) ∧ s.launchRefusal width = none) := by
  unfold State.launchRefusal
  cases s.inSpan with
  | supplied bytes => simp
  | boundToDest => by_cases h1 : s.encState = .finished <;> by_cases h2 : s.encW = width <;> simp [h1, h2]

/-- DECODE is refused exactly where `launchRefusal` says so, and answers a next state otherwise (R240, R245). -/
theorem execDecode_cases (width : ValueWidth) (total len : Word) (s : State) :
    (∃ r, s.launchRefusal width = some r ∧ execDecode width total len s = .refused r) ∨
    (∃ e, s.launchRefusal width = none ∧ decodeStream width.bits s.inMem.read len.toNat total = .error e ∧
      execDecode width total len s = .next (s.decodeFailed width total e)) ∨
    (∃ c vs, s.launchRefusal width = none ∧ decodeStream width.bits s.inMem.read len.toNat total = .ok (c, vs) ∧
      execDecode width total len s = .next (s.decodeDone c vs)) := by
  unfold execDecode
  cases hr : s.launchRefusal width with
  | some r => exact Or.inl ⟨r, rfl, rfl⟩
  | none =>
    cases decodeStream width.bits s.inMem.read len.toNat total with
    | error e => exact Or.inr (Or.inl ⟨e, rfl, rfl, rfl⟩)
    | ok p => exact Or.inr (Or.inr ⟨p.1, p.2, rfl, rfl, rfl⟩)

/-! ## The step -/

theorem step_idle {s : State} (h : s.port = []) : step s = .next s := by simp [step, h]

theorem step_command {s : State} {c : Command} {rest : List HostAction} (h : s.port = .command c :: rest) :
    step s = match decode c with
      | .ok i => exec i (s.withPort rest)
      | .error _ => .next (s.withPort rest).illegalCommand := by
  cases hd : decode c <;> simp [step, h, hd]

theorem step_provideIn {s : State} {bytes : List Byte} {rest : List HostAction}
    (h : s.port = .provideIn bytes :: rest) : step s = .next ((s.withPort rest).supplySpan bytes) := by
  simp [step, h]

theorem step_bindInToDest {s : State} {rest : List HostAction} (h : s.port = .bindInToDest :: rest) :
    step s = hostBindIn (s.withPort rest) := by
  simp [step, h]

/-- Everything a step that answers a next state can have done. -/
theorem step_cases {s t : State} (h : step s = .next t) :
    (s.port = [] ∧ t = s) ∨
    (∃ c rest i, s.port = .command c :: rest ∧ decode c = .ok i ∧ exec i (s.withPort rest) = .next t) ∨
    (∃ c rest e, s.port = .command c :: rest ∧ decode c = .error e ∧ t = (s.withPort rest).illegalCommand) ∨
    (∃ bytes rest, s.port = .provideIn bytes :: rest ∧ t = (s.withPort rest).supplySpan bytes) ∨
    (∃ rest, s.port = .bindInToDest :: rest ∧ s.encState = .finished ∧ t = (s.withPort rest).bindSpan) := by
  cases hp : s.port with
  | nil =>
    rw [step_idle hp] at h
    injection h with h
    exact Or.inl ⟨rfl, h.symm⟩
  | cons a rest =>
    cases a with
    | command c =>
      rw [step_command hp] at h
      cases hd : decode c with
      | ok i =>
        rw [hd] at h
        exact Or.inr (Or.inl ⟨c, rest, i, rfl, hd, h⟩)
      | error e =>
        rw [hd] at h
        injection h with h
        exact Or.inr (Or.inr (Or.inl ⟨c, rest, e, rfl, hd, h.symm⟩))
    | provideIn bytes =>
      rw [step_provideIn hp] at h
      injection h with h
      exact Or.inr (Or.inr (Or.inr (Or.inl ⟨bytes, rest, rfl, h.symm⟩)))
    | bindInToDest =>
      rw [step_bindInToDest hp] at h
      unfold hostBindIn at h
      split at h
      · rename_i hf
        injection h with h
        exact Or.inr (Or.inr (Or.inr (Or.inr ⟨rest, rfl, by simpa using hf, h.symm⟩)))
      · cases h

end Sys2Proof.Machine
end

