-- ==== Sys2Proof/Laws/Varint.lean ====
section
/-! SUPPORT. The laws of the varint primitives: one unfolding per case, lengths, and what a decode that succeeds has
read. -/

namespace Sys2Proof.Machine

@[simp] theorem varintMaxLen_32 : varintMaxLen 32 = 5 := rfl
@[simp] theorem varintMaxLen_64 : varintMaxLen 64 = 10 := rfl

theorem uvarintGroups_last {k v : Nat} (h : v < 0x80) : uvarintGroups k v = [BitVec.ofNat 8 v] := by
  cases k with
  | zero => rfl
  | succ k => simp [uvarintGroups, Nat.not_le.2 h]

theorem uvarintGroups_more {k v : Nat} (h : 0x80 ≤ v) :
    uvarintGroups (k + 1) v = BitVec.ofNat 8 (v % 0x80 + 0x80) :: uvarintGroups k (v / 0x80) := by
  simp [uvarintGroups, h]

theorem uvarintGroups_length_pos (k v : Nat) : 0 < (uvarintGroups k v).length := by
  cases k with
  | zero => simp [uvarintGroups]
  | succ k => unfold uvarintGroups; split <;> simp

theorem uvarintGroups_length_le (k v : Nat) : (uvarintGroups k v).length ≤ k + 1 := by
  induction k generalizing v with
  | zero => simp [uvarintGroups]
  | succ k ih =>
    by_cases h : 0x80 ≤ v
    · rw [uvarintGroups_more h, List.length_cons]
      have := ih (v / 0x80)
      omega
    · rw [uvarintGroups_last (by omega)]
      simp

/-- What the loop does on any span, from group `i` with value `v` so far, where the next `k` bytes continue (R116): the
span ends there, or the varint ends there with the value of its groups, or its last group is too large. -/
theorem uvarintLoop_cases (rd : Nat → Byte) (len n m k i c v : Nat)
    (hc : ∀ a < k, c + a < len ∧ (rd (c + a)).getLsbD 7 = true) (hk : k < m) (hv : v < 2 ^ (7 * i)) :
    (len ≤ c + k → uvarintLoop rd len n m i c v = .error .truncated) ∧
    (c + k < len → (rd (c + k)).getLsbD 7 = false →
      (k + 1 = m → ((rd (c + k)).toNat % 128) >>> (n - 7 * (i + k)) = 0) →
      uvarintLoop rd len n m i c v =
        .ok (BitVec.ofNat n (v + 128 ^ i *
          ((Finset.range (k + 1)).sum fun a => (rd (c + a)).toNat % 128 * 128 ^ a)), c + k + 1)) ∧
    (c + k < len → k + 1 = m →
      ((rd (c + k)).getLsbD 7 = true ∨ ((rd (c + k)).toNat % 128) >>> (n - 7 * (i + k)) ≠ 0) →
      uvarintLoop rd len n m i c v = .error .varintOverflow) := by
  induction m generalizing k i c v with
  | zero => omega
  | succ m ih =>
    have hg : ((rd c).extractLsb' 0 7).toNat = (rd c).toNat % 128 := by simp [BitVec.extractLsb'_toNat]
    have hor : v ||| ((rd c).toNat % 128) <<< (7 * i) = v + 128 ^ i * ((rd c).toNat % 128) := by
      rw [Nat.or_comm, ← Nat.shiftLeft_add_eq_or_of_lt hv, Nat.shiftLeft_eq, Nat.pow_mul, Nat.add_comm,
        Nat.mul_comm (_ % _)]
    cases k with
    | zero =>
      simp only [Nat.zero_add, Finset.sum_range_one, Nat.add_zero, pow_zero, Nat.mul_one]
      refine ⟨fun h => by simp [uvarintLoop, h], fun h1 h2 h3 => ?_, fun h1 h2 h3 => ?_⟩
      · simp only [uvarintLoop, if_neg (show ¬ len ≤ c by omega), hg, h2, hor]
        by_cases hm : m = 0
        · simp [hm, h3 (by omega)]
        · simp [hm]
      · obtain rfl : m = 0 := by omega
        simp only [uvarintLoop, if_neg (show ¬ len ≤ c by omega), hg]
        rcases h3 with h3 | h3 <;> simp [h3]
    | succ k =>
      have h0 := hc 0 (by omega)
      simp only [Nat.add_zero] at h0
      have hstep : uvarintLoop rd len n (m + 1) i c v =
          uvarintLoop rd len n m (i + 1) (c + 1) (v + 128 ^ i * ((rd c).toNat % 128)) := by
        conv_lhs => rw [uvarintLoop]
        simp only [if_neg (show ¬ len ≤ c by omega), hg, h0.2, hor]
        simp [show m ≠ 0 by omega]
      have hrest := ih k (i + 1) (c + 1) (v + 128 ^ i * ((rd c).toNat % 128))
        (fun a ha => by rw [show c + 1 + a = c + (a + 1) by omega]; exact hc (a + 1) (by omega)) (by omega)
        (by
          have h2 : 128 ^ i = 2 ^ (7 * i) := by rw [Nat.pow_mul]
          have h3 := Nat.mul_le_mul_left (128 ^ i) (show (rd c).toNat % 128 ≤ 127 by omega)
          rw [show 7 * (i + 1) = 7 * i + 7 by omega, Nat.pow_add]
          omega)
      have hs : v + 128 ^ i * ((rd c).toNat % 128) + 128 ^ (i + 1) *
            ((Finset.range (k + 1)).sum fun a => (rd (c + 1 + a)).toNat % 128 * 128 ^ a) =
          v + 128 ^ i * ((Finset.range (k + 1 + 1)).sum fun a => (rd (c + a)).toNat % 128 * 128 ^ a) := by
        conv_rhs => rw [Finset.sum_range_succ']
        simp only [Nat.add_zero, pow_zero, Nat.mul_one]
        rw [Nat.mul_add, Finset.mul_sum, Finset.mul_sum, Nat.add_assoc, Nat.add_comm (128 ^ i * _)]
        congr 2
        refine Finset.sum_congr rfl fun a _ => ?_
        rw [show c + 1 + a = c + (a + 1) by omega]
        ring
      simp only [hs] at hrest
      rw [hstep, show c + (k + 1) = c + 1 + k by omega, show i + (k + 1) = i + 1 + k by omega]
      exact ⟨hrest.1, fun a b d => hrest.2.1 a b fun e => d (by omega), fun a b d => hrest.2.2 a (by omega) d⟩

/-- A decode that succeeds has read at least one byte of the span, none past its end, and at most as many as it may. -/
theorem uvarintLoop_bounds {rd : Nat → Byte} {len n k i c v : Nat} {r : BitVec n} {c' : Nat}
    (h : uvarintLoop rd len n k i c v = .ok (r, c')) : c < c' ∧ c' ≤ len ∧ c' ≤ c + k := by
  induction k generalizing i c v with
  | zero => simp [uvarintLoop] at h
  | succ k ih =>
    unfold uvarintLoop at h
    split at h
    · cases h
    · rename_i hc
      simp only at h
      split at h
      · cases h
      · split at h
        · cases h
        · split at h
          · obtain ⟨h1, h2, h3⟩ := ih h
            exact ⟨by omega, h2, by omega⟩
          · injection h with h
            injection h with _ h
            exact ⟨by omega, by omega, by omega⟩

/-- A decode depends only on the bytes of the span from its cursor on. -/
theorem uvarintLoop_congr {rd rd' : Nat → Byte} {len n k i c v : Nat}
    (h : ∀ a, c ≤ a → a < len → rd a = rd' a) :
    uvarintLoop rd len n k i c v = uvarintLoop rd' len n k i c v := by
  induction k generalizing i c v with
  | zero => rfl
  | succ k ih =>
    unfold uvarintLoop
    by_cases hc : len ≤ c
    · rw [if_pos hc, if_pos hc]
    · have ih' := fun v => ih (i := i + 1) (c := c + 1) (v := v) fun a ha hl => h a (by omega) hl
      simp only [if_neg hc, h c le_rfl (by omega), ih']

theorem uvarintDec_bounds {rd : Nat → Byte} {len n c : Nat} {r : BitVec n} {c' : Nat}
    (h : uvarintDec rd len n c = .ok (r, c')) : c < c' ∧ c' ≤ len ∧ c' ≤ c + varintMaxLen n :=
  uvarintLoop_bounds h

theorem zzvarintDec_eq (rd : Nat → Byte) (len w c : Nat) :
    zzvarintDec rd len w c = (uvarintDec rd len w c).map fun p => (unzigzag p.1, p.2) := by
  unfold zzvarintDec
  cases uvarintDec rd len w c <;> rfl

theorem zzvarintDec_bounds {rd : Nat → Byte} {len w c : Nat} {r : BitVec w} {c' : Nat}
    (h : zzvarintDec rd len w c = .ok (r, c')) : c < c' ∧ c' ≤ len ∧ c' ≤ c + varintMaxLen w := by
  unfold zzvarintDec at h
  cases hu : uvarintDec rd len w c with
  | error e => rw [hu] at h; cases h
  | ok p =>
    rw [hu] at h
    injection h with h
    injection h with _ h
    subst h
    exact uvarintDec_bounds hu

end Sys2Proof.Machine
end

