-- ==== Sys2Proof/Laws/Decoder.lean ====
section
/-! SUPPORT. The laws of the decoder's shared steps: what each one that succeeds has done. -/

namespace Sys2Proof.Machine

@[simp] theorem reconstruct_length {W : Nat} (bmin run : BitVec W) (norms : List (BitVec W)) :
    (reconstruct bmin run norms).length = norms.length := by
  induction norms generalizing run with
  | nil => rfl
  | cons v vs ih => simp [reconstruct, ih]

/-- Each reconstructed value is the one before it plus its delta (R244). -/
theorem reconstruct_getElem? {W : Nat} (bmin run : BitVec W) (norms : List (BitVec W)) (j : Nat)
    (h : j < norms.length) :
    (reconstruct bmin run norms)[j]? =
      some ((if j = 0 then run else (reconstruct bmin run norms).getD (j - 1) 0) + (norms[j] + bmin)) := by
  induction norms generalizing run j with
  | nil => simp at h
  | cons v vs ih =>
    cases j with
    | zero => simp [reconstruct]
    | succ j =>
      simp only [reconstruct, List.getElem?_cons_succ, List.getElem_cons_succ]
      rw [ih _ j (by simpa using h)]
      cases j <;> simp

/-- The width bytes, when all of them lie in the span. -/
theorem readWidths_ok (rd : Nat → Byte) (len k c : Nat) (h : c + k ≤ len) :
    readWidths rd len k c = .ok ((List.range k).map fun m => (rd (c + m)).toNat, c + k) := by
  induction k generalizing c with
  | zero => rfl
  | succ k ih =>
    rw [readWidths, if_neg (by omega), ih (c + 1) (by omega)]
    simp [List.range_succ_eq_map, Function.comp_def, Nat.add_assoc, Nat.add_comm 1]

/-- The span ends inside the width bytes. -/
theorem readWidths_truncated (rd : Nat → Byte) (len k c : Nat) (h : len < c + k) (hc : c ≤ len) :
    readWidths rd len k c = .error .truncated := by
  induction k generalizing c with
  | zero => omega
  | succ k ih =>
    rw [readWidths]
    by_cases hc' : len ≤ c
    · rw [if_pos hc']
    · rw [if_neg hc', ih (c + 1) (by omega) (by omega)]

/-- One mini-block with no value left takes no byte, whatever its width (R243). -/
theorem decodeMiniBlocks_none {W : Nat} {rd : Nat → Byte} {len t : Nat} {bmin : BitVec W} {wd : Nat}
    {wds : List Nat} {p : Progress W} (h : t ≤ p.values.length) :
    decodeMiniBlocks rd len t bmin (wd :: wds) p = decodeMiniBlocks rd len t bmin wds p := by
  have : t - p.values.length = 0 := by omega
  simp [decodeMiniBlocks, this]

/-- One mini-block with values left takes `4 × wd` bytes of the span or fails (R243). -/
theorem decodeMiniBlocks_some {W : Nat} {rd : Nat → Byte} {len t : Nat} {bmin : BitVec W} {wd : Nat}
    {wds : List Nat} {p : Progress W} (h : p.values.length < t) :
    decodeMiniBlocks rd len t bmin (wd :: wds) p =
      if len < p.c + 4 * wd then .error .truncated
      else decodeMiniBlocks rd len t bmin wds
        ⟨p.c + 4 * wd,
          (reconstruct bmin p.run (unpack W (min 32 (t - p.values.length)) wd rd p.c)).getLastD p.run,
          p.values ++ reconstruct bmin p.run (unpack W (min 32 (t - p.values.length)) wd rd p.c)⟩ := by
  have : min 32 (t - p.values.length) ≠ 0 := by omega
  simp only [decodeMiniBlocks, Config.valuesPerMiniBlock, this, if_false]

/-- How many values the mini-blocks of a block add: 32 each while values are left. -/
theorem decodeMiniBlocks_count {W : Nat} {rd : Nat → Byte} {len t : Nat} {bmin : BitVec W} {wds : List Nat}
    {p q : Progress W} (h : decodeMiniBlocks rd len t bmin wds p = .ok q) (hp : p.values.length ≤ t) :
    q.values.length = min t (p.values.length + 32 * wds.length) ∧ p.c ≤ q.c ∧ (q.c = p.c ∨ q.c ≤ len) := by
  induction wds generalizing p with
  | nil =>
    rw [decodeMiniBlocks] at h
    injection h with h
    subst h
    simp [hp]
  | cons wd wds ih =>
    by_cases hlt : p.values.length < t
    · rw [decodeMiniBlocks_some hlt] at h
      split at h
      · cases h
      · have := ih h (by simp; omega)
        simp only [List.length_append, reconstruct_length, unpack_length, List.length_cons] at this ⊢
        omega
    · rw [decodeMiniBlocks_none (by omega)] at h
      have := ih h hp
      simp only [List.length_cons]
      omega

/-- A block that decodes has read its header, and its mini-blocks add up to 128 values (R242, R243). -/
theorem decodeBlock_count {W : Nat} {rd : Nat → Byte} {len t : Nat} {p q : Progress W}
    (h : decodeBlock rd len t p = .ok q) (hp : p.values.length ≤ t) :
    q.values.length = min t (p.values.length + 128) ∧ p.c + 5 ≤ q.c ∧ q.c ≤ len := by
  unfold decodeBlock at h
  cases hz : zzvarintDec rd len W p.c with
  | error e => rw [hz] at h; cases h
  | ok r =>
    rw [hz] at h
    have hb := zzvarintDec_bounds (r := r.1) (c' := r.2) hz
    by_cases hl : r.2 + 4 ≤ len
    · simp only [Config.numMiniBlocks, readWidths_ok rd len 4 r.2 hl] at h
      split at h
      · cases h
      · have := decodeMiniBlocks_count h hp
        simp only [List.length_map, List.length_range] at this
        omega
    · simp only [Config.numMiniBlocks, readWidths_truncated rd len 4 r.2 (by omega) hb.2.1] at h
      cases h

/-- The bound on the turns of the block loop is never what ends it: after `k` turns either all `t` values are there
or 128 more per turn (R240, log 18). -/
theorem decodeBlocks_count {W : Nat} {rd : Nat → Byte} {len t k : Nat} {p q : Progress W}
    (h : decodeBlocks rd len t k p = .ok q) (hp : p.values.length ≤ t) :
    q.values.length = min t (p.values.length + 128 * k) ∧ p.c ≤ q.c ∧ (q.c = p.c ∨ q.c ≤ len) := by
  induction k generalizing p with
  | zero =>
    rw [decodeBlocks] at h
    injection h with h
    subst h
    simp [hp]
  | succ k ih =>
    rw [decodeBlocks] at h
    split at h
    · injection h with h
      subst h
      refine ⟨?_, le_rfl, Or.inl rfl⟩
      omega
    · cases hb : decodeBlock rd len t p with
      | error e => rw [hb] at h; cases h
      | ok p' =>
        rw [hb] at h
        have h1 := decodeBlock_count hb hp
        have h2 := ih h (by omega)
        omega

/-- Turns past those that are enough change nothing (R240, log 18). -/
theorem decodeBlocks_turns {W : Nat} {rd : Nat → Byte} {len t k j : Nat} {p : Progress W}
    (h : t ≤ p.values.length + k) (hj : k ≤ j) (hp : p.values.length ≤ t) :
    decodeBlocks rd len t j p = decodeBlocks rd len t k p := by
  induction k generalizing j p with
  | zero =>
    cases j with
    | zero => rfl
    | succ j => simp [decodeBlocks, show t ≤ p.values.length by omega]
  | succ k ih =>
    obtain ⟨j, rfl⟩ : ∃ i, j = i + 1 := ⟨j - 1, by omega⟩
    simp only [decodeBlocks]
    split
    · rfl
    · cases hb : decodeBlock rd len t p with
      | error e => rfl
      | ok q =>
        have := decodeBlock_count hb hp
        exact ih (by omega) (by omega) (by omega)

end Sys2Proof.Machine
end

