-- ==== Sys2Proof/Laws/Encoder.lean ====
section
/-! SUPPORT. The laws of the streaming encoder's shared steps: the rolling buffer, the header step, the full-block
step, and what ADD and FINISH do to the counts. -/

namespace Sys2Proof.Machine

/-! ## The rolling buffer -/

@[simp] theorem rbStore_nil (rb : Vector Word 256) (p : Nat) : rbStore rb p [] = rb := rfl

/-- An entry that none of the positions written falls on is unchanged. -/
theorem rbStore_other (rb : Vector Word 256) (p : Nat) (vals : List Word) (j : Nat) (hj : j < 256)
    (h : ∀ i < vals.length, (p + i) % 256 ≠ j) : (rbStore rb p vals)[j] = rb[j] := by
  induction vals generalizing rb p with
  | nil => rfl
  | cons v vs ih =>
    rw [rbStore, ih]
    · rw [Vector.getElem_set]
      exact if_neg (by simpa using h 0 (by simp))
    · intro i hi
      have := h (i + 1) (by simpa using hi)
      rwa [show p + 1 + i = p + (i + 1) by omega]

/-- The value of position `p + i` stands at `(p + i) mod 256`, for at most 256 values (R37, R196). -/
theorem rbStore_get (rb : Vector Word 256) (p : Nat) (vals : List Word) (hlen : vals.length ≤ 256) (i : Nat)
    (hi : i < vals.length) : (rbStore rb p vals)[(p + i) % 256]'(Nat.mod_lt _ (by decide)) = vals[i] := by
  induction vals generalizing rb p i with
  | nil => exact absurd hi (by simp)
  | cons v vs ih =>
    rw [rbStore]
    cases i with
    | zero =>
      rw [rbStore_other]
      · simp
      · intro k hk
        simp only [List.length_cons] at hlen
        omega
    | succ i =>
      have := ih (rb.set (p % 256) v (Nat.mod_lt _ (by decide))) (p + 1) (by simp at hlen; omega) i
        (by simpa using hi)
      simp only [show p + (i + 1) = p + 1 + i by omega, List.getElem_cons_succ]
      exact this

theorem chunkValues_length_le (w : ValueWidth) (n : BitVec 8) (slots : List Slot) :
    (chunkValues w n slots).length ≤ n.toNat := by
  unfold chunkValues validValues readSlots
  rw [List.length_map]
  exact (List.length_filter_le _ _).trans (List.length_take_le _ _)

/-! ## The header step and the full-block step -/

theorem State.headerStep_taken {s : State} (h1 : s.logicalIndex = 0) (h2 : 1 ≤ s.pendingCount.toNat) :
    s.headerStep = (s.takeHeader, streamHeader s.totalValues (s.rbValue 0)) := by
  unfold State.headerStep
  rw [if_pos ⟨h1, h2⟩]

theorem State.headerStep_not {s : State} (h : s.logicalIndex ≠ 0 ∨ s.pendingCount.toNat = 0) :
    s.headerStep = (s, []) := by
  unfold State.headerStep
  rw [if_neg]
  rintro ⟨h1, h2⟩
  rcases h with h | h
  · exact h h1
  · omega

theorem State.fullBlockStep_taken {s : State} (h : 128 ≤ s.pendingCount.toNat) :
    s.fullBlockStep = s.flush 128 := by
  unfold State.fullBlockStep
  rw [if_pos h]

theorem State.fullBlockStep_not {s : State} (h : s.pendingCount.toNat < 128) : s.fullBlockStep = (s, []) := by
  unfold State.fullBlockStep
  rw [if_neg (Nat.not_le.2 h)]

theorem State.pending_appendValues {s : State} {vals : List Word} (h : s.pendingCount.toNat + vals.length < 512) :
    (s.appendValues vals).pendingCount.toNat = s.pendingCount.toNat + vals.length := by
  rw [State.appendValues_pendingCount, BitVec.toNat_add, BitVec.toNat_ofNat]
  omega

theorem State.afterFlush_pending {s : State} {n : Nat} (h : n ≤ s.pendingCount.toNat) :
    (s.afterFlush n).pendingCount.toNat = s.pendingCount.toNat - n := by
  have := s.pendingCount.isLt
  rw [State.afterFlush_pendingCount, BitVec.toNat_sub, BitVec.toNat_ofNat]
  omega

theorem State.afterFlush_logical {s : State} {n : Nat} (h : s.logicalIndex.toNat + n < 2 ^ 64) :
    (s.afterFlush n).logicalIndex.toNat = s.logicalIndex.toNat + n := by
  rw [State.afterFlush_logicalIndex, BitVec.toNat_add, BitVec.toNat_ofNat]
  omega

theorem State.addWork_of_headerStep {s u : State} {vals : List Word} {out : List Byte}
    (h : (s.appendValues vals).headerStep = (u, out)) :
    s.addWork vals = (u.fullBlockStep.1, out ++ u.fullBlockStep.2) := by
  simp only [State.addWork, h]

/-- The registers ADD's work does not touch before its commit. -/
theorem State.addWork_frame (s : State) (vals : List Word) :
    (s.addWork vals).1.config = s.config ∧ (s.addWork vals).1.encState = s.encState ∧
    (s.addWork vals).1.encW = s.encW ∧ (s.addWork vals).1.totalValues = s.totalValues ∧
    (s.addWork vals).1.rb = rbStore s.rb s.accepted vals ∧
    (s.addWork vals).1.outputCursor = s.outputCursor ∧ (s.addWork vals).1.decConsumed = s.decConsumed ∧
    (s.addWork vals).1.decProduced = s.decProduced ∧ (s.addWork vals).1.result = s.result ∧
    (s.addWork vals).1.dest = s.dest ∧ (s.addWork vals).1.inSpan = s.inSpan ∧
    (s.addWork vals).1.out = s.out ∧ (s.addWork vals).1.port = s.port := by
  simp [State.addWork]

/-- The three things ADD's work can be: only buffering; the stream header (R194); a full block (R195). The first
ADD that carries a value never flushes (R196). -/
theorem State.addWork_cases (s : State) (vals : List Word) (hp : s.pendingCount.toNat ≤ 127)
    (hlp : s.logicalIndex = 0 → s.pendingCount = 0) (hv : vals.length ≤ 128) :
    ((s.logicalIndex ≠ 0 ∨ vals = []) ∧ s.pendingCount.toNat + vals.length < 128 ∧
      s.addWork vals = (s.appendValues vals, [])) ∨
    (s.logicalIndex = 0 ∧ vals ≠ [] ∧
      s.addWork vals = ((s.appendValues vals).takeHeader,
        streamHeader s.totalValues ((s.appendValues vals).rbValue 0))) ∨
    (s.logicalIndex ≠ 0 ∧ 128 ≤ s.pendingCount.toNat + vals.length ∧
      s.addWork vals = (s.appendValues vals).flush 128) := by
  have hpa := State.pending_appendValues (s := s) (vals := vals) (by omega)
  by_cases hL : s.logicalIndex = 0
  · have hp0 : s.pendingCount.toNat = 0 := by simp [hlp hL]
    cases vals with
    | nil =>
      have h0 : (s.appendValues []).pendingCount.toNat = 0 := by rw [hpa, hp0, List.length_nil]
      refine Or.inl ⟨Or.inr rfl, by rw [hp0, List.length_nil]; omega, ?_⟩
      rw [State.addWork_of_headerStep (State.headerStep_not (Or.inr h0)), State.fullBlockStep_not (by omega)]
      rw [List.nil_append]
    | cons v vs =>
      have h1 : (s.appendValues (v :: vs)).pendingCount.toNat = vs.length + 1 := by
        rw [hpa, hp0, List.length_cons, Nat.zero_add]
      have hlt : vs.length + 1 ≤ 128 := hv
      have h2 : (s.appendValues (v :: vs)).takeHeader.pendingCount.toNat < 128 := by
        rw [State.takeHeader_pendingCount, BitVec.toNat_sub, h1, show (1 : BitVec 9).toNat = 1 from rfl]
        omega
      refine Or.inr (Or.inl ⟨hL, List.cons_ne_nil v vs, ?_⟩)
      rw [State.addWork_of_headerStep (State.headerStep_taken (by rw [State.appendValues_logicalIndex, hL])
        (by omega)), State.fullBlockStep_not h2]
      rw [List.append_nil, State.appendValues_totalValues]
  · have hL' : (s.appendValues vals).logicalIndex ≠ 0 := by rwa [State.appendValues_logicalIndex]
    by_cases hb : s.pendingCount.toNat + vals.length < 128
    · refine Or.inl ⟨Or.inl hL, hb, ?_⟩
      rw [State.addWork_of_headerStep (State.headerStep_not (Or.inl hL')), State.fullBlockStep_not (by omega)]
      rw [List.nil_append]
    · refine Or.inr (Or.inr ⟨hL, by omega, ?_⟩)
      rw [State.addWork_of_headerStep (State.headerStep_not (Or.inl hL')), State.fullBlockStep_taken (by omega)]
      rw [List.nil_append]

/-- FINISH's work: nothing; the header of an empty stream (R199); the last block (R200). -/
theorem State.finishWork_cases (s : State) :
    (s.pendingCount.toNat = 0 ∧ s.finishWork = (s, if s.logicalIndex = 0 then
      streamHeader s.totalValues (0 : BitVec s.sessionBits) else [])) ∨
    (0 < s.pendingCount.toNat ∧ s.finishWork = (s.afterFlush s.pendingCount.toNat,
      (if s.logicalIndex = 0 then streamHeader s.totalValues (0 : BitVec s.sessionBits) else [])
        ++ blockBytes s.rbValue s.logicalIndex.toNat s.pendingCount.toNat)) := by
  unfold State.finishWork
  by_cases h : 0 < s.pendingCount.toNat
  · exact Or.inr ⟨h, by simp [h, State.flush]⟩
  · exact Or.inl ⟨by omega, by simp [h]⟩

theorem State.flushable_iff (s : State) (n : Nat) : s.flushable n = true ↔
    1 ≤ n ∧ n ≤ 128 ∧ n ≤ s.pendingCount.toNat ∧ 1 ≤ s.logicalIndex.toNat := by
  simp [State.flushable]

/-- What FINISH's work leaves alone before its commit. -/
theorem State.finishWork_frame (s : State) :
    s.finishWork.1.config = s.config ∧ s.finishWork.1.encState = s.encState ∧ s.finishWork.1.encW = s.encW ∧
    s.finishWork.1.totalValues = s.totalValues ∧ s.finishWork.1.rb = s.rb ∧
    s.finishWork.1.outputCursor = s.outputCursor ∧ s.finishWork.1.decConsumed = s.decConsumed ∧
    s.finishWork.1.decProduced = s.decProduced ∧ s.finishWork.1.result = s.result ∧
    s.finishWork.1.dest = s.dest ∧ s.finishWork.1.inSpan = s.inSpan ∧ s.finishWork.1.out = s.out ∧
    s.finishWork.1.port = s.port := by
  rcases s.finishWork_cases with ⟨-, h⟩ | ⟨-, h⟩ <;> rw [h] <;> simp

/-! ## Lengths -/

/-- A header has at least five bytes (R91). -/
theorem streamHeader_length_ge {W : Nat} (total : Word) (f : BitVec W) : 5 ≤ (streamHeader total f).length := by
  have h1 : (uvarintEnc 64 (BitVec.ofNat 64 Config.blockSize)).length = 2 := by decide
  have h2 : (uvarintEnc 64 (BitVec.ofNat 64 Config.numMiniBlocks)).length = 1 := by decide
  have h3 := uvarintGroups_length_pos (varintMaxLen 64) total.toNat
  have h4 := uvarintGroups_length_pos (varintMaxLen W) (zigzag f).toNat
  unfold streamHeader zzvarintEnc
  rw [List.length_append, List.length_append, List.length_append, h1, h2]
  unfold uvarintEnc
  omega

/-- The real normalized deltas of a mini-block, by their slots (R165). -/
theorem miniValues_toNat {W : Nat} (v : Nat → BitVec W) (L n m : Nat) (hn : n ≤ 128) :
    (miniValues n (blockNorms n (blockDeltas v L n)) m).map (·.toNat) =
      (List.range (miniCount n m)).map fun i =>
        ((blockNorms n (blockDeltas v L n)).getD (32 * m + i) 0).toNat := by
  have hl : (blockNorms n (blockDeltas v L n)).length = 128 := by
    simp [blockNorms, blockDeltas]
    omega
  apply List.ext_getElem
  · simp [miniValues, hl, miniCount]
    omega
  · intro i h1 h2
    have hi : i < miniCount n m := by simpa using h2
    have : 32 * m + i < 128 := by
      unfold miniCount at hi
      simp at hi
      omega
    simp only [List.getElem_map, List.getElem_range, miniValues, List.getElem_take, List.getElem_drop,
      Config.valuesPerMiniBlock]
    rw [List.getD_eq_getElem _ _ (by omega)]

end Sys2Proof.Machine
end

