-- ==== Sys2Proof/Laws/PerInstr.lean ====
section
/-! SUPPORT. Statements made once per instruction. Family TableRow: the CMD word of an instruction has the fixed bits
of its row of spec/opcode_table.json and no other row's (R85). -/

namespace Sys2Proof.Laws

/-- The rows of the opcode table whose mask and match bits a CMD word has, in the table's order (R85). -/
def rowsMatched (cmd : BitVec 32) : List Bool :=
  [cmd &&& 0xFFFEFFFF == 0x00000001, cmd &&& 0xFFFF00FF == 0x00000002,
   cmd &&& 0xFFFFFFFF == 0x00000003, cmd &&& 0xFFFEFFFF == 0x00000004]

/-- The row of an instruction (R84). -/
def rowOf : Instr → List Bool
  | .init _ _ => [true, false, false, false]
  | .add _ _ => [false, true, false, false]
  | .finish => [false, false, true, false]
  | .decode _ _ _ => [false, false, false, true]

namespace TableRow

/-- The CMD word of the instruction matches its own row, and no other (R85). -/
def Statement (i : Instr) : Prop := rowsMatched (encodeCmd i) = rowOf i

theorem init (width : ValueWidth) (total : Word) : Statement (.init width total) := by
  cases width <;> simp only [Statement, rowOf, encodeCmd] <;> decide

theorem add (nslots : BitVec 8) (slots : List Slot) : Statement (.add nslots slots) := by
  have h : ∀ n : BitVec 8, rowsMatched (cmdWord 0 0 n 0x02) = [false, true, false, false] := by decide +kernel
  exact h nslots

theorem finish : Statement .finish := by
  simp only [Statement, rowOf, encodeCmd]
  decide

theorem decode (width : ValueWidth) (total len : Word) : Statement (.decode width total len) := by
  cases width <;> simp only [Statement, rowOf, encodeCmd] <;> decide

end TableRow
end Sys2Proof.Laws
end

