-- ==== Sys2Proof/Tests/Slice0.lean ====
section
/-! SUPPORT. The model's own tests. Expected values come from the vectors of spec/95_test_vectors.md and the worked
examples of the rules named; the witness theorems show that the hypotheses of the statements can be met. -/

namespace Sys2Proof.Machine.Tests

set_option Elab.async false

/-! ## Helpers -/

/-- The outcome is a next state of which `p` holds. -/
def nextIs (o : Host.Outcome State Fault Refusal) (p : State → Bool) : Bool :=
  match o with
  | .next t => p t
  | _ => false

theorem exists_next {o : Host.Outcome State Fault Refusal} {p : State → Bool} (h : nextIs o p = true) :
    ∃ t, o = .next t ∧ p t = true := by
  cases o with
  | next t => exact ⟨t, rfl, h⟩
  | fault r => cases h
  | refused r => cases h

def bytesOf (l : List Nat) : List Byte := l.map (BitVec.ofNat 8)

def wordsOf (l : List Nat) : List Word := l.map (BitVec.ofNat 64)

/-- Slots as the assembler writes them, `none` for null. -/
def slotsOf (l : List (Option Nat)) : List Slot :=
  l.map fun o => match o with
    | none => Slot.null
    | some v => ⟨BitVec.ofNat 64 v, true⟩

/-- A span that holds `l`, and AA past it. -/
def spanOf (l : List Nat) : Nat → Byte := fun a => (bytesOf l).getD a 0xAA

/-- A state that has been through an INIT. -/
def session (w : ValueWidth) (total : Nat) : State :=
  { State.reset with encState := .opened, encW := w, totalValues := BitVec.ofNat 64 total }

/-- A state in mid-session at W = 32, its values all 0: the header and some blocks are in DEST. -/
def midSession (total logical pending cursor : Nat) : State :=
  { session .w32 total with logicalIndex := BitVec.ofNat 64 logical, pendingCount := BitVec.ofNat 9 pending,
                            outputCursor := BitVec.ofNat 64 cursor }

/-- `s` with a DEST of `cap` bytes. -/
def capped (cap : Nat) (s : State) : State := { s with config := ⟨some cap⟩ }

/-- A state whose IN holds `l`. -/
def withSpan (l : List Nat) : State := { State.reset with inSpan := .supplied ⟨cellsFrom 0 (bytesOf l), 1⟩ }

/-- `s` after the instruction, for runs of two or three instructions. -/
def after (i : Instr) (s : State) : State :=
  match exec i s with
  | .next t => t
  | _ => s

/-- The bytes of DEST from `a` on, of those that are written. -/
def destBytes (s : State) (a n : Nat) : List (Option Byte) := (List.range n).map fun k => s.dest.read? (a + k)

/-- The stream of V-S1. -/
def streamS1 : List Nat :=
  [0x80, 0x01, 0x04, 0x06, 0xC8, 0x01, 0x67, 0x06, 0x00, 0x00, 0x00, 0x75, 0x0D, 0xD0, 0x34] ++ List.replicate 20 0

/-! ## WellFormed: each check refuses an ill-formed term -/

theorem test_wf_refuses_too_many_slots : (Instr.add 2 (slotsOf [some 1, none, some 2])).wf = false := by decide

theorem test_wf_refuses_too_few_slots : (Instr.add 200 (slotsOf [some 1])).wf = false := by decide

theorem test_wf_accepts : (Instr.add 2 (slotsOf [some 1, none])).wf = true ∧ Instr.finish.wf = true ∧
    (Instr.init .w32 6).wf = true ∧ (Instr.decode .w64 6 35).wf = true := by decide

/-! ## Decode: words written out from the patterns of R85 -/

/-- R85, the row of INIT, with `w` = 0 and 1. -/
theorem test_decode_init :
    decodeTableWord 32 0b00000000000000000000000000000001 = some (.init .w32 0) ∧
    decodeTableWord 32 0b00000000000000010000000000000001 = some (.init .w64 0) := by decide +kernel

/-- R85, the row of ADD, with `n` = 2 and 0. -/
theorem test_decode_add :
    decodeTableWord 32 0b00000000000000000000001000000010 = some (.add 2 (slotsOf [none, none])) ∧
    decodeTableWord 32 0b00000000000000000000000000000010 = some (.add 0 []) := by decide +kernel

/-- R85, the row of FINISH. -/
theorem test_decode_finish : decodeTableWord 32 0b00000000000000000000000000000011 = some .finish := by
  decide +kernel

/-- R85, the row of DECODE, with `w` = 0 and 1. -/
theorem test_decode_decode :
    decodeTableWord 32 0b00000000000000000000000000000100 = some (.decode .w32 0 0) ∧
    decodeTableWord 32 0b00000000000000010000000000000100 = some (.decode .w64 0 0) := by decide +kernel

/-- V-C9 to V-C16: illegal words, each by the name of what is wrong. -/
theorem test_decode_illegal :
    ([0x00000000, 0x00000005, 0x00010002, 0x00000103, 0x00010003, 0x00000101, 0x00020001, 0x80000004].map
      fun w => match decode (Command.ofTableWord 32 w) with
        | .ok _ => none
        | .error e => some e) =
    [some .unknownOpcode, some .unknownOpcode, some .wselNotZero, some .nslotsNotZero, some .wselNotZero,
     some .nslotsNotZero, some .reservedNotZero, some .reservedNotZero] := by decide +kernel

/-- R81: where each field lies. -/
theorem test_encode_fields :
    (encode (.add 0x81 [])).cmd = 0x00008102 ∧ (encode (.decode .w64 6 35)).cmd = 0x00010004 ∧
    (encode (.decode .w64 6 35)).arg = 6 ∧ (encode (.decode .w64 6 35)).arg2 = 35 := by decide +kernel

/-! ## Primitives -/

/-- V-U1, V-U4, V-U8, V-U9, V-U12. -/
theorem test_uvarintEnc :
    uvarintEnc 64 0 = bytesOf [0x00] ∧ uvarintEnc 64 128 = bytesOf [0x80, 0x01] ∧
    uvarintEnc 64 16384 = bytesOf [0x80, 0x80, 0x01] ∧
    uvarintEnc 64 0xFFFFFFFF = bytesOf [0xFF, 0xFF, 0xFF, 0xFF, 0x0F] ∧
    uvarintEnc 64 0xFFFFFFFFFFFFFFFF = bytesOf (List.replicate 9 0xFF ++ [0x01]) := by decide +kernel

/-- V-Z7, V-Z8a, V-Z9, V-Z10, V-Z12. -/
theorem test_zzvarintEnc :
    zzvarintEnc 32 64 = bytesOf [0x80, 0x01] ∧ zzvarintEnc 64 (BitVec.ofInt 64 (-52)) = bytesOf [0x67] ∧
    zzvarintEnc 32 0x7FFFFFFF = bytesOf [0xFE, 0xFF, 0xFF, 0xFF, 0x0F] ∧
    zzvarintEnc 32 0x80000000 = bytesOf [0xFF, 0xFF, 0xFF, 0xFF, 0x0F] ∧
    zzvarintEnc 64 0x8000000000000000 = bytesOf (List.replicate 9 0xFF ++ [0x01]) := by decide +kernel

/-- A decode's result as plain data. -/
def decodeResult {n : Nat} (r : Except DecFault (BitVec n × Nat)) : Option (Nat × Nat) × Option DecFault :=
  match r with
  | .ok p => (some (p.1.toNat, p.2), none)
  | .error e => (none, some e)

/-- V-D1, V-D2, V-D5, V-D6, V-D8, V-D10. -/
theorem test_uvarintDec :
    decodeResult (uvarintDec (spanOf [0x80, 0x01]) 2 64 0) = (some (128, 2), none) ∧
    decodeResult (uvarintDec (spanOf [0x80, 0x00]) 2 64 0) = (some (0, 2), none) ∧
    decodeResult (uvarintDec (spanOf [0xFF, 0xFF, 0xFF, 0xFF, 0x1F]) 5 32 0) = (none, some .varintOverflow) ∧
    decodeResult (uvarintDec (spanOf [0xFF, 0xFF, 0xFF, 0xFF, 0x8F, 0x01]) 6 32 0) =
      (none, some .varintOverflow) ∧
    decodeResult (uvarintDec (spanOf (List.replicate 9 0xFF ++ [0x02])) 10 64 0) =
      (none, some .varintOverflow) ∧
    decodeResult (uvarintDec (spanOf [0x80]) 1 64 0) = (none, some .truncated) := by decide +kernel

/-- V-D13, V-D14. -/
theorem test_zzvarintDec :
    decodeResult (zzvarintDec (spanOf [0xFF, 0xFF, 0xFF, 0xFF, 0x0F]) 5 32 0) = (some (0x80000000, 5), none) ∧
    decodeResult (zzvarintDec (spanOf [0xFF, 0xFF, 0xFF, 0xFF, 0x1F]) 5 64 0) =
      (some (0xFFFFFFFF00000000, 5), none) := by decide +kernel

/-- V-B1, V-B4, V-B5, V-B12, V-B13, V-B14. -/
theorem test_bitLen :
    [0, 3, 4, 2 ^ 32 - 1, 2 ^ 32, 2 ^ 64 - 1].map bitLen = [0, 2, 3, 32, 33, 64] := by decide +kernel

/-- V-P1, V-P5, V-P7, V-P8, V-P9. -/
theorem test_pack :
    pack 6 [53, 53, 0, 52, 52] = bytesOf [0x75, 0x0D, 0xD0, 0x34] ∧
    pack 32 [0xDEADBEEF, 1] = bytesOf [0xEF, 0xBE, 0xAD, 0xDE, 0x01, 0x00, 0x00, 0x00] ∧
    pack 5 [5, 1, 31] = bytesOf [0x25, 0x7C] ∧ pack 0 [0, 0, 0] = [] ∧
    miniBlockPayload 7 [1, 2, 3] = bytesOf ([0x01, 0xC1, 0x00] ++ List.replicate 25 0) := by decide +kernel

/-- V-P2 decoded back (R148). -/
theorem test_unpack : unpack 32 8 3 (spanOf [0xD1, 0x58, 0x1F]) 0 = [1, 2, 3, 4, 5, 6, 7, 0] := by decide +kernel

/-- V-F7: deltas −2, 3, −3, 4, 4, −7, 4 at W = 32. -/
theorem test_block :
    blockBytes (streamValue ([3, 1, 4, 1, 5, 9, 2, 6] : List (BitVec 32))) 1 7 =
      bytesOf ([0x0D, 0x04, 0x00, 0x00, 0x00, 0xA5, 0xB4, 0x0B, 0x0B] ++ List.replicate 12 0) := by decide +kernel

/-- V-X13: mini-block 1 has width byte 5 and no value, and takes no byte (R243). -/
theorem test_width_without_value :
    decodeStream 32 (spanOf [0x80, 0x01, 0x04, 0x02, 0x00, 0x00, 0x01, 0x05, 0x00, 0x00, 0x01, 0x00, 0x00, 0x00]) 14 2 =
      .ok (14, [0, 1]) := by decide +kernel

/-- V-S10: the wrapped delta of R161. -/
theorem test_stream_wrap :
    streamBytes ([0x7FFFFFFF, 0x80000000] : List (BitVec 32)) =
      bytesOf [0x80, 0x01, 0x04, 0x02, 0xFE, 0xFF, 0xFF, 0xFF, 0x0F, 0x02, 0x00, 0x00, 0x00, 0x00] := by
  decide +kernel

/-! ## One step -/

/-- R190 on a state in mid-session (V-E20): the session's registers are reset, DEST and RB stay. -/
theorem test_init_resets_session :
    nextIs (exec (.init .w32 1) (midSession 300 129 5 11)) (fun t =>
      decide (t.encState = .opened ∧ t.totalValues = 1 ∧ t.logicalIndex = 0 ∧ t.pendingCount = 0 ∧
        t.outputCursor = 0 ∧ t.result = 0)) = true := by decide +kernel

/-- P1, command 2: the header is written and two values stay pending. -/
theorem test_add_header :
    nextIs (exec (.add 4 (slotsOf [some 100, none, some 101, some 102])) (session .w64 6)) (fun t =>
      decide (t.logicalIndex = 1 ∧ t.pendingCount = 2 ∧ t.outputCursor = 6 ∧ t.hdrWritten = true ∧
        destBytes t 0 6 = (bytesOf [0x80, 0x01, 0x04, 0x06, 0xC8, 0x01]).map some)) = true := by decide +kernel

/-- V-E17: one full block of 128 zero deltas, with 127 values still pending. -/
theorem test_add_full_block :
    nextIs (exec (.add 128 (List.replicate 128 ⟨0, true⟩)) (midSession 258 1 127 6)) (fun t =>
      decide (t.logicalIndex = 129 ∧ t.pendingCount = 127 ∧ t.outputCursor = 11 ∧
        destBytes t 6 5 = (bytesOf [0, 0, 0, 0, 0]).map some)) = true := by decide +kernel

/-- V-E12: the sink overflows, and the session's registers are as before. -/
theorem test_finish_overflow :
    nextIs (exec .finish (capped 10 (midSession 6 1 5 6))) (fun t =>
      decide (t.encState = .error ∧ t.result = 0x06 ∧ t.logicalIndex = 1 ∧ t.pendingCount = 5 ∧
        t.outputCursor = 6)) = true := by decide +kernel

/-- V-E11: the empty stream. -/
theorem test_finish_empty :
    nextIs (exec .finish (session .w64 0)) (fun t =>
      decide (t.encState = .finished ∧ t.logicalIndex = 0 ∧ t.outputCursor = 5 ∧ t.hdrWritten = true ∧
        destBytes t 0 5 = (bytesOf [0x80, 0x01, 0x04, 0x00, 0x00]).map some)) = true := by decide +kernel

/-- V-X1. -/
theorem test_decode_values :
    nextIs (exec (.decode .w64 6 35) (withSpan streamS1)) (fun t =>
      decide (t.result = 0 ∧ t.decConsumed = 35 ∧ t.decProduced = 6 ∧
        t.out.cells.map (·.2) = wordsOf [100, 101, 102, 50, 50, 50])) = true := by decide +kernel

/-- V-X15: a width byte above W is an error in a mini-block with no value too. -/
theorem test_decode_bad_width :
    nextIs (exec (.decode .w32 2 10) (withSpan [0x80, 0x01, 0x04, 0x02, 0x00, 0x00, 0x00, 0x00, 0x21, 0x00])) (fun t =>
      decide (t.result = 0x14 ∧ t.decConsumed = 0 ∧ t.decProduced = 0)) = true := by decide +kernel

/-- P1, the end state's STATUS. -/
theorem test_status :
    ({ session .w64 6 with encState := .finished, logicalIndex := 6 } : State).readRegister 0 =
      0x000000000000000E := by decide +kernel

/-- V-E1 as a whole step from reset, its command placed by `withFetchWord`. -/
theorem test_step_add_before_init :
    nextIs (step (State.reset.withFetchWord 32 0x00000102)) (fun t =>
      decide (t = { State.reset with result := 0x02 })) = true := by decide +kernel

/-- V-E21 as a whole step. -/
theorem test_step_illegal :
    nextIs (step (State.reset.withFetchWord 32 0x00000005)) (fun t =>
      decide (t = { State.reset with result := 0x01 })) = true := by decide +kernel

/-- R99, R100: the expansion of `ENCODE.w64` with 129 slots ends its second ADD at one slot, and −1 is FFFFFFFF at
W = 32. -/
theorem test_pseudo :
    (chunks 129 (List.replicate 129 (⟨0, true⟩ : Slot))).map List.length = [128, 1] ∧
    slotOfLiteral .w32 (some (-1)) = some ⟨0xFFFFFFFF, true⟩ ∧ slotOfLiteral .w32 (some (2 ^ 32)) = none := by
  decide +kernel

/-! ## Witnesses: states and operands that meet the hypotheses of each statement -/

theorem fresh_inv (w : ValueWidth) : (session w 6).Inv := by cases w <;> constructor <;> decide +kernel

/-- After `INIT.w32 258` and `ADD` of 128 values (V-E16): 127 values pending, the most there can be. -/
theorem full_inv : (midSession 258 1 127 6).Inv := by constructor <;> decide +kernel

theorem buffer_inv : (midSession 258 129 126 11).Inv := by constructor <;> decide +kernel

theorem last_inv : (midSession 6 1 5 6).Inv := by constructor <;> decide +kernel

theorem whole_inv : (midSession 129 129 0 11).Inv := by constructor <;> decide +kernel

theorem test_witness_WorkedCommandWordsDecode :
    (slotsOf [some 100, some 101, some 102, some 50, some 50, some 50]).map (·.value) =
      [100, 101, 102, 50, 50, 50] ∧
    (slotsOf [some 100, some 101, some 102, some 50, some 50, some 50]).all (·.valid) = true := by decide +kernel

/-- NSLOTS at 0, 128 and past it. -/
theorem test_witness_DecodeOfEncode :
    (Instr.add 0 []).wf = true ∧ (Instr.add 128 (List.replicate 128 Slot.null)).wf = true ∧
    (Instr.add 255 (List.replicate 128 Slot.null)).wf = true := by decide +kernel

theorem test_witness_EncodeOfDecode :
    decode ⟨0x00010004, 6, 35, Vector.replicate 128 Slot.null⟩ = .ok (.decode .w64 6 35) := rfl

/-- Two tuples that differ in every operand an ADD of two slots does not read, slot 2 the first of them. -/
theorem test_witness_EncodeOfDecode_unread :
    (0x00000202 : BitVec 32) = 0x00000202 ∧ fieldOpc 0x00000202 = 0x02 ∧ (fieldNslots 0x00000202).toNat = 2 ∧
    (∀ i (_ : i < 128), i < (fieldNslots 0x00000202).toNat →
      (padSlots (slotsOf [some 1, none]))[i] = (padSlots (slotsOf [some 1, none, some 3]))[i]) ∧
    (padSlots (slotsOf [some 1, none]))[2] ≠ (padSlots (slotsOf [some 1, none, some 3]))[2] := by decide +kernel

theorem test_witness_IllegalCommandChangesOnlyResult :
    (0x00020001 : BitVec 32) &&& 0xFFFEFFFF ≠ 0x00000001 ∧ (0x00020001 : BitVec 32) &&& 0xFFFF00FF ≠ 0x00000002 ∧
    (0x00020001 : BitVec 32) &&& 0xFFFFFFFF ≠ 0x00000003 ∧ (0x00020001 : BitVec 32) &&& 0xFFFEFFFF ≠ 0x00000004 ∧
    (State.reset.withFetchWord 32 0x00020001).port = [.command (Command.ofTableWord 32 0x00020001)] ∧
    (Command.ofTableWord 32 0x00020001).cmd = 0x00020001 := by decide +kernel

theorem test_witness_StepRunsDecodedInstruction :
    (State.reset.withPort [.command (encode .finish)]).port = [.command (encode .finish)] ∧
    decode (encode .finish) = .ok .finish ∧ Instr.finish.wf = true := ⟨rfl, rfl, rfl⟩

theorem test_witness_IdleBlockKeepsState : State.reset.port = [] := rfl

theorem test_witness_HostActionsChangeOnlySpan :
    (State.reset.withPort [.provideIn (bytesOf streamS1)]).port = [.provideIn (bytesOf streamS1)] ∧
    (({ session .w32 0 with encState := .finished } : State).withPort [.bindInToDest]).port = [.bindInToDest] ∧
    (({ session .w32 0 with encState := .finished } : State).withPort [.bindInToDest]).encState = .finished ∧
    (State.reset.withPort [.bindInToDest]).port = [.bindInToDest] ∧
    (State.reset.withPort [.bindInToDest]).encState ≠ .finished ∧
    (session .w32 0).bindSpan.inSpan = .boundToDest ∧
    (∃ t, step ((session .w32 0).bindSpan.withPort [.command (encode .finish)]) = .next t ∧
      decide (t.outputCursor = 5) = true) :=
  ⟨rfl, rfl, rfl, rfl, by decide, rfl, exists_next (by decide +kernel)⟩

/-- MBW at the largest values of its range. -/
theorem test_witness_ResetMeetsInvariant :
    ∀ m : Fin 4, ((Vector.replicate 4 64 : Vector (BitVec 7) 4)[m]).toNat ≤ 64 := by decide

/-- A step that flushes a full block, from a state that satisfies the invariant. -/
theorem test_witness_StepKeepsInvariant :
    (midSession 258 1 127 6).Inv ∧
    ((midSession 258 1 127 6).withPort [.command (encode (.add 1 [⟨0, true⟩]))]).Inv ∧
    ∃ t, step ((midSession 258 1 127 6).withPort [.command (encode (.add 1 [⟨0, true⟩]))]) = .next t ∧
      decide (t.logicalIndex = 129) = true :=
  ⟨full_inv, by constructor <;> decide +kernel, exists_next (by decide +kernel)⟩

/-- FINISH from a state with the invariant, and DECODE of a bound IN at the width of a FINISHED session. -/
theorem test_witness_CommandsNeverStop :
    (session .w64 6).Inv ∧
    ({ session .w64 6 with encState := .finished } : State).bindSpan.launchRefusal .w64 = none :=
  ⟨fresh_inv .w64, rfl⟩

/-- Each check of R191 at its boundary: NSLOTS 129 and 128, and one valid value more than declared. -/
theorem test_witness_AddRejectsInOrder :
    State.reset.encState ≠ .opened ∧
    ((session .w64 6).encState = .opened ∧ 128 < (129 : BitVec 8).toNat) ∧
    ((midSession 6 1 5 6).encState = .opened ∧ (128 : BitVec 8).toNat ≤ 128 ∧
      (midSession 6 1 5 6).totalValues.toNat <
        (midSession 6 1 5 6).logicalIndex.toNat + (midSession 6 1 5 6).pendingCount.toNat
          + (((slotsOf [some 1, none]).take (128 : BitVec 8).toNat).filter (·.valid)).length) := by decide +kernel

theorem test_witness_AddOfNullsChangesOnlyResult :
    (session .w64 6).Inv ∧ (session .w64 6).encState = .opened ∧ (128 : BitVec 8).toNat ≤ 128 ∧
    (∀ sl ∈ (List.replicate 128 Slot.null).take (128 : BitVec 8).toNat, sl.valid = false) :=
  ⟨fresh_inv .w64, by decide, by decide, by decide +kernel⟩

/-- From 126 pending values to 127, the most that stay buffered. -/
theorem test_witness_AddBuffersValues :
    (midSession 258 129 126 11).Inv ∧ (midSession 258 129 126 11).encState = .opened ∧ (2 : BitVec 8).toNat ≤ 128 ∧
    (midSession 258 129 126 11).logicalIndex ≠ 0 ∧
    (midSession 258 129 126 11).pendingCount.toNat
      + (chunkValues .w32 2 (slotsOf [none, some 9])).length = 127 ∧
    (midSession 258 129 126 11).accepted + (chunkValues .w32 2 (slotsOf [none, some 9])).length ≤
      (midSession 258 129 126 11).totalValues.toNat :=
  ⟨buffer_inv, by decide +kernel⟩

/-- The first value after a null, with a DEST that holds just the header. -/
theorem test_witness_AddWritesStreamHeader :
    (capped 6 (session .w64 6)).Inv ∧ (capped 6 (session .w64 6)).encState = .opened ∧
    (3 : BitVec 8).toNat ≤ 128 ∧ (capped 6 (session .w64 6)).logicalIndex = 0 ∧
    chunkValues .w64 3 (slotsOf [none, some 100, some 101]) = 100 :: [101] ∧
    [(101 : Word)].length + 1 ≤ (capped 6 (session .w64 6)).totalValues.toNat ∧
    (uvarintEnc 64 128 ++ uvarintEnc 64 4 ++ uvarintEnc 64 (capped 6 (session .w64 6)).totalValues
      ++ zzvarintEnc 64 100).length = (capped 6 (session .w64 6)).config.sinkLimit :=
  ⟨by constructor <;> decide +kernel, by decide +kernel⟩

/-- One value more than 127, with a DEST that holds just the block. -/
theorem test_witness_AddFlushesFullBlock :
    (capped 11 (midSession 258 1 127 6)).Inv ∧ (capped 11 (midSession 258 1 127 6)).encState = .opened ∧
    (1 : BitVec 8).toNat ≤ 128 ∧ (capped 11 (midSession 258 1 127 6)).logicalIndex ≠ 0 ∧
    (capped 11 (midSession 258 1 127 6)).pendingCount.toNat + (chunkValues .w32 1 (slotsOf [some 0])).length = 128 ∧
    (capped 11 (midSession 258 1 127 6)).accepted + (chunkValues .w32 1 (slotsOf [some 0])).length ≤
      (capped 11 (midSession 258 1 127 6)).totalValues.toNat ∧
    (capped 11 (midSession 258 1 127 6)).outputCursor.toNat +
      (blockBytes ((capped 11 (midSession 258 1 127 6)).appendValues
        (chunkValues .w32 1 (slotsOf [some 0]))).rbValue 1 128).length =
      (capped 11 (midSession 258 1 127 6)).config.sinkLimit :=
  ⟨by constructor <;> decide +kernel, by decide +kernel⟩

/-- Two valid slots with a null between them, and the same slots with another value in the null one. -/
theorem test_witness_AddCompactsValidSlots :
    (midSession 6 1 1 6).encState = .opened ∧
    (∃ t, exec (.add 3 (slotsOf [some 7, none, some 9])) (midSession 6 1 1 6) = .next t ∧
      decide (t.result = ResultCode.ok.code) = true) ∧
    (∀ i (_h : i < (slotsOf [some 7, none, some 9]).length) (_h' : i < [(⟨7, true⟩ : Slot), ⟨1, false⟩, ⟨9, true⟩].length),
      [(⟨7, true⟩ : Slot), ⟨1, false⟩, ⟨9, true⟩][i].valid = (slotsOf [some 7, none, some 9])[i].valid ∧
      ((slotsOf [some 7, none, some 9])[i].valid = true →
        [(⟨7, true⟩ : Slot), ⟨1, false⟩, ⟨9, true⟩][i].value = (slotsOf [some 7, none, some 9])[i].value)) := by
  exact ⟨rfl, exists_next (by decide +kernel), by decide +kernel⟩

/-- Both cases of the last clause: the header's ADD, and an ADD that leaves 127 pending. -/
theorem test_witness_AddFrame :
    (∃ t, exec (.add 1 (slotsOf [some 7])) (session .w64 6) = .next t ∧ decide (t.result = 0) = true) ∧
    (session .w64 6).Inv ∧ (session .w64 6).logicalIndex = 0 ∧
    (∃ t, exec (.add 1 (slotsOf [some 7])) (midSession 258 129 126 11) = .next t ∧
      decide (t.result = 0) = true) ∧
    (midSession 258 129 126 11).Inv ∧
    (midSession 258 129 126 11).pendingCount.toNat + (chunkValues .w32 1 (slotsOf [some 7])).length < 128 :=
  ⟨exists_next (by decide +kernel), fresh_inv .w64, rfl, exists_next (by decide +kernel), buffer_inv,
    by decide +kernel⟩

/-- An ADD whose output list is one byte longer than DEST, and one that fills it. -/
theorem test_witness_CommitIsAllOrNothing_add :
    (session .w64 6).encState = .opened ∧ (1 : BitVec 8).toNat ≤ 128 ∧
    (session .w64 6).accepted + (chunkValues .w64 1 (slotsOf [some 100])).length ≤
      (session .w64 6).totalValues.toNat ∧
    5 < (capped 5 (session .w64 6)).outputCursor.toNat +
      ((capped 5 (session .w64 6)).addWork (chunkValues .w64 1 (slotsOf [some 100]))).2.length ∧
    (capped 6 (session .w64 6)).outputCursor.toNat +
      ((capped 6 (session .w64 6)).addWork (chunkValues .w64 1 (slotsOf [some 100]))).2.length = 6 := by
  decide +kernel

/-- The same of a FINISH. -/
theorem test_witness_CommitIsAllOrNothing_finish :
    (capped 10 (midSession 6 1 5 6)).encState = .opened ∧ (capped 10 (midSession 6 1 5 6)).Inv ∧
    (capped 10 (midSession 6 1 5 6)).totalValues.toNat ≤ (capped 10 (midSession 6 1 5 6)).accepted ∧
    10 < (capped 10 (midSession 6 1 5 6)).outputCursor.toNat +
      (capped 10 (midSession 6 1 5 6)).finishWork.2.length ∧
    (capped 11 (midSession 6 1 5 6)).Inv ∧
    (capped 11 (midSession 6 1 5 6)).outputCursor.toNat + (capped 11 (midSession 6 1 5 6)).finishWork.2.length = 11 :=
  ⟨rfl, by constructor <;> decide +kernel, by decide +kernel, by decide +kernel,
    by constructor <;> decide +kernel, by decide +kernel⟩

/-- The second check one value short of the declared count. -/
theorem test_witness_FinishRejectsInOrder :
    State.reset.encState ≠ .opened ∧ (midSession 7 1 5 6).encState = .opened ∧
    (midSession 7 1 5 6).logicalIndex.toNat + (midSession 7 1 5 6).pendingCount.toNat + 1 =
      (midSession 7 1 5 6).totalValues.toNat := by decide +kernel

theorem test_witness_FinishWritesEmptyStream :
    (capped 5 (session .w64 0)).Inv ∧ (capped 5 (session .w64 0)).encState = .opened ∧
    (capped 5 (session .w64 0)).totalValues.toNat ≤ (capped 5 (session .w64 0)).accepted ∧
    (capped 5 (session .w64 0)).logicalIndex = 0 ∧ (capped 5 (session .w64 0)).config.sinkLimit = 5 :=
  ⟨by constructor <;> decide +kernel, by decide +kernel⟩

theorem test_witness_FinishFlushesLastBlock :
    (capped 11 (midSession 6 1 5 6)).Inv ∧ (capped 11 (midSession 6 1 5 6)).encState = .opened ∧
    (capped 11 (midSession 6 1 5 6)).totalValues.toNat ≤ (capped 11 (midSession 6 1 5 6)).accepted ∧
    0 < (capped 11 (midSession 6 1 5 6)).pendingCount.toNat ∧
    (capped 11 (midSession 6 1 5 6)).outputCursor.toNat +
      (blockBytes (capped 11 (midSession 6 1 5 6)).rbValue 1 5).length =
      (capped 11 (midSession 6 1 5 6)).config.sinkLimit :=
  ⟨by constructor <;> decide +kernel, by decide +kernel⟩

theorem test_witness_FinishWithNothingPending :
    (midSession 129 129 0 11).Inv ∧ (midSession 129 129 0 11).encState = .opened ∧
    (midSession 129 129 0 11).totalValues.toNat ≤ (midSession 129 129 0 11).accepted ∧
    (midSession 129 129 0 11).logicalIndex ≠ 0 ∧ (midSession 129 129 0 11).pendingCount = 0 :=
  ⟨whole_inv, by decide +kernel⟩

theorem test_witness_FinishFrame :
    (∃ t, exec .finish (midSession 6 1 5 6) = .next t ∧ decide (t.result = 0) = true) ∧
    (∃ t, exec .finish (midSession 129 129 0 11) = .next t ∧ decide (t.result = 0) = true) ∧
    (midSession 129 129 0 11).pendingCount = 0 :=
  ⟨exists_next (by decide +kernel), exists_next (by decide +kernel), rfl⟩

/-- A state whose IN the host has bound to DEST, at its session's start. -/
def boundSpan : State := (session .w64 6).bindSpan

/-- A supplied span in OPEN, a bound one in FINISHED at each width, and a bound one in OPEN. -/
theorem test_witness_DecodeKeepsEncoder :
    (session .w64 6).inSpan ≠ .boundToDest ∧
    ({ boundSpan with encState := .finished } : State).encState = .finished ∧
    boundSpan.encW = .w64 ∧ boundSpan.encW ≠ .w32 ∧
    boundSpan.inSpan = .boundToDest ∧ boundSpan.encState ≠ .finished := by decide +kernel

/-- After `INIT` a bound IN overlaps the new session, and the DECODE is refused (R296 (b)). -/
theorem test_witness_DecodeKeepsEncoder_refused :
    nextIs (step ((after (.init .w64 6) ({ boundSpan with encState := .finished } : State)).withPort
      [.command (encode (.decode .w64 6 35))])) (fun _ => true) = false := by decide +kernel

/-- Two states that differ in the encoder's registers, in OUT and past LEN. -/
theorem test_witness_DecodeIgnoresEncoderState :
    (withSpan streamS1).launchRefusal .w64 = none ∧ (midSession 6 1 5 6).launchRefusal .w64 = none ∧
    ∀ a < (35 : Word).toNat, (withSpan streamS1).inMem.read a =
      ({ midSession 6 1 5 6 with inSpan := (withSpan (streamS1 ++ [0xAA])).inSpan } : State).inMem.read a := by
  decide +kernel

/-- One decode that ends well and one that fails, on the same span: LEN 35 and 34 (V-X1, V-X3). -/
theorem test_witness_DecodeEndEffects :
    (withSpan streamS1).launchRefusal .w64 = none ∧
    (∃ c vs, decodeStream 64 (withSpan streamS1).inMem.read 35 6 = .ok (c, vs)) ∧
    (∃ e, decodeStream 64 (withSpan streamS1).inMem.read 34 6 = .error e) := by
  refine ⟨rfl, ?_, ?_⟩
  · exact ⟨35, [100, 101, 102, 50, 50, 50], by decide +kernel⟩
  · exact ⟨.truncated, by decide +kernel⟩

theorem test_witness_DecodeProducesDeclaredCount :
    decodeStream 64 (spanOf streamS1) 35 6 = .ok (35, [100, 101, 102, 50, 50, 50]) := by decide +kernel

/-- The empty stream V-S6, and one whose first-value field is not 0. -/
theorem test_witness_DecodeOfEmptyStream :
    (withSpan [0x80, 0x01, 0x04, 0x00, 0x00]).launchRefusal .w64 = none ∧
    decodeHeader 64 (withSpan [0x80, 0x01, 0x04, 0x00, 0x00]).inMem.read (5 : Word).toNat 0 = .ok (0, 5) ∧
    decodeHeader 32 (withSpan [0x80, 0x01, 0x04, 0x00, 0x54]).inMem.read (5 : Word).toNat 0 = .ok (42, 5) := by
  decide +kernel

/-- The clauses for every span, each reached: an empty span (V-X9), block_size 256 (V-X10), no second field, 8
mini-blocks (V-X11), a count of more than ten bytes (V-X17), another count (V-X6), a first value that is cut off (V-X5)
and a header with the non-canonical count `81 00` (V-X12). -/
theorem test_witness_DecodeChecksStreamHeader_spans :
    uvarintDec (spanOf []) 0 64 0 = .error .truncated ∧
    (uvarintDec (spanOf [0x80, 0x02]) 2 64 0 = .ok (256, 2) ∧ (256 : Word) ≠ 128) ∧
    uvarintDec (spanOf [0x80, 0x01]) 2 64 0 = .ok (128, 2) ∧
    uvarintDec (spanOf [0x80, 0x01]) 2 64 2 = .error .truncated ∧
    (uvarintDec (spanOf [0x80, 0x01, 0x08]) 3 64 2 = .ok (8, 3) ∧ (8 : Word) ≠ 4) ∧
    uvarintDec (spanOf ([0x80, 0x01, 0x04] ++ List.replicate 10 0x80)) 13 64 3 = .error .varintOverflow ∧
    (uvarintDec (spanOf streamS1) 35 64 3 = .ok (6, 4) ∧ (6 : Word) ≠ 5) ∧
    zzvarintDec (spanOf streamS1) 5 64 4 = .error .truncated ∧
    (uvarintDec (spanOf [0x80, 0x01, 0x04, 0x81, 0x00, 0x54]) 6 64 3 = .ok (1, 5) ∧
      zzvarintDec (spanOf [0x80, 0x01, 0x04, 0x81, 0x00, 0x54]) 6 32 5 = .ok (42, 6)) := by decide +kernel

/-- The header of V-S1, in a span just long enough. -/
theorem test_witness_DecodeChecksStreamHeader :
    uvarintEnc 64 128 ++ uvarintEnc 64 4 ++ uvarintEnc 64 6 ++ zzvarintEnc 64 100 = bytesOf (streamS1.take 6) ∧
    (bytesOf (streamS1.take 6)).length ≤ 6 ∧
    ∀ a (h : a < (bytesOf (streamS1.take 6)).length), spanOf streamS1 a = (bytesOf (streamS1.take 6))[a] := by
  decide +kernel

/-- The first two parts: all values produced, one left with one turn left, and a minimum that is cut off. -/
theorem test_witness_DecodeChecksWidthBytes_blocks :
    2 ≤ (⟨5, 0, [0, 0]⟩ : Progress 32).values.length ∧
    (⟨5, 0, [0]⟩ : Progress 32).values.length < 2 ∧ 2 ≤ (⟨5, 0, [0]⟩ : Progress 32).values.length + 1 ∧
    zzvarintDec (spanOf [0x80]) 1 32 0 = .error .truncated := by decide +kernel

/-- The three clauses: the span ends in the width bytes, a width of 33 at W = 32, and a width of 32. -/
theorem test_witness_DecodeChecksWidthBytes :
    zzvarintDec (spanOf [0x00, 0x00, 0x21, 0x20, 0x00]) 5 32 0 = .ok (0, 1) ∧ ¬ 5 < 1 + 4 ∧ 4 < 1 + 4 ∧
    zzvarintDec (spanOf [0x00, 0x00, 0x21, 0x20, 0x00]) 4 32 0 = .ok (0, 1) ∧
    (∃ m < 4, 32 < (spanOf [0x00, 0x00, 0x21, 0x20, 0x00] (1 + m)).toNat) ∧
    zzvarintDec (spanOf [0x00, 0x00, 0x20, 0x20, 0x00]) 5 32 0 = .ok (0, 1) ∧
    (∀ m < 4, (spanOf [0x00, 0x00, 0x20, 0x20, 0x00] (1 + m)).toNat ≤ 32) := by decide +kernel

/-- No value left and a width byte of 200; a payload one byte short; and one that just fits, at width 32 of 32. -/
theorem test_witness_DecodeTakesMiniBlocks :
    2 ≤ (⟨10, 0, [0, 0]⟩ : Progress 32).values.length ∧
    ((⟨10, 0, [0]⟩ : Progress 32).values.length < 2 ∧ 137 < (⟨10, 0, [0]⟩ : Progress 32).c + 4 * 32) ∧
    (⟨10, 0, [0]⟩ : Progress 32).c + 4 * 32 ≤ 138 ∧ 32 ≤ ValueWidth.w32.bits := by decide +kernel

/-- The clauses of R116 at W = 32, at their boundaries: the span ends after four bytes that continue; the largest value
(V-D4); a fifth byte that carries bit 32 (V-D5); a fifth byte that continues (V-D6); and `80 00` (V-D2). -/
theorem test_witness_UvarintDecodesAnySpan :
    (∀ i < 4, 0 + i < 4 ∧ (spanOf [0xFF, 0xFF, 0xFF, 0xFF] (0 + i)).getLsbD 7 = true) ∧
    4 + 1 = (ValueWidth.w32.bits + 6) / 7 ∧
    ((spanOf [0xFF, 0xFF, 0xFF, 0xFF, 0x0F] 4).getLsbD 7 = false ∧
      ((Finset.range 5).sum fun i => (spanOf [0xFF, 0xFF, 0xFF, 0xFF, 0x0F] (0 + i)).toNat % 128 * 128 ^ i) + 1 =
        2 ^ 32) ∧
    ((spanOf [0x80, 0x80, 0x80, 0x80, 0x10] 4).getLsbD 7 = false ∧
      ((Finset.range 5).sum fun i => (spanOf [0x80, 0x80, 0x80, 0x80, 0x10] (0 + i)).toNat % 128 * 128 ^ i) =
        2 ^ 32) ∧
    (spanOf [0xFF, 0xFF, 0xFF, 0xFF, 0x8F] 4).getLsbD 7 = true ∧
    (spanOf [0x80, 0x00] 0 = 0x80 ∧ spanOf [0x80, 0x00] (0 + 1) = 0x00 ∧ 0 + 2 ≤ 2) := by decide +kernel

/-- Spans that hold the encodings of the largest 32-bit value and of the most negative one (V-U9, V-Z10). -/
theorem test_witness_VarintRoundTrip :
    (∀ i (h : i < (uvarintEnc 32 0xFFFFFFFF).length),
      spanOf [0xFF, 0xFF, 0xFF, 0xFF, 0x0F] (0 + i) = (uvarintEnc 32 0xFFFFFFFF)[i]) ∧
    0 + (uvarintEnc 32 0xFFFFFFFF).length ≤ 5 ∧
    (∀ i (h : i < (zzvarintEnc 32 0x80000000).length),
      spanOf [0xFF, 0xFF, 0xFF, 0xFF, 0x0F] (0 + i) = (zzvarintEnc 32 0x80000000)[i]) ∧
    0 + (zzvarintEnc 32 0x80000000).length ≤ 5 := by decide +kernel

/-- The two clauses at their ends: 127, and 128 with `k` = 2. -/
theorem test_witness_UvarintLength :
    (127 : BitVec 32).toNat < 2 ^ 7 ∧
    (1 ≤ 2 ∧ 2 ^ (7 * (2 - 1)) ≤ (128 : BitVec 32).toNat ∧ (128 : BitVec 32).toNat < 2 ^ (7 * 2)) ∧
    (1 ≤ 10 ∧ 2 ^ (7 * (10 - 1)) ≤ (0xFFFFFFFFFFFFFFFF : BitVec 64).toNat ∧
      (0xFFFFFFFFFFFFFFFF : BitVec 64).toNat < 2 ^ (7 * 10)) := by decide +kernel

theorem test_witness_ZigzagArithmetic :
    0 ≤ (0x7FFFFFFF : BitVec 32).toInt ∧ (0x80000000 : BitVec 32).toInt < 0 := by decide +kernel

theorem test_witness_BitWidthIsLeast : 7 < 2 ^ 3 := by decide

/-- V-P7, and a value that fills its field. -/
theorem test_witness_PackPlacesBits :
    [5, 1, 31].length ≤ 32 ∧ 5 ≤ 64 ∧ (∀ v ∈ [5, 1, 31], v < 2 ^ 5) ∧ (2 * 5 + 4) / 8 < (pack 5 [5, 1, 31]).length ∧
    (15 / 8 < (pack 5 [5, 1, 31]).length ∧ [5, 1, 31].length * 5 ≤ 15) := by decide +kernel

/-- One value, and 32, at width 64. -/
theorem test_witness_PayloadIsPaddedPack :
    (1 ≤ [2 ^ 64 - 1].length ∧ [2 ^ 64 - 1].length ≤ 32 ∧ ∀ v ∈ [2 ^ 64 - 1], v < 2 ^ 64) ∧
    (1 ≤ (List.replicate 32 1).length ∧ (List.replicate 32 1).length ≤ 32 ∧
      ∀ v ∈ List.replicate 32 1, v < 2 ^ 1) := by decide +kernel

/-- The span of V-P7 with its fill. -/
theorem test_witness_PackUnpackRoundTrip :
    [5, 1, 31].length ≤ 32 ∧ 5 ≤ ValueWidth.w32.bits ∧ (∀ v ∈ [5, 1, 31], v < 2 ^ 5) ∧
    (∀ k (h : k < (pack 5 [5, 1, 31]).length), spanOf [0x25, 0x7C] (0 + k) = (pack 5 [5, 1, 31])[k]) ∧
    (∀ k (h : k < (miniBlockPayload 5 [5, 1, 31]).length), k < ([5, 1, 31].length * 5 + 7) / 8 →
      spanOf [0x25, 0x7C] (0 + k) = (miniBlockPayload 5 [5, 1, 31])[k]) := by decide +kernel

/-- The ends of the ranges: a real slot and a padding slot of a block of one value, and a full block. -/
theorem test_witness_FrameOfReferenceIsMinimum :
    (1 ≤ 1 ∧ 1 ≤ 128 ∧ 0 < 1) ∧ (1 ≤ 1 ∧ 127 < 128) ∧ 1 ≤ 128 := by decide

/-- A mini-block with values and one with none, in the block of V-F7; its widest norm at its width. -/
theorem test_witness_MiniBlockWidthsFit :
    miniCount 7 1 = 0 ∧ (32 * 0 ≤ 6 ∧ 6 < 32 * 0 + miniCount 7 0) ∧
    (blockNorms 7 (blockDeltas (streamValue ([3, 1, 4, 1, 5, 9, 2, 6] : List (BitVec 32))) 1 7))[6]? = some 11 ∧
    (∀ i < 7, ∀ norm,
      (blockNorms 7 (blockDeltas (streamValue ([3, 1, 4, 1, 5, 9, 2, 6] : List (BitVec 32))) 1 7))[i]? = some norm →
      norm.toNat < 2 ^ 4) := by
  refine ⟨by decide +kernel, by decide +kernel, by decide +kernel, ?_⟩
  intro i h norm hn
  have hb : ∀ j < 7, ((blockNorms 7 (blockDeltas
      (streamValue ([3, 1, 4, 1, 5, 9, 2, 6] : List (BitVec 32))) 1 7))[j]?.getD 0).toNat < 2 ^ 4 := by decide +kernel
  have := hb i h
  rw [hn] at this
  exact this

/-- V-F10: 128 deltas of 64. -/
theorem test_witness_EqualDeltasGiveNoPayload :
    1 ≤ 128 ∧ 128 ≤ 128 ∧
    ∀ i < 128, BitVec.ofNat 64 (64 * (1 + i)) - BitVec.ofNat 64 (64 * (1 + i - 1)) = (64 : BitVec 64) := by
  decide +kernel

theorem test_witness_StreamSizeWithinBound :
    ∀ m < 4, miniWidth 128 (blockNorms 128 (blockDeltas (fun _ => (5 : BitVec 64)) 1 128)) m = 0 := by decide +kernel

theorem test_witness_StreamDecodesToItsValues :
    ([100, 101, 102, 50, 50, 50] : List (BitVec 64)).length < 2 ^ 64 ∧
    streamBytes ([100, 101, 102, 50, 50, 50] : List (BitVec 64)) = bytesOf streamS1 ∧
    (bytesOf streamS1).length ≤ 35 ∧ ∀ a < 35, some (spanOf streamS1 a) = (bytesOf streamS1)[a]? := by
  decide +kernel

/-- A session of one value, 42 at W = 32 (V-S7), after its ADD. -/
def oneValue : State := after (.add 2 (slotsOf [none, some 42])) (session .w32 2)

theorem test_witness_SessionKeepsAcceptedValues :
    (∃ t, exec (.init .w32 2) State.reset = .next t ∧ decide (t.encState = .opened) = true) ∧
    oneValue.Inv ∧ oneValue.Session [42] ∧
    ∃ t, exec (.add 1 (slotsOf [some 7])) oneValue = .next t ∧ decide (t.result = ResultCode.ok.code) = true := by
  refine ⟨exists_next (by decide +kernel), by constructor <;> decide +kernel, ⟨by decide +kernel, by decide +kernel,
    ?_, ?_⟩, exists_next (by decide +kernel)⟩
  · have h : oneValue.rbValue 0 = (42 : Word).setWidth oneValue.sessionBits := by decide +kernel
    intro p _ hp
    obtain rfl : p = 0 := by simpa using hp
    exact h
  · unfold State.destHolds
    decide +kernel

theorem test_witness_SessionWritesStream :
    State.reset.Inv ∧
    (∃ u, State.reset.runSession .w32 2 [(2, slotsOf [none, some 42]), (1, slotsOf [some 7])] = some u) :=
  ⟨by constructor <;> decide +kernel, Option.isSome_iff_exists.1 (by decide +kernel)⟩

/-- IN bound to the DEST of the session of V-S7 (R100), and LEN just its length. -/
theorem test_witness_RoundTripReturnsValues :
    State.reset.Inv ∧ ∃ u, State.reset.runSession .w32 1 [(2, slotsOf [none, some 42])] = some u ∧
      u.bindSpan.launchRefusal .w32 = none ∧ (∀ a < u.outputCursor.toNat, u.bindSpan.inMem.read a = u.dest.read a) ∧
      u.outputCursor.toNat ≤ (5 : Word).toNat := by
  refine ⟨by constructor <;> decide +kernel, _, rfl, by decide +kernel, fun _ _ => rfl, by decide +kernel⟩

/-- A step on a command, and what holds of its next state. -/
def stepIs (s : State) (i : Instr) (p : State → Bool) : Bool := nextIs (step (s.withPort [.command (encode i)])) p

/-- Each clause: INIT from FINISHED; ADD with each of its results; FINISH with each of its results; a command that is
no INIT in another state; a DECODE in OPEN. -/
theorem test_witness_EncStateTransitions :
    stepIs { session .w32 6 with encState := .finished } (.init .w32 1) (fun t => t.encState == .opened) = true ∧
    stepIs (session .w32 6) (.add 1 (slotsOf [some 1])) (fun t => t.result == 0x00) = true ∧
    stepIs (session .w32 0) (.add 1 (slotsOf [some 1])) (fun t => t.result == 0x04) = true ∧
    stepIs (capped 4 (session .w32 6)) (.add 1 (slotsOf [some 1])) (fun t => t.result == 0x06) = true ∧
    stepIs (session .w32 6) (.add 129 (List.replicate 128 Slot.null)) (fun t => t.result == 0x03) = true ∧
    stepIs (session .w32 0) .finish (fun t => t.result == 0x00) = true ∧
    stepIs (session .w32 1) .finish (fun t => t.result == 0x05) = true ∧
    stepIs (capped 4 (session .w32 0)) .finish (fun t => t.result == 0x06) = true ∧
    stepIs { session .w32 6 with encState := .error } .finish (fun t => t.encState == .error) = true ∧
    stepIs (session .w32 6) (.decode .w32 0 0) (fun t => t.encState == .opened) = true := by decide +kernel

/-- Every error code of the three clauses is raised by some step. -/
theorem test_witness_ErrorsChangeOnlyListedState :
    stepIs (session .w32 0) (.add 1 (slotsOf [some 1])) (fun t => t.result == 0x04) = true ∧
    stepIs (session .w32 1) .finish (fun t => t.result == 0x05) = true ∧
    stepIs (capped 4 (session .w32 0)) .finish (fun t => t.result == 0x06) = true ∧
    nextIs (step (State.reset.withFetchWord 32 0x00000000)) (fun t => t.result == 0x01) = true ∧
    stepIs State.reset .finish (fun t => t.result == 0x02) = true ∧
    stepIs (session .w32 6) (.add 129 (List.replicate 128 Slot.null)) (fun t => t.result == 0x03) = true ∧
    stepIs (withSpan []) (.decode .w64 0 0) (fun t => t.result == 0x10) = true ∧
    stepIs (withSpan [0x80, 0x01, 0x04, 0x01, 0xFF, 0xFF, 0xFF, 0xFF, 0x1F]) (.decode .w32 1 9)
      (fun t => t.result == 0x11) = true ∧
    stepIs (withSpan [0x80, 0x02, 0x04, 0x00, 0x00]) (.decode .w64 0 5) (fun t => t.result == 0x12) = true ∧
    stepIs (withSpan streamS1) (.decode .w64 5 35) (fun t => t.result == 0x13) = true ∧
    stepIs (withSpan [0x80, 0x01, 0x04, 0x02, 0x00, 0x00, 0x00, 0x00, 0x21, 0x00]) (.decode .w32 2 10)
      (fun t => t.result == 0x14) = true := by decide +kernel

/-- A step that is no INIT and no DECODE, one that is no ADD, and one on an empty port. -/
theorem test_witness_RegistersWrittenByTheirCommands :
    decode (encode .finish) = .ok .finish ∧
    stepIs (session .w32 0) .finish (fun t => t.result == 0) = true ∧
    step State.reset = .next State.reset := ⟨rfl, by decide +kernel, rfl⟩

/-- A step that writes DEST at 6 to 10. -/
theorem test_witness_DestWrittenOnlyAtCursor :
    stepIs (midSession 6 1 5 6) .finish (fun t => t.outputCursor == 11) = true := by decide +kernel

theorem test_witness_EveryCommandWritesResult :
    ((session .w32 0).withPort [.command (encode .finish)]).port = [.command (encode .finish)] ∧
    stepIs (session .w32 0) .finish (fun t => t.result == 0) = true := ⟨rfl, by decide +kernel⟩

theorem test_witness_RegisterMap : 7 ≤ 7 := le_rfl

end Sys2Proof.Machine.Tests
end

section
/-! SUPPORT. Which registers each command leaves alone (R9, R33, R34, R37, R41, R62), and from that which commands may
write which registers, over every step. -/

namespace Sys2Proof.Machine

/-! ## The frame of each command -/

/-- What INIT leaves alone (R190): the parameter, RB, MBW, the decoder's registers and the memories. -/
theorem execInit_frame {width : ValueWidth} {total : Word} {s t : State} (h : execInit width total s = .next t) :
    t.config = s.config ∧ t.rb = s.rb ∧ t.mbw = s.mbw ∧ t.decConsumed = s.decConsumed ∧
    t.decProduced = s.decProduced ∧ t.dest = s.dest ∧ t.inSpan = s.inSpan ∧ t.out = s.out ∧ t.port = s.port := by
  cases h
  simp

/-- What ADD leaves alone, whether it is rejected, overflows the sink or succeeds (R193, R197). -/
theorem execAdd_frame {nslots : BitVec 8} {slots : List Slot} {s t : State} (h : execAdd nslots slots s = .next t) :
    t.config = s.config ∧ t.encW = s.encW ∧ t.totalValues = s.totalValues ∧ t.decConsumed = s.decConsumed ∧
    t.decProduced = s.decProduced ∧ t.inSpan = s.inSpan ∧ t.out = s.out ∧ t.port = s.port := by
  rcases execAdd_cases nslots slots s with ⟨-, he⟩ | ⟨-, -, he⟩ | ⟨-, -, -, he⟩ | ⟨-, -, -, he⟩ <;>
    rw [he] at h <;> cases h
  case inr.inr.inr =>
    have hwork := s.addWork_frame (chunkValues s.encW nslots slots)
    rcases s.commit_cases (s.addWork (chunkValues s.encW nslots slots)).1
      (s.addWork (chunkValues s.encW nslots slots)).2 (fun t => t.setResult .ok) with ⟨-, hc⟩ | ⟨-, hc⟩ <;>
      rw [hc] <;> simp [hwork]
  all_goals simp

/-- What FINISH leaves alone, whether it is rejected, overflows the sink or succeeds (R197, R200). -/
theorem execFinish_frame {s t : State} (h : execFinish s = .next t) :
    t.config = s.config ∧ t.encW = s.encW ∧ t.totalValues = s.totalValues ∧ t.rb = s.rb ∧
    t.decConsumed = s.decConsumed ∧ t.decProduced = s.decProduced ∧ t.inSpan = s.inSpan ∧ t.out = s.out ∧
    t.port = s.port := by
  rcases execFinish_cases s with ⟨-, he⟩ | ⟨-, -, he⟩ | ⟨-, -, -, -, he⟩ | ⟨-, -, -, he⟩ <;> rw [he] at h <;> cases h
  case inr.inr.inr =>
    have hwork := s.finishWork_frame
    rcases s.commit_cases s.finishWork.1 s.finishWork.2 (fun t => t.closeSession.setResult .ok) with
      ⟨-, hc⟩ | ⟨-, hc⟩ <;> rw [hc] <;> simp [hwork]
  all_goals simp

/-- What DECODE leaves alone, whether it fails or reaches the end: every encoder register and DEST (R41, R245). -/
theorem execDecode_frame {width : ValueWidth} {total len : Word} {s t : State}
    (h : execDecode width total len s = .next t) :
    t.config = s.config ∧ t.encState = s.encState ∧ t.encW = s.encW ∧ t.totalValues = s.totalValues ∧
    t.logicalIndex = s.logicalIndex ∧ t.pendingCount = s.pendingCount ∧ t.rb = s.rb ∧ t.mbw = s.mbw ∧
    t.outputCursor = s.outputCursor ∧ t.dest = s.dest ∧ t.inSpan = s.inSpan ∧ t.port = s.port := by
  rcases execDecode_cases width total len s with ⟨r, -, he⟩ | ⟨e, -, -, he⟩ | ⟨c, vs, -, -, he⟩ <;>
    rw [he] at h <;> cases h <;> simp

/-! ## The writers of the registers -/

/-- Which instructions may write which registers: by the frame of each command. -/
theorem exec_registerWriters {i : Instr} {s t : State} (h : exec i s = .next t) :
    t.config = s.config ∧
    ((∀ w total, i ≠ .init w total) → t.encW = s.encW ∧ t.totalValues = s.totalValues) ∧
    ((∀ w total len, i ≠ .decode w total len) →
      t.decConsumed = s.decConsumed ∧ t.decProduced = s.decProduced ∧ t.out = s.out) ∧
    ((∀ n slots, i ≠ .add n slots) → t.rb = s.rb) := by
  cases i with
  | init width total =>
    obtain ⟨hcfg, hrb, -, hcon, hprod, -, -, hout, -⟩ := execInit_frame h
    exact ⟨hcfg, fun hno => absurd rfl (hno width total), fun _ => ⟨hcon, hprod, hout⟩, fun _ => hrb⟩
  | add nslots slots =>
    obtain ⟨hcfg, hw, htot, hcon, hprod, -, hout, -⟩ := execAdd_frame h
    exact ⟨hcfg, fun _ => ⟨hw, htot⟩, fun _ => ⟨hcon, hprod, hout⟩, fun hno => absurd rfl (hno nslots slots)⟩
  | finish =>
    obtain ⟨hcfg, hw, htot, hrb, hcon, hprod, -, hout, -⟩ := execFinish_frame h
    exact ⟨hcfg, fun _ => ⟨hw, htot⟩, fun _ => ⟨hcon, hprod, hout⟩, fun _ => hrb⟩
  | decode width total len =>
    obtain ⟨hcfg, -, hw, htot, -, -, hrb, -⟩ := execDecode_frame h
    exact ⟨hcfg, fun _ => ⟨hw, htot⟩, fun hno => absurd rfl (hno width total len), fun _ => hrb⟩

/-- Settles O54: a command that decodes writes only its own registers, by `exec_registerWriters`; every other step (an
idle one, an illegal command, the host's two actions) writes none of them. -/
theorem registersWrittenByTheirCommands : Obligations.RegistersWrittenByTheirCommands := by
  intro s t h
  rcases step_cases h with
    ⟨-, rfl⟩ | ⟨c, rest, i, hport, hdec, hexec⟩ | ⟨c, rest, e, -, -, rfl⟩ | ⟨bytes, rest, -, rfl⟩ | ⟨rest, -, -, rfl⟩
  case inr.inl =>
    obtain ⟨hcfg, hinit, hdecode, hadd⟩ := exec_registerWriters hexec
    exact ⟨hcfg,
      fun hno => hinit fun w total hi => hno c rest w total hport (hi ▸ hdec),
      fun hno => hdecode fun w total len hi => hno c rest w total len hport (hi ▸ hdec),
      fun hno => hadd fun n slots hi => hno c rest n slots hport (hi ▸ hdec)⟩
  all_goals simp

end Sys2Proof.Machine
end

section
/-! SUPPORT. The invariant (R40, R196): it holds after reset, and every action of the host and every command keeps
it. ADD and FINISH share the facts of `State.WorkFrame`: what a command has left alone before its commit. -/

namespace Sys2Proof.Machine

/-! ## Result codes -/

/-- Every code of R261 is listed. -/
theorem ResultCode.code_mem (r : ResultCode) : r.code ∈ resultCodes := by
  cases r <;> decide

/-! ## Counts and flags as numbers -/

theorem State.hdrWritten_eq_false_iff (s : State) :
    s.hdrWritten = false ↔ s.logicalIndex = 0 ∧ s.encState ≠ .finished := by
  simp [State.hdrWritten]

theorem bitVec_toNat_eq_zero {w : Nat} {x : BitVec w} : x.toNat = 0 ↔ x = 0 := by
  simp [← BitVec.toNat_inj]

/-- Outside FINISHED the cursor is 0 exactly while no position is emitted (R35, R45). -/
theorem State.Inv.cursor_eq_zero_iff {s : State} (hs : s.Inv) (h : s.encState ≠ .finished) :
    s.outputCursor.toNat = 0 ↔ s.logicalIndex = 0 := by
  rw [bitVec_toNat_eq_zero, hs.header_cursor, State.hdrWritten_eq_false_iff]
  simp [h]

theorem State.sessionBits_le (s : State) : s.sessionBits ≤ 64 := by
  unfold State.sessionBits
  cases s.encW <;> decide

/-- A flush leaves MBW within its range (R38). -/
theorem State.afterFlush_mbw_le (s : State) (n : Nat) (m : Fin 4) : (s.afterFlush n).mbw[m].toNat ≤ 64 := by
  have hW := s.sessionBits_le
  have hmod := Nat.mod_lt (Config.freeMiniWidth s.freeCount m.val).toNat (Nat.zero_lt_succ s.sessionBits)
  simp only [State.afterFlush_mbw, Fin.getElem_fin, Vector.getElem_ofFn, BitVec.toNat_ofNat]
  exact (Nat.mod_le _ _).trans ((Nat.le_of_lt_succ hmod).trans hW)

/-! ## Actions and commands that commit nothing -/

theorem State.Inv.withPort {s : State} (hs : s.Inv) (actions : List HostAction) : (s.withPort actions).Inv :=
  { hs with }

theorem State.Inv.raise {s : State} (hs : s.Inv) (e : ResultCode) : (s.raise e).Inv :=
  { hs with result_code := e.code_mem }

theorem State.Inv.supplySpan {s : State} (hs : s.Inv) (bytes : List Byte) : (s.supplySpan bytes).Inv :=
  { hs with inSpan_wf := wf_supplied bytes s.freeCount }

theorem State.Inv.bindSpan {s : State} (hs : s.Inv) : s.bindSpan.Inv :=
  { hs with inSpan_wf := hs.dest_wf }

/-- An OPEN session that ends in ERROR keeps its counts and its cursor (R262). -/
theorem State.Inv.enterError {s : State} (hs : s.Inv) (hopen : s.encState = .opened) : s.enterError.Inv :=
  { hs with
    finished_pending := nofun
    finished_total := nofun
    logical_blocks := fun _ => hs.logical_blocks (by simp [hopen])
    header_cursor := by
      rw [State.enterError_outputCursor, hs.header_cursor, State.hdrWritten_eq_false_iff, State.hdrWritten_eq_false_iff]
      simp [hopen]
    idle_reset := nofun }

/-- INIT from any state (R190). -/
theorem State.Inv.openSession {s : State} (hs : s.Inv) (width : ValueWidth) (total : Word) :
    (s.openSession width total).Inv :=
  { hs with
    pending_le := Nat.zero_le _
    finished_pending := nofun
    finished_total := nofun
    logical_pending := fun _ => rfl
    accepted_le := Nat.zero_le _
    logical_blocks := fun _ h => absurd rfl h
    cursor_le := Nat.zero_le _
    header_cursor := ⟨fun _ => rfl, fun _ => rfl⟩
    idle_reset := nofun }

theorem State.Inv.decodeDone {s : State} (hs : s.Inv) {W : Nat} (consumed : Nat) (values : List (BitVec W)) :
    (s.decodeDone consumed values).Inv :=
  { hs with
    out_wf := OutMemory.wf_writeAll _ _ hs.out_wf
    result_code := ResultCode.ok.code_mem }

theorem State.Inv.decodeFailed {s : State} (hs : s.Inv) (width : ValueWidth) (total : Word) (e : DecFault) :
    (s.decodeFailed width total e).Inv :=
  { hs with
    out_wf := OutMemory.wf_forget _ _ _ _ hs.out_wf
    result_code := e.code.code_mem }

/-! ## Commands that commit -/

/-- What a command begun in the state `s` has left alone or kept in range when it reaches its commit in the state
`u`. -/
structure State.WorkFrame (s u : State) : Prop where
  config : u.config = s.config
  encState : u.encState = s.encState
  totalValues : u.totalValues = s.totalValues
  outputCursor : u.outputCursor = s.outputCursor
  dest : u.dest = s.dest
  inSpan : u.inSpan = s.inSpan
  out : u.out = s.out
  mbw_le : ∀ m : Fin 4, u.mbw[m].toNat ≤ 64

/-- A commit that overflows the sink keeps the invariant: the counts are those of the command's start (R197). -/
theorem State.WorkFrame.overflowSink {s u : State} (hf : s.WorkFrame u) (hs : s.Inv) (hopen : s.encState = .opened) :
    (s.overflowSink u).Inv := by
  have he := hs.enterError hopen
  exact {
    dest_wf := by simpa [hf.dest] using hs.dest_wf
    inSpan_wf := State.inMem_wf (s := s) (by simp [hf.inSpan]) (by simpa [hf.dest] using hs.dest_wf) hs.inSpan_wf
    out_wf := by simpa [hf.out] using hs.out_wf
    pending_le := hs.pending_le
    finished_pending := nofun
    finished_total := nofun
    logical_pending := hs.logical_pending
    accepted_le := by
      rw [State.overflowSink_totalValues, hf.totalValues]
      exact hs.accepted_le
    logical_blocks := fun _ => hs.logical_blocks (by simp [hopen])
    cursor_le := by simpa [hf.outputCursor, hf.config] using hs.cursor_le
    header_cursor := by
      rw [State.overflowSink_outputCursor, hf.outputCursor]
      exact he.header_cursor
    idle_reset := nofun
    mbw_le := hf.mbw_le
    result_code := ResultCode.errSinkOverflow.code_mem }

/-- The cursor after a commit that fits. -/
theorem State.WorkFrame.cursor {s u : State} (hf : s.WorkFrame u) {output : List Byte}
    (hfit : s.fits output = true) :
    (u.commitBytes output).outputCursor.toNat = s.outputCursor.toNat + output.length := by
  rw [State.commitBytes_outputCursor, hf.outputCursor]
  exact s.cursor_commitBytes output hfit

/-- The memories keep their canonical form and the cursor stays within DEST_CAP over a commit that fits (R197). -/
theorem State.WorkFrame.commitBytes {s u : State} (hf : s.WorkFrame u) (hs : s.Inv) {output : List Byte}
    (hfit : s.fits output = true) :
    (u.commitBytes output).dest.wf = true ∧ (u.commitBytes output).inMem.wf = true ∧
    (u.commitBytes output).out.wf = true ∧
    (u.commitBytes output).outputCursor.toNat ≤ (u.commitBytes output).config.sinkLimit := by
  have hdest : (u.commitBytes output).dest.wf = true := by
    rw [State.commitBytes_dest, hf.dest]
    exact Memory.wf_writeBytes _ _ _ hs.dest_wf
  refine ⟨hdest, State.inMem_wf (s := s) hf.inSpan hdest hs.inSpan_wf, ?_, ?_⟩
  · rw [State.commitBytes_out, hf.out]
    exact hs.out_wf
  · rw [hf.cursor hfit, State.commitBytes_config, hf.config]
    exact (s.fits_iff output).1 hfit

/-- The commit of an ADD, from what its work has done to the counts. -/
theorem State.Inv.commitAdd {s u : State} {output : List Byte} (hs : s.Inv) (hopen : s.encState = .opened)
    (hf : s.WorkFrame u) (hfit : s.fits output = true) (hpend : u.pendingCount.toNat ≤ 127)
    (hlogical : u.logicalIndex = 0 → u.pendingCount = 0) (hacc : u.accepted ≤ s.totalValues.toNat)
    (hblocks : u.logicalIndex ≠ 0 → u.logicalIndex.toNat % 128 = 1)
    (hheader : u.logicalIndex = 0 ↔ s.logicalIndex = 0 ∧ output = []) :
    ((u.commitBytes output).setResult .ok).Inv := by
  obtain ⟨hdest, hspan, hout, hcap⟩ := hf.commitBytes hs hfit
  have hu : u.encState = .opened := hf.encState.trans hopen
  have hcursor := hs.cursor_eq_zero_iff (by simp [hopen])
  exact {
    dest_wf := hdest
    inSpan_wf := hspan
    out_wf := hout
    pending_le := hpend
    finished_pending := fun h => by simp [hu] at h
    finished_total := fun h => by simp [hu] at h
    logical_pending := hlogical
    accepted_le := hacc.trans_eq (congrArg BitVec.toNat hf.totalValues.symm)
    logical_blocks := fun _ => hblocks
    cursor_le := hcap
    header_cursor := by
      rw [← bitVec_toNat_eq_zero, State.setResult_outputCursor, hf.cursor hfit, State.hdrWritten_eq_false_iff,
        Nat.add_eq_zero_iff, hcursor, List.length_eq_zero_iff, ← hheader]
      simp [hu]
    idle_reset := fun h => by simp [hu] at h
    mbw_le := hf.mbw_le
    result_code := ResultCode.ok.code_mem }

/-- The commit of a FINISH, with every declared value emitted and the header in DEST (R199, R200). -/
theorem State.Inv.commitFinish {s u : State} {output : List Byte} (hs : s.Inv)
    (hf : s.WorkFrame u) (hfit : s.fits output = true) (hpend : u.pendingCount = 0)
    (hacc : u.accepted = s.totalValues.toNat) (hheader : 0 < s.outputCursor.toNat + output.length) :
    ((u.commitBytes output).closeSession.setResult .ok).Inv := by
  obtain ⟨hdest, hspan, hout, hcap⟩ := hf.commitBytes hs hfit
  have htotal := hacc.trans (congrArg BitVec.toNat hf.totalValues.symm)
  exact {
    dest_wf := hdest
    inSpan_wf := hspan
    out_wf := hout
    pending_le := by simp [hpend]
    finished_pending := fun _ => hpend
    finished_total := fun _ => htotal
    logical_pending := fun _ => hpend
    accepted_le := htotal.le
    logical_blocks := fun h => absurd rfl h
    cursor_le := hcap
    header_cursor := by
      rw [← bitVec_toNat_eq_zero, State.setResult_outputCursor, State.closeSession_outputCursor, hf.cursor hfit,
        State.hdrWritten_eq_false_iff]
      exact ⟨fun h => absurd h hheader.ne', fun h => absurd rfl h.2⟩
    idle_reset := nofun
    mbw_le := hf.mbw_le
    result_code := ResultCode.ok.code_mem }

/-! ## The work of ADD and FINISH -/

theorem State.Inv.addWork_workFrame {s : State} (hs : s.Inv) (vals : List Word) (hv : vals.length ≤ 128) :
    s.WorkFrame (s.addWork vals).1 := by
  obtain ⟨hcfg, henc, -, htot, -, hcur, -, -, -, hdest, hspan, hout, -⟩ := s.addWork_frame vals
  refine ⟨hcfg, henc, htot, hcur, hdest, hspan, hout, ?_⟩
  rcases s.addWork_cases vals hs.pending_le hs.logical_pending hv with ⟨-, -, h⟩ | ⟨-, -, h⟩ | ⟨-, -, h⟩ <;> rw [h]
  · exact hs.mbw_le
  · exact hs.mbw_le
  · exact (s.appendValues vals).afterFlush_mbw_le 128

theorem State.Inv.finishWork_workFrame {s : State} (hs : s.Inv) : s.WorkFrame s.finishWork.1 := by
  obtain ⟨hcfg, henc, -, htot, -, hcur, -, -, -, hdest, hspan, hout, -⟩ := s.finishWork_frame
  refine ⟨hcfg, henc, htot, hcur, hdest, hspan, hout, ?_⟩
  rcases s.finishWork_cases with ⟨-, h⟩ | ⟨-, h⟩ <;> rw [h]
  · exact hs.mbw_le
  · exact s.afterFlush_mbw_le _

theorem State.takeHeader_pending {s : State} (h : 1 ≤ s.pendingCount.toNat) :
    s.takeHeader.pendingCount.toNat = s.pendingCount.toNat - 1 :=
  BitVec.toNat_sub_of_le h

/-- The counts after ADD's work, in each of its three cases: the accepted values grow by the chunk, fewer than 128
stay pending, and LOGICAL_INDEX stays at the start of a block (R40, R196). -/
theorem State.Inv.addWork_counts {s : State} (hs : s.Inv) (hopen : s.encState = .opened) {vals : List Word}
    (hv : vals.length ≤ 128) (hT : s.accepted + vals.length ≤ s.totalValues.toNat) :
    (s.addWork vals).1.accepted = s.accepted + vals.length ∧ (s.addWork vals).1.pendingCount.toNat ≤ 127 ∧
    ((s.addWork vals).1.logicalIndex = 0 → (s.addWork vals).1.pendingCount = 0) ∧
    ((s.addWork vals).1.logicalIndex ≠ 0 → (s.addWork vals).1.logicalIndex.toNat % 128 = 1) ∧
    ((s.addWork vals).1.logicalIndex = 0 ↔ s.logicalIndex = 0 ∧ (s.addWork vals).2 = []) := by
  have hp := hs.pending_le
  have happ := State.pending_appendValues (s := s) (vals := vals) (by omega)
  have hblocks := hs.logical_blocks (by simp [hopen])
  have hT64 := s.totalValues.isLt
  unfold State.accepted at hT ⊢
  rcases s.addWork_cases vals hs.pending_le hs.logical_pending hv with ⟨hL, hlt, h⟩ | ⟨hL, hne, h⟩ | ⟨hL, hge, h⟩ <;>
    rw [h]
  · dsimp only
    refine ⟨by rw [happ, State.appendValues_logicalIndex]; omega, by omega, fun h0 => ?_, hblocks, by simp⟩
    rw [State.appendValues_logicalIndex] at h0
    rw [← bitVec_toNat_eq_zero, happ, hs.logical_pending h0, hL.resolve_left (not_not.2 h0)]
    rfl
  · have hk := List.length_pos_iff.2 hne
    have hp0 : s.pendingCount.toNat = 0 := by simp [hs.logical_pending hL]
    have hpu := State.takeHeader_pending (s := s.appendValues vals) (by omega)
    have hout := streamHeader_length_ge s.totalValues ((s.appendValues vals).rbValue 0)
    have hone : (1 : Word).toNat = 1 := rfl
    have hzero : (0 : Word).toNat = 0 := rfl
    dsimp only
    rw [State.takeHeader_logicalIndex, hpu, happ, hL]
    refine ⟨by omega, by omega, by simp, by simp, iff_of_false (by simp) fun h0 => ?_⟩
    rw [h0.2, List.length_nil] at hout
    omega
  · have hLu := State.afterFlush_logical (s := s.appendValues vals) (n := 128)
      (by rw [State.appendValues_logicalIndex]; omega)
    have hpu := State.afterFlush_pending (s := s.appendValues vals) (n := 128) (by omega)
    have hne : ((s.appendValues vals).afterFlush 128).logicalIndex ≠ 0 := by
      rw [Ne, ← bitVec_toNat_eq_zero, hLu]
      omega
    rw [State.appendValues_logicalIndex] at hLu
    simp only [State.flush]
    refine ⟨by omega, by omega, fun h0 => absurd h0 hne, fun _ => ?_, iff_of_false hne fun h0 => hL h0.1⟩
    have := hblocks hL
    omega

/-- The counts after FINISH's work, where FLUSH's operands are in range: nothing is pending and every accepted value
is emitted, with the header in the output list or in DEST already (R199, R200). -/
theorem State.Inv.finishWork_counts {s : State} (hs : s.Inv) (hopen : s.encState = .opened)
    (hflush : 0 < s.pendingCount.toNat → s.flushable s.pendingCount.toNat = true) :
    s.finishWork.1.pendingCount = 0 ∧ s.finishWork.1.accepted = s.accepted ∧
    0 < s.outputCursor.toNat + s.finishWork.2.length := by
  have hcursor := hs.cursor_eq_zero_iff (by simp [hopen])
  rcases s.finishWork_cases with ⟨hp, h⟩ | ⟨hp, h⟩ <;> rw [h] <;> dsimp only
  · refine ⟨bitVec_toNat_eq_zero.1 hp, rfl, ?_⟩
    by_cases hL : s.logicalIndex = 0
    · have := streamHeader_length_ge s.totalValues (0 : BitVec s.sessionBits)
      rw [if_pos hL]
      omega
    · have := hcursor.not.2 hL
      omega
  · obtain ⟨-, -, -, hL⟩ := (s.flushable_iff _).1 (hflush hp)
    have hacc := hs.accepted_le
    have hT64 := s.totalValues.isLt
    have hpu := State.afterFlush_pending (le_refl s.pendingCount.toNat)
    have hL0 : s.outputCursor.toNat ≠ 0 := hcursor.not.2 fun h0 => by simp [h0] at hL
    unfold State.accepted at hacc ⊢
    have hLu := State.afterFlush_logical (s := s) (n := s.pendingCount.toNat) (by omega)
    exact ⟨bitVec_toNat_eq_zero.1 (by omega), by omega, by omega⟩

/-! ## Every command and every step -/

theorem State.Inv.execAdd {nslots : BitVec 8} {slots : List Slot} {s t : State} (hs : s.Inv)
    (h : execAdd nslots slots s = .next t) : t.Inv := by
  rcases execAdd_cases nslots slots s with ⟨-, he⟩ | ⟨-, -, he⟩ | ⟨hopen, -, -, he⟩ | ⟨hopen, hn, hT, he⟩ <;>
    rw [he] at h <;> cases h
  · exact hs.raise _
  · exact hs.raise _
  · exact (hs.enterError hopen).raise _
  · have hv := (chunkValues_length_le s.encW nslots slots).trans hn
    have hf := hs.addWork_workFrame _ hv
    obtain ⟨hacc, hpend, hlogical, hblocks, hheader⟩ := hs.addWork_counts hopen hv hT
    rcases s.commit_cases (s.addWork (chunkValues s.encW nslots slots)).1
      (s.addWork (chunkValues s.encW nslots slots)).2 (fun t => t.setResult .ok) with ⟨hfit, hc⟩ | ⟨-, hc⟩ <;> rw [hc]
    · exact hs.commitAdd hopen hf hfit hpend hlogical (hacc.trans_le hT) hblocks hheader
    · exact hf.overflowSink hs hopen

theorem State.Inv.execFinish {s t : State} (hs : s.Inv) (h : execFinish s = .next t) : t.Inv := by
  rcases execFinish_cases s with ⟨-, he⟩ | ⟨hopen, -, he⟩ | ⟨-, -, -, -, he⟩ | ⟨hopen, hT, hflush, he⟩ <;>
    rw [he] at h <;> cases h
  · exact hs.raise _
  · exact (hs.enterError hopen).raise _
  · have hf := hs.finishWork_workFrame
    obtain ⟨hpend, hacc, hheader⟩ := hs.finishWork_counts hopen hflush
    rcases s.commit_cases s.finishWork.1 s.finishWork.2 (fun t => t.closeSession.setResult .ok) with
      ⟨hfit, hc⟩ | ⟨-, hc⟩ <;> rw [hc]
    · exact hs.commitFinish hf hfit hpend (hacc.trans (hs.accepted_le.antisymm hT)) hheader
    · exact hf.overflowSink hs hopen

theorem State.Inv.execDecode {width : ValueWidth} {total len : Word} {s t : State} (hs : s.Inv)
    (h : execDecode width total len s = .next t) : t.Inv := by
  rcases execDecode_cases width total len s with ⟨r, -, he⟩ | ⟨e, -, -, he⟩ | ⟨c, vs, -, -, he⟩ <;>
    rw [he] at h <;> cases h
  · exact hs.decodeFailed width total e
  · exact hs.decodeDone c vs

theorem State.Inv.exec {i : Instr} {s t : State} (hs : s.Inv) (h : exec i s = .next t) : t.Inv := by
  cases i with
  | init width total =>
    cases h
    exact (hs.openSession width total).raise .ok
  | add nslots slots => exact hs.execAdd h
  | finish => exact hs.execFinish h
  | decode width total len => exact hs.execDecode h

/-- Settles O11: every command keeps the invariant (`State.Inv.exec`), and so do an idle step, an illegal command and
the host's two actions. -/
theorem stepKeepsInvariant : Obligations.StepKeepsInvariant := by
  intro s t hs h
  rcases step_cases h with
    ⟨-, rfl⟩ | ⟨c, rest, i, -, -, hexec⟩ | ⟨c, rest, e, -, -, rfl⟩ | ⟨bytes, rest, -, rfl⟩ | ⟨rest, -, -, rfl⟩
  · exact hs
  · exact (hs.withPort rest).exec hexec
  · exact (hs.withPort rest).raise .errIllegalCmd
  · exact (hs.withPort rest).supplySpan bytes
  · exact (hs.withPort rest).bindSpan

/-- Settles O10: each clause at reset, where the contents of RB and MBW are free. -/
theorem resetMeetsInvariant : Obligations.ResetMeetsInvariant := by
  intro config rb mbw hmbw
  exact {
    dest_wf := rfl
    inSpan_wf := rfl
    out_wf := rfl
    pending_le := Nat.zero_le _
    finished_pending := nofun
    finished_total := nofun
    logical_pending := fun _ => rfl
    accepted_le := Nat.zero_le _
    logical_blocks := fun _ h => absurd rfl h
    cursor_le := Nat.zero_le _
    header_cursor := ⟨fun _ => rfl, fun _ => rfl⟩
    idle_reset := fun _ => ⟨rfl, rfl, rfl⟩
    mbw_le := hmbw
    result_code := ResultCode.ok.code_mem }

end Sys2Proof.Machine
end

section
/-! SUPPORT. What every command does to ENC_STATE and RESULT (R32, R42, R261), where it writes DEST (R39, R60, R197),
and what the register map reads (R44, R45). -/

namespace Sys2Proof.Machine

/-! ## ENC_STATE and RESULT -/

/-- A step with a legal command next answers what its instruction answers. -/
theorem exec_of_step {s t : State} {c : Command} {rest : List HostAction} {i : Instr}
    (hport : s.port = .command c :: rest) (hdec : decode c = .ok i) (h : step s = .next t) :
    exec i (s.withPort rest) = .next t := by
  rw [step_command hport, hdec] at h
  exact h

/-- ENC_STATE and RESULT after an ADD (R191, R193, R197). -/
theorem execAdd_result {nslots : BitVec 8} {slots : List Slot} {s t : State} (h : execAdd nslots slots s = .next t) :
    (s.encState ≠ .opened ∧ t.encState = s.encState ∧ t.result = ResultCode.errSequence.code) ∨
    (s.encState = .opened ∧
      (t.encState = .opened ∧ (t.result = ResultCode.ok.code ∨ t.result = ResultCode.errBatchSize.code) ∨
        t.encState = .error ∧
          (t.result = ResultCode.errOvercount.code ∨ t.result = ResultCode.errSinkOverflow.code))) := by
  rcases execAdd_cases nslots slots s with ⟨hno, he⟩ | ⟨hopen, -, he⟩ | ⟨hopen, -, -, he⟩ | ⟨hopen, -, -, he⟩ <;>
    rw [he] at h <;> cases h
  · simp [hno]
  · simp [hopen]
  · simp [hopen]
  · obtain ⟨-, henc, -⟩ := s.addWork_frame (chunkValues s.encW nslots slots)
    rcases s.commit_cases (s.addWork (chunkValues s.encW nslots slots)).1
      (s.addWork (chunkValues s.encW nslots slots)).2 (fun t => t.setResult .ok) with ⟨-, hc⟩ | ⟨-, hc⟩ <;>
      rw [hc] <;> simp [hopen, henc]

/-- ENC_STATE and RESULT after a FINISH (R198, R200). -/
theorem execFinish_result {s t : State} (h : execFinish s = .next t) :
    (s.encState ≠ .opened ∧ t.encState = s.encState ∧ t.result = ResultCode.errSequence.code) ∨
    (s.encState = .opened ∧
      (t.encState = .finished ∧ t.result = ResultCode.ok.code ∨
        t.encState = .error ∧
          (t.result = ResultCode.errUndercount.code ∨ t.result = ResultCode.errSinkOverflow.code))) := by
  rcases execFinish_cases s with ⟨hno, he⟩ | ⟨hopen, -, he⟩ | ⟨-, -, -, -, he⟩ | ⟨hopen, -, -, he⟩ <;>
    rw [he] at h <;> cases h
  · simp [hno]
  · simp [hopen]
  · rcases s.commit_cases s.finishWork.1 s.finishWork.2 (fun t => t.closeSession.setResult .ok) with
      ⟨-, hc⟩ | ⟨-, hc⟩ <;> rw [hc] <;> simp [hopen]

/-- RESULT after a DECODE (R245). -/
theorem execDecode_result {width : ValueWidth} {total len : Word} {s t : State}
    (h : execDecode width total len s = .next t) : ∃ r : ResultCode, t.result = r.code := by
  rcases execDecode_cases width total len s with ⟨r, -, he⟩ | ⟨e, -, -, he⟩ | ⟨c, vs, -, -, he⟩ <;>
    rw [he] at h <;> cases h
  · exact ⟨e.code, rfl⟩
  · exact ⟨.ok, rfl⟩

/-- Outside OPEN only an INIT moves ENC_STATE (R32). -/
theorem exec_encState_of_not_opened {i : Instr} {s t : State} (hno : ∀ w total, i ≠ .init w total)
    (hs : s.encState ≠ .opened) (h : exec i s = .next t) : t.encState = s.encState := by
  cases i with
  | init width total => exact absurd rfl (hno width total)
  | add nslots slots =>
    rcases execAdd_result h with ⟨-, henc, -⟩ | ⟨hopen, -⟩
    · exact henc
    · exact absurd hopen hs
  | finish =>
    rcases execFinish_result h with ⟨-, henc, -⟩ | ⟨hopen, -⟩
    · exact henc
    · exact absurd hopen hs
  | decode width total len =>
    obtain ⟨-, henc, -⟩ := execDecode_frame h
    exact henc

/-- Settles O52: the clauses on ADD and FINISH from OPEN by the pairs of ENC_STATE and RESULT they end with; the
clauses on what keeps ENC_STATE over every kind of step. -/
theorem encStateTransitions : Obligations.EncStateTransitions := by
  refine ⟨⟨rfl, rfl, rfl, rfl⟩, fun s t h => ⟨?_, ?_, ?_, ?_, ?_⟩⟩
  · intro c rest w total hport hdec
    cases exec_of_step hport hdec h
    rfl
  · intro c rest n slots hport hdec hopen
    rcases execAdd_result (exec_of_step hport hdec h) with
      ⟨hno, -⟩ | ⟨-, ⟨henc, hr | hr⟩ | ⟨henc, hr | hr⟩⟩
    · exact absurd hopen hno
    all_goals simp [henc, hr, ResultCode.code]
  · intro c rest hport hdec hopen
    rcases execFinish_result (exec_of_step hport hdec h) with ⟨hno, -⟩ | ⟨-, ⟨henc, hr⟩ | ⟨henc, hr | hr⟩⟩
    · exact absurd hopen hno
    all_goals simp [henc, hr, ResultCode.code]
  · intro hno hs
    rcases step_cases h with
      ⟨-, rfl⟩ | ⟨c, rest, i, hport, hdec, hexec⟩ | ⟨c, rest, e, -, -, rfl⟩ | ⟨bytes, rest, -, rfl⟩ | ⟨rest, -, -, rfl⟩
    case inr.inl =>
      exact exec_encState_of_not_opened (fun w total hi => hno c rest w total hport (hi ▸ hdec))
        (s := s.withPort rest) hs hexec
    all_goals simp
  · intro hdecode
    rcases step_cases h with
      ⟨-, rfl⟩ | ⟨c, rest, i, hport, hdec, hexec⟩ | ⟨c, rest, e, -, -, rfl⟩ | ⟨bytes, rest, -, rfl⟩ | ⟨rest, -, -, rfl⟩
    case inr.inl =>
      obtain ⟨w, total, len, rfl⟩ := hdecode c rest i hport hdec
      obtain ⟨-, henc, -⟩ := execDecode_frame hexec
      exact henc
    all_goals simp

/-! ## RESULT is written by every command -/

/-- Every instruction that answers a next state leaves a listed code in RESULT (R42, R261). -/
theorem exec_result_mem {i : Instr} {s t : State} (h : exec i s = .next t) : t.result ∈ resultCodes := by
  have hcode : ∃ r : ResultCode, t.result = r.code := by
    cases i with
    | init width total =>
      cases h
      exact ⟨.ok, rfl⟩
    | add nslots slots =>
      rcases execAdd_result h with ⟨-, -, hr⟩ | ⟨-, ⟨-, hr | hr⟩ | ⟨-, hr | hr⟩⟩ <;> exact ⟨_, hr⟩
    | finish =>
      rcases execFinish_result h with ⟨-, -, hr⟩ | ⟨-, ⟨-, hr⟩ | ⟨-, hr | hr⟩⟩ <;> exact ⟨_, hr⟩
    | decode width total len => exact execDecode_result h
  obtain ⟨r, hr⟩ := hcode
  exact hr ▸ r.code_mem

/-- `s` with other contents of RESULT. -/
def State.withResult (s : State) (r : BitVec 8) : State := { s with result := r }

theorem State.headerStep_withResult (s : State) (r : BitVec 8) :
    (s.withResult r).headerStep = Prod.map (·.withResult r) id s.headerStep := by
  by_cases h : s.logicalIndex = 0 ∧ 1 ≤ s.pendingCount.toNat
  · rw [State.headerStep_taken h.1 h.2, State.headerStep_taken (s := s.withResult r) h.1 h.2]
    rfl
  · have hnot : s.logicalIndex ≠ 0 ∨ s.pendingCount.toNat = 0 :=
      (not_and_or.1 h).imp_right fun hp => by omega
    rw [State.headerStep_not hnot, State.headerStep_not (s := s.withResult r) hnot]
    rfl

theorem State.fullBlockStep_withResult (s : State) (r : BitVec 8) :
    (s.withResult r).fullBlockStep = Prod.map (·.withResult r) id s.fullBlockStep := by
  rcases Nat.lt_or_ge s.pendingCount.toNat 128 with h | h
  · rw [State.fullBlockStep_not h, State.fullBlockStep_not (s := s.withResult r) h]
    rfl
  · rw [State.fullBlockStep_taken h, State.fullBlockStep_taken (s := s.withResult r) h]
    rfl

theorem State.addWork_withResult (s : State) (r : BitVec 8) (vals : List Word) :
    (s.withResult r).addWork vals = Prod.map (·.withResult r) id (s.addWork vals) := by
  have happ : (s.withResult r).appendValues vals = (s.appendValues vals).withResult r := rfl
  simp only [State.addWork, happ, State.headerStep_withResult, State.fullBlockStep_withResult, Prod.map_fst,
    Prod.map_snd, Prod.map_apply, id]

theorem State.finishWork_withResult (s : State) (r : BitVec 8) :
    (s.withResult r).finishWork = Prod.map (·.withResult r) id s.finishWork := by
  unfold State.finishWork
  by_cases h : 0 < s.pendingCount.toNat
  · rw [if_pos h, if_pos (show 0 < (s.withResult r).pendingCount.toNat from h)]
    rfl
  · rw [if_neg h, if_neg (show ¬0 < (s.withResult r).pendingCount.toNat from h)]
    rfl

/-- A commit whose command goes on to write RESULT does not depend on what it held. -/
theorem State.commit_withResult (s work : State) (output : List Byte) {finish : State → State} (r : BitVec 8)
    (hfinish : ∀ u : State, finish (u.withResult r) = finish u) :
    (s.withResult r).commit (work.withResult r) output finish = s.commit work output finish := by
  have hcommit : finish ((work.withResult r).commitBytes output) = finish (work.commitBytes output) :=
    hfinish (work.commitBytes output)
  unfold State.commit
  rw [hcommit]
  rfl

/-- No instruction depends on what RESULT holds (R42). -/
theorem exec_withResult (i : Instr) (s : State) (r : BitVec 8) : exec i (s.withResult r) = exec i s := by
  cases i with
  | init width total => rfl
  | add nslots slots =>
    simp only [exec, execAdd]
    rw [State.addWork_withResult, Prod.map_fst, State.commit_withResult _ _ _ _ (fun _ => rfl)]
    rfl
  | finish =>
    simp only [exec, execFinish]
    rw [State.finishWork_withResult, Prod.map_fst, State.commit_withResult _ _ _ _ (fun _ => rfl)]
    rfl
  | decode width total len => rfl

/-- Settles O56: by `exec_withResult` and `exec_result_mem` for a legal command; an illegal one writes its code. -/
theorem everyCommandWritesResult : Obligations.EveryCommandWritesResult := by
  intro s c rest r hport
  have hstep := step_command hport
  have hstepR := step_command (s := { s with result := r }) hport
  cases hdec : decode c with
  | ok i =>
    rw [hdec] at hstep hstepR
    exact ⟨hstepR.trans ((exec_withResult i (s.withPort rest) r).trans hstep.symm),
      fun t h => exec_result_mem (exec_of_step hport hdec h)⟩
  | error e =>
    rw [hdec] at hstep hstepR
    refine ⟨hstepR.trans hstep.symm, fun t h => ?_⟩
    cases hstep.symm.trans h
    exact ResultCode.errIllegalCmd.code_mem

/-! ## DEST and its cursor -/

/-- From `s` to `t` the cursor has moved on, and DEST has been written at exactly the offsets it passed. -/
structure State.DestGrows (s t : State) : Prop where
  cursor_le : s.outputCursor.toNat ≤ t.outputCursor.toNat
  outside : ∀ a, a < s.outputCursor.toNat ∨ t.outputCursor.toNat ≤ a → t.dest.read a = s.dest.read a
  inside : ∀ a, s.outputCursor.toNat ≤ a → a < t.outputCursor.toNat → (t.dest.read? a).isSome = true

theorem State.DestGrows.of_unchanged {s t : State} (hdest : t.dest = s.dest)
    (hcursor : t.outputCursor = s.outputCursor) : s.DestGrows t where
  cursor_le := by rw [hcursor]
  outside a _ := by rw [hdest]
  inside a h1 h2 := by
    rw [hcursor] at h2
    omega

/-- A commit writes its output list at the cursor or, when that does not fit, nothing (R197). -/
theorem State.commit_destGrows {s work : State} (hdest : work.dest = s.dest)
    (hcursor : work.outputCursor = s.outputCursor) (output : List Byte) {finish : State → State}
    (hfinish : ∀ u : State, (finish u).dest = u.dest ∧ (finish u).outputCursor = u.outputCursor) :
    s.DestGrows (s.commit work output finish) := by
  rcases s.commit_cases work output finish with ⟨hfit, hc⟩ | ⟨-, hc⟩ <;> rw [hc]
  · obtain ⟨hd, hcur⟩ := hfinish (work.commitBytes output)
    rw [State.commitBytes_dest, hdest, hcursor] at hd
    rw [State.commitBytes_outputCursor, hcursor] at hcur
    have hend : (finish (work.commitBytes output)).outputCursor.toNat = s.outputCursor.toNat + output.length := by
      rw [hcur, s.cursor_commitBytes output hfit]
    refine ⟨by omega, fun a ha => ?_, fun a h1 h2 => ?_⟩
    · rw [hd]
      exact Memory.read_writeBytes_of_outside _ _ _ _ (by omega)
    · rw [hd, Memory.read?_writeBytes, if_pos (by omega), List.getElem?_eq_getElem (by omega)]
      rfl
  · exact .of_unchanged hdest hcursor

theorem execAdd_destGrows {nslots : BitVec 8} {slots : List Slot} {s t : State}
    (h : execAdd nslots slots s = .next t) : s.DestGrows t := by
  obtain ⟨-, -, -, -, -, hcursor, -, -, -, hdest, -⟩ := s.addWork_frame (chunkValues s.encW nslots slots)
  rcases execAdd_cases nslots slots s with ⟨-, he⟩ | ⟨-, -, he⟩ | ⟨-, -, -, he⟩ | ⟨-, -, -, he⟩ <;>
    rw [he] at h <;> cases h
  case inr.inr.inr => exact State.commit_destGrows hdest hcursor _ fun _ => ⟨rfl, rfl⟩
  all_goals exact .of_unchanged rfl rfl

theorem execFinish_destGrows {s t : State} (h : execFinish s = .next t) : s.DestGrows t := by
  obtain ⟨-, -, -, -, -, hcursor, -, -, -, hdest, -⟩ := s.finishWork_frame
  rcases execFinish_cases s with ⟨-, he⟩ | ⟨-, -, he⟩ | ⟨-, -, -, -, he⟩ | ⟨-, -, -, he⟩ <;> rw [he] at h <;> cases h
  case inr.inr.inr => exact State.commit_destGrows hdest hcursor _ fun _ => ⟨rfl, rfl⟩
  all_goals exact .of_unchanged rfl rfl

/-- Every instruction but INIT writes DEST only past the cursor (R39, R60). -/
theorem exec_destGrows {i : Instr} {s t : State} (hno : ∀ w total, i ≠ .init w total) (h : exec i s = .next t) :
    s.DestGrows t := by
  cases i with
  | init width total => exact absurd rfl (hno width total)
  | add nslots slots => exact execAdd_destGrows h
  | finish => exact execFinish_destGrows h
  | decode width total len =>
    obtain ⟨-, -, -, -, -, -, -, -, hcursor, hdest, -⟩ := execDecode_frame h
    exact .of_unchanged hdest hcursor

theorem step_destGrows {s t : State} (h : step s = .next t)
    (hno : ∀ c rest w total, s.port = .command c :: rest → decode c ≠ .ok (.init w total)) : s.DestGrows t := by
  rcases step_cases h with
    ⟨-, rfl⟩ | ⟨c, rest, i, hport, hdec, hexec⟩ | ⟨c, rest, e, -, -, rfl⟩ | ⟨bytes, rest, -, rfl⟩ | ⟨rest, -, -, rfl⟩
  case inr.inl =>
    obtain ⟨hle, houtside, hinside⟩ :=
      exec_destGrows (fun w total hi => hno c rest w total hport (hi ▸ hdec)) hexec
    exact ⟨hle, houtside, hinside⟩
  all_goals exact .of_unchanged rfl rfl

/-- Settles O55: an INIT leaves DEST and puts the cursor at 0, so it passes no offset; every other step by
`step_destGrows`. -/
theorem destWrittenOnlyAtCursor : Obligations.DestWrittenOnlyAtCursor := by
  intro s t h
  by_cases hinit : ∃ c rest w total, s.port = .command c :: rest ∧ decode c = .ok (.init w total)
  · obtain ⟨c, rest, w, total, hport, hdec⟩ := hinit
    cases exec_of_step hport hdec h
    exact ⟨fun hno => absurd hdec (hno c rest w total hport), fun _ _ => rfl,
      fun a _ ha => absurd ha (Nat.not_lt_zero a)⟩
  · have hno : ∀ c rest w total, s.port = .command c :: rest → decode c ≠ .ok (.init w total) :=
      fun c rest w total hport hdec => hinit ⟨c, rest, w, total, hport, hdec⟩
    obtain ⟨hle, houtside, hinside⟩ := step_destGrows h hno
    exact ⟨fun _ => hle, houtside, hinside⟩

/-! ## The register map -/

/-- Settles O58: one equation per register number. -/
theorem registerMap : Obligations.RegisterMap := by
  intro s
  have hpending : (s.readRegister 4).toNat = s.pendingCount.toNat :=
    BitVec.toNat_setWidth_of_le (by decide)
  refine ⟨rfl, rfl, rfl, rfl, hpending, rfl, rfl, fun n hn => ?_⟩
  obtain ⟨k, rfl⟩ := Nat.exists_eq_add_of_le' hn
  rfl

/-- Settles O57: each field is the part of `statusWord` at its offset. -/
theorem statusFields : Obligations.StatusFields := by
  intro s
  have hstatus : s.readRegister 0 = s.statusWord := rfl
  have hhdr : s.statusWord.getLsbD 2 = s.hdrWritten := by
    unfold State.statusWord
    rw [BitVec.getLsbD_append, BitVec.getLsbD_append]
    simp
  rw [hstatus, hhdr]
  refine ⟨?_, by simp [State.hdrWritten], ?_⟩
  · exact (BitVec.extractLsb'_append_eq_of_add_le (by decide)).trans BitVec.extractLsb'_eq_self
  · unfold State.statusWord
    simp (disch := decide) only [BitVec.extractLsb'_append_eq_of_le, BitVec.extractLsb'_append_eq_of_add_le]
    exact ⟨BitVec.extractLsb'_eq_self, BitVec.extractLsb'_eq_self, BitVec.extractLsb'_eq_self,
      BitVec.extractLsb'_eq_self⟩

end Sys2Proof.Machine
end

section
/-! SUPPORT. A session against the values it has accepted (R40 (a), (e), R201, R202): the rolling buffer holds the live
positions, the stream's header and blocks do not change as values are appended, and a commit extends what DEST holds. -/

namespace Sys2Proof.Machine

/-! ## Values and blocks of a growing stream -/

@[simp] theorem atWidth_length (W : Nat) (vals : List Word) : (atWidth W vals).length = vals.length :=
  List.length_map _

theorem atWidth_append (W : Nat) (vals new : List Word) :
    atWidth W (vals ++ new) = atWidth W vals ++ atWidth W new :=
  List.map_append

theorem streamValue_atWidth {W : Nat} {vals : List Word} {p : Nat} (hp : p < vals.length) :
    streamValue (atWidth W vals) p = vals[p].setWidth W := by
  unfold streamValue atWidth
  rw [List.getD_eq_getElem _ _ (by simpa using hp), List.getElem_map]

theorem streamValue_append {W : Nat} {vs ws : List (BitVec W)} {p : Nat} (hp : p < vs.length) :
    streamValue (vs ++ ws) p = streamValue vs p := by
  unfold streamValue
  rw [List.getD_append _ _ _ _ hp]

/-- A block depends only on the values from the one before it to its last one (R161). -/
theorem blockBytes_congr {W : Nat} {v v' : Nat → BitVec W} {L n : Nat}
    (h : ∀ p, L - 1 ≤ p → p < L + n → v p = v' p) : blockBytes v L n = blockBytes v' L n := by
  have hdeltas : blockDeltas v L n = blockDeltas v' L n := by
    unfold blockDeltas
    refine List.map_congr_left fun i _ => ?_
    split
    · rw [h (L + i) (by omega) (by omega), h (L + i - 1) (by omega) (by omega)]
    · rfl
  unfold blockBytes
  rw [hdeltas]

theorem blockLength_full {t k : Nat} (h : 128 * (k + 1) + 1 ≤ t) : blockLength t k = 128 := by
  unfold blockLength
  simp only [Config.blockSize]
  omega

@[simp] theorem streamBlocks_zero {W : Nat} (vs : List (BitVec W)) : streamBlocks vs 0 = [] := rfl

theorem streamBlocks_succ {W : Nat} (vs : List (BitVec W)) (k : Nat) :
    streamBlocks vs (k + 1) =
      streamBlocks vs k ++ blockBytes (streamValue vs) (128 * k + 1) (blockLength vs.length k) := by
  simp [streamBlocks, List.range_succ]

/-- Full blocks do not change as values are appended (R202). -/
theorem streamBlocks_append {W : Nat} {vs ws : List (BitVec W)} {k : Nat} (h : 128 * k + 1 ≤ vs.length) :
    streamBlocks (vs ++ ws) k = streamBlocks vs k := by
  induction k with
  | zero => rw [streamBlocks_zero, streamBlocks_zero]
  | succ k ih =>
    have hblock : blockBytes (streamValue (vs ++ ws)) (128 * k + 1) 128 =
        blockBytes (streamValue vs) (128 * k + 1) 128 :=
      blockBytes_congr fun p _ hp => streamValue_append (by omega)
    have hlen : (vs ++ ws).length = vs.length + ws.length := List.length_append
    rw [streamBlocks_succ, streamBlocks_succ, ih (by omega), blockLength_full (by omega), blockLength_full h, hblock]

/-! ## The rolling buffer of a session -/

/-- The values appended stand in RB, and the live positions before them, of which there are at most 128, are not
overwritten (R37, R196). -/
theorem rbStore_live {W L : Nat} {rb : Vector Word 256} {vals new : List Word}
    (hlive : ∀ p, L ≤ p + 1 → (hp : p < vals.length) →
      (rb[p % 256]'(Nat.mod_lt _ (by decide))).setWidth W = (vals[p]'hp).setWidth W)
    (hcount : vals.length ≤ L + 127) (hnew : new.length ≤ 128) (p : Nat) (hL : L ≤ p + 1)
    (hp : p < (vals ++ new).length) :
    ((rbStore rb vals.length new)[p % 256]'(Nat.mod_lt _ (by decide))).setWidth W =
      ((vals ++ new)[p]'hp).setWidth W := by
  rw [List.length_append] at hp
  by_cases hold : p < vals.length
  · rw [List.getElem_append_left hold, rbStore_other, hlive p hL hold]
    intro i hi
    omega
  · obtain ⟨i, rfl⟩ := Nat.exists_eq_add_of_le (Nat.not_lt.1 hold)
    rw [rbStore_get _ _ _ (by omega) i (by omega), List.getElem_append_right (by omega)]
    simp

/-! ## What DEST holds -/

/-- A commit at the cursor extends what DEST holds by its output list (R197). -/
theorem State.destHolds_commitBytes {s u : State} {bytes output : List Byte} (hs : s.destHolds bytes)
    (hdest : u.dest = s.dest) (hcursor : u.outputCursor = s.outputCursor) (hfit : s.fits output = true) :
    (u.commitBytes output).destHolds (bytes ++ output) := by
  obtain ⟨hlen, hbytes⟩ := hs
  constructor
  · rw [State.commitBytes_outputCursor, hcursor, s.cursor_commitBytes output hfit, hlen, List.length_append]
  · intro a ha
    rw [List.length_append] at ha
    rw [State.commitBytes_dest, Memory.read?_writeBytes, hdest, hcursor, hlen]
    by_cases hold : a < bytes.length
    · rw [if_neg (by omega), hbytes a hold, List.getElem?_append_left hold]
    · rw [if_pos (by omega), List.getElem?_append_right (by omega)]

/-- The header and the full blocks of `vals` up to LOGICAL_INDEX `L`: what `State.Session.written` says DEST holds. -/
def flushedBytes (W : Nat) (total L : Word) (vals : List Word) : List Byte :=
  if L = 0 then []
  else streamHeader total (streamValue (atWidth W vals) 0) ++ streamBlocks (atWidth W vals) ((L.toNat - 1) / 128)

@[simp] theorem flushedBytes_zero (W : Nat) (total : Word) (vals : List Word) : flushedBytes W total 0 vals = [] := rfl

theorem flushedBytes_one (W : Nat) (total : Word) (vals : List Word) :
    flushedBytes W total 1 vals = streamHeader total (streamValue (atWidth W vals) 0) :=
  List.append_nil _

/-- Values past LOGICAL_INDEX change nothing of what is flushed (R202). -/
theorem flushedBytes_append {W : Nat} {total L : Word} {vals new : List Word} (hL : L.toNat ≤ vals.length) :
    flushedBytes W total L (vals ++ new) = flushedBytes W total L vals := by
  by_cases h0 : L = 0
  · rw [h0, flushedBytes_zero, flushedBytes_zero]
  · have hpos : L.toNat ≠ 0 := mt bitVec_toNat_eq_zero.1 h0
    unfold flushedBytes
    rw [if_neg h0, if_neg h0, atWidth_append, streamValue_append (by rw [atWidth_length]; omega),
      streamBlocks_append (by rw [atWidth_length]; omega)]

/-- A flush of 128 values extends what is flushed by their block (R195, R202). -/
theorem flushedBytes_block {W : Nat} {total L L' : Word} {vals : List Word} (hmod : L.toNat % 128 = 1)
    (hL' : L'.toNat = L.toNat + 128) (hlen : L.toNat + 128 ≤ vals.length) :
    flushedBytes W total L' vals =
      flushedBytes W total L vals ++ blockBytes (streamValue (atWidth W vals)) L.toNat 128 := by
  have h0 : L ≠ 0 := mt bitVec_toNat_eq_zero.2 (by omega)
  have h0' : L' ≠ 0 := mt bitVec_toNat_eq_zero.2 (by omega)
  obtain ⟨k, hk⟩ : ∃ k, L.toNat = 128 * k + 1 := ⟨L.toNat / 128, by omega⟩
  have hdiv : (L.toNat - 1) / 128 = k := by omega
  have hdiv' : (L'.toNat - 1) / 128 = k + 1 := by omega
  have hfull : blockLength (atWidth W vals).length k = 128 := blockLength_full (by rw [atWidth_length]; omega)
  unfold flushedBytes
  rw [if_neg h0, if_neg h0', hdiv, hdiv', streamBlocks_succ, hfull, hk, List.append_assoc]

/-! ## ADD extends a session -/

theorem State.Session.init {s t : State} {w : ValueWidth} {total : Word} (h : exec (.init w total) s = .next t) :
    t.Session [] := by
  cases h
  exact ⟨rfl, rfl, fun p _ hp => absurd hp (Nat.not_lt_zero p), rfl, fun a ha => absurd ha (Nat.not_lt_zero a)⟩

/-- At most 127 accepted values are not emitted (R40, R196). -/
theorem State.Session.length_le {s : State} {vals : List Word} (hses : s.Session vals) (hs : s.Inv) :
    s.logicalIndex.toNat ≤ vals.length ∧ vals.length ≤ s.logicalIndex.toNat + 127 := by
  have hcount := hses.count
  have hp := hs.pending_le
  unfold State.accepted at hcount
  omega

/-- The live positions after an append, as values of the stream at the session's width. -/
theorem State.Session.rbValue_appendValues {s : State} {vals new : List Word} (hses : s.Session vals) (hs : s.Inv)
    (hnew : new.length ≤ 128) {p : Nat} (hL : s.logicalIndex.toNat ≤ p + 1) (hp : p < (vals ++ new).length) :
    (s.appendValues new).rbValue p = streamValue (atWidth s.sessionBits (vals ++ new)) p := by
  obtain ⟨-, hlen⟩ := hses.length_le hs
  have hlive := rbStore_live hses.live hlen hnew p hL hp
  rw [← hses.count] at hlive
  exact hlive.trans (streamValue_atWidth hp).symm

/-- The output list of ADD's work is what its flushes add to the header and the full blocks (R194, R195). -/
theorem State.Session.flushedBytes_addWork {s : State} {vals new : List Word} (hses : s.Session vals) (hs : s.Inv)
    (hnew : new.length ≤ 128) (hT : s.accepted + new.length ≤ s.totalValues.toNat) :
    flushedBytes s.sessionBits s.totalValues (s.addWork new).1.logicalIndex (vals ++ new) =
      flushedBytes s.sessionBits s.totalValues s.logicalIndex vals ++ (s.addWork new).2 := by
  obtain ⟨hL, hlen⟩ := hses.length_le hs
  have hblocks := hs.logical_blocks (by simp [hses.opened])
  have hcount := hses.count
  have hT64 := s.totalValues.isLt
  have hp := hs.pending_le
  unfold State.accepted at hcount hT
  rcases s.addWork_cases new hs.pending_le hs.logical_pending hnew with ⟨-, -, h⟩ | ⟨hL0, hne, h⟩ | ⟨hL0, hge, h⟩ <;>
    rw [h]
  · exact (flushedBytes_append hL).trans (List.append_nil _).symm
  · have hpos := List.length_pos_iff.2 hne
    have hfirst := hses.rbValue_appendValues hs hnew (p := 0) (by simp [hL0]) (by simp; omega)
    rw [hL0, flushedBytes_zero, List.nil_append, hfirst]
    exact flushedBytes_one _ _ _
  · have hL' := State.afterFlush_logical (s := s.appendValues new) (n := 128)
      (by rw [State.appendValues_logicalIndex]; omega)
    have hlen' : s.logicalIndex.toNat + 128 ≤ (vals ++ new).length := by
      rw [List.length_append]
      omega
    have hblock : blockBytes (s.appendValues new).rbValue s.logicalIndex.toNat 128 =
        blockBytes (streamValue (atWidth s.sessionBits (vals ++ new))) s.logicalIndex.toNat 128 :=
      blockBytes_congr fun p h1 h2 => hses.rbValue_appendValues hs hnew (by omega) (by omega)
    have hflushed := flushedBytes_block (W := s.sessionBits) (total := s.totalValues) (hblocks hL0) hL' hlen'
    rw [flushedBytes_append hL, ← hblock] at hflushed
    exact hflushed

/-- ADD's work never moves LOGICAL_INDEX back. -/
theorem State.Inv.logical_le_addWork {s : State} (hs : s.Inv) {new : List Word} (hnew : new.length ≤ 128)
    (hT : s.accepted + new.length ≤ s.totalValues.toNat) :
    s.logicalIndex.toNat ≤ (s.addWork new).1.logicalIndex.toNat := by
  have hT64 := s.totalValues.isLt
  have hp := hs.pending_le
  unfold State.accepted at hT
  rcases s.addWork_cases new hs.pending_le hs.logical_pending hnew with ⟨-, -, h⟩ | ⟨hL0, -, h⟩ | ⟨-, hge, h⟩ <;> rw [h]
  · exact le_rfl
  · simp [hL0]
  · have hL' := State.afterFlush_logical (s := s.appendValues new) (n := 128)
      (by rw [State.appendValues_logicalIndex]; omega)
    exact (Nat.le_add_right _ 128).trans_eq hL'.symm

/-- An ADD that commits extends the session by its valid values. -/
theorem State.Session.commit_addWork {s : State} {vals new : List Word} (hses : s.Session vals) (hs : s.Inv)
    (hnew : new.length ≤ 128) (hT : s.accepted + new.length ≤ s.totalValues.toNat)
    (hfit : s.fits (s.addWork new).2 = true) :
    (((s.addWork new).1.commitBytes (s.addWork new).2).setResult .ok).Session (vals ++ new) := by
  obtain ⟨-, henc, hw, htot, hrb, hcur, -, -, -, hdest, -⟩ := s.addWork_frame new
  obtain ⟨hacc, -⟩ := hs.addWork_counts hses.opened hnew hT
  obtain ⟨-, hlen⟩ := hses.length_le hs
  have hlogical := hs.logical_le_addWork hnew hT
  have hflushed := hses.flushedBytes_addWork hs hnew hT
  generalize s.addWork new = work at *
  have hbits : work.1.sessionBits = s.sessionBits := congrArg ValueWidth.bits hw
  constructor
  case opened => exact henc.trans hses.opened
  case count =>
    rw [List.length_append, ← hses.count]
    exact hacc
  case live =>
    intro p hL hp
    have hlive := rbStore_live hses.live hlen hnew p (hlogical.trans hL) hp
    rw [← hses.count, ← hrb, ← hbits] at hlive
    exact hlive
  case written =>
    have hheld := State.destHolds_commitBytes
      (bytes := flushedBytes s.sessionBits s.totalValues s.logicalIndex vals) hses.written hdest hcur hfit
    rw [← hflushed, ← hbits, ← htot] at hheld
    exact hheld

/-- Settles O49: INIT by `State.Session.init`; an ADD whose RESULT is OK has committed its work. -/
theorem sessionKeepsAcceptedValues : Obligations.SessionKeepsAcceptedValues := by
  refine ⟨fun s t w total h => State.Session.init h, fun s t n slots vals hs hses h hok => ?_⟩
  replace h : execAdd n slots s = .next t := h
  rcases execAdd_cases n slots s with ⟨-, he⟩ | ⟨-, -, he⟩ | ⟨-, -, -, he⟩ | ⟨-, hn, hT, he⟩ <;>
    rw [he] at h <;> cases h
  case inr.inr.inr =>
    have hnew := (chunkValues_length_le s.encW n slots).trans hn
    rcases s.commit_cases (s.addWork (chunkValues s.encW n slots)).1 (s.addWork (chunkValues s.encW n slots)).2
      (fun t => t.setResult .ok) with ⟨hfit, hc⟩ | ⟨-, hc⟩ <;> rw [hc] at hok ⊢
    · exact hses.commit_addWork hs hnew hT hfit
    · exact absurd hok (by simp [ResultCode.code])
  all_goals exact absurd hok (by simp [ResultCode.code])

end Sys2Proof.Machine
end

section
/-! SUPPORT. Locality of the decoder (R245, R247): a decoding that succeeds has read the bytes below its last cursor and
no others. Said step by step, from the varint loop up to the whole stream, and with it the end effects of DECODE. -/

namespace Sys2Proof.Machine

/-! ## What each step that succeeds has done -/

/-- The stream header decodes exactly when its three counts are the expected ones and the first value decodes (R241). -/
theorem decodeHeader_ok_iff {W : Nat} {rd : Nat → Byte} {len : Nat} {total : Word} {f : BitVec W} {c : Nat} :
    decodeHeader W rd len total = .ok (f, c) ↔
      ∃ c1 c2 c3, uvarintDec rd len 64 0 = .ok (BitVec.ofNat 64 Config.blockSize, c1) ∧
        uvarintDec rd len 64 c1 = .ok (BitVec.ofNat 64 Config.numMiniBlocks, c2) ∧
        uvarintDec rd len 64 c2 = .ok (total, c3) ∧ zzvarintDec rd len W c3 = .ok (f, c) := by
  constructor
  · intro h
    unfold decodeHeader at h
    split at h
    · cases h
    next bs c1 hbs =>
      split_ifs at h with hbs'
      split at h
      · cases h
      next nmb c2 hnmb =>
        split_ifs at h with hnmb'
        split at h
        · cases h
        next t c3 ht =>
          split_ifs at h with ht'
          simp only [not_not] at hbs' hnmb' ht'
          subst hbs' hnmb' ht'
          exact ⟨c1, c2, c3, hbs, hnmb, ht, h⟩
  · rintro ⟨c1, c2, c3, hbs, hnmb, ht, hf⟩
    simp [decodeHeader, hbs, hnmb, ht, hf]

/-- The width bytes can be read exactly when all of them lie in the span (R242). -/
theorem readWidths_ok_iff {rd : Nat → Byte} {len k c c' : Nat} {wds : List Nat} (hc : c ≤ len) :
    readWidths rd len k c = .ok (wds, c') ↔
      c + k ≤ len ∧ (List.range k).map (fun m => (rd (c + m)).toNat) = wds ∧ c + k = c' := by
  by_cases h : c + k ≤ len
  · simp [readWidths_ok rd len k c h, h]
  · simp [readWidths_truncated rd len k c (by omega) hc, h]

/-- A block decodes exactly when its minimum and its widths can be read, no width is above `W`, and its mini-blocks
decode (R242, R243). -/
theorem decodeBlock_ok_iff {W : Nat} {rd : Nat → Byte} {len t : Nat} {p q : Progress W} :
    decodeBlock rd len t p = .ok q ↔
      ∃ bmin c1 wds c2, zzvarintDec rd len W p.c = .ok (bmin, c1) ∧
        readWidths rd len Config.numMiniBlocks c1 = .ok (wds, c2) ∧ ¬ wds.any (fun wd => W < wd) = true ∧
        decodeMiniBlocks rd len t bmin wds { p with c := c2 } = .ok q := by
  constructor
  · intro h
    unfold decodeBlock at h
    split at h
    · cases h
    next bmin c1 hmin =>
      split at h
      · cases h
      next wds c2 hwds =>
        split_ifs at h with hwide
        exact ⟨bmin, c1, wds, c2, hmin, hwds, hwide, h⟩
  · rintro ⟨bmin, c1, wds, c2, hmin, hwds, hwide, hmini⟩
    unfold decodeBlock
    simp only [hmin, hwds]
    rw [if_neg hwide, hmini]

/-- A stream decodes exactly when its header and then its blocks do (R240, R246). -/
theorem decodeStream_ok_iff {W : Nat} {rd : Nat → Byte} {len : Nat} {total : Word} {c : Nat} {vs : List (BitVec W)} :
    decodeStream W rd len total = .ok (c, vs) ↔
      ∃ f c1 p, decodeHeader W rd len total = .ok (f, c1) ∧
        decodeBlocks rd len total.toNat total.toNat ⟨c1, f, if total = 0 then [] else [f]⟩ = .ok p ∧
        p.c = c ∧ p.values = vs := by
  constructor
  · intro h
    unfold decodeStream at h
    split at h
    · cases h
    next f c1 hhead =>
      split at h
      · cases h
      next p hblocks =>
        cases h
        exact ⟨f, c1, p, hhead, hblocks, rfl, rfl⟩
  · rintro ⟨f, c1, p, hhead, hblocks, rfl, rfl⟩
    unfold decodeStream
    simp only [hhead, hblocks]

/-! ## Cursors and counts -/

/-- The header that decodes ends within the span. -/
theorem decodeHeader_cursor_le {W : Nat} {rd : Nat → Byte} {len : Nat} {total : Word} {f : BitVec W} {c : Nat}
    (h : decodeHeader W rd len total = .ok (f, c)) : c ≤ len := by
  obtain ⟨c1, c2, c3, -, -, -, hf⟩ := decodeHeader_ok_iff.1 h
  obtain ⟨-, hc, -⟩ := zzvarintDec_bounds hf
  exact hc

/-- Before the first block the produced values are the header's first value, or none of an empty stream (R246). -/
theorem headerValues_length_le {W : Nat} (total : Word) (f : BitVec W) :
    (if total = 0 then [] else [f]).length ≤ total.toNat := by
  split
  · exact Nat.zero_le _
  next h => exact Nat.one_le_iff_ne_zero.2 (mt bitVec_toNat_eq_zero.1 h)

/-- A stream that decodes has the declared number of values and ends within the span (R245, R247). -/
theorem decodeStream_count {W : Nat} {rd : Nat → Byte} {len : Nat} {total : Word} {c : Nat} {vs : List (BitVec W)}
    (h : decodeStream W rd len total = .ok (c, vs)) : vs.length = total.toNat ∧ c ≤ len := by
  obtain ⟨f, c1, p, hhead, hblocks, rfl, rfl⟩ := decodeStream_ok_iff.1 h
  have hc1 := decodeHeader_cursor_le hhead
  obtain ⟨hlen, -, hc⟩ := decodeBlocks_count hblocks (headerValues_length_le total f)
  constructor
  · omega
  · rcases hc with hc | hc
    · exact hc.le.trans hc1
    · exact hc

/-! ## Locality -/

section
variable {rd rd' : Nat → Byte}

theorem uvarintLoop_local {len n k i c v : Nat} {r : BitVec n} {c' : Nat}
    (h : uvarintLoop rd len n k i c v = .ok (r, c')) (hrd : ∀ a < c', rd' a = rd a) :
    uvarintLoop rd' len n k i c v = .ok (r, c') := by
  induction k generalizing i c v with
  | zero => cases h
  | succ k ih =>
    obtain ⟨hlt, -, -⟩ := uvarintLoop_bounds h
    unfold uvarintLoop at h ⊢
    simp only [hrd c hlt] at h ⊢
    split_ifs at h ⊢
    · exact ih h
    · exact h

theorem uvarintDec_local {len n c : Nat} {r : BitVec n} {c' : Nat} (h : uvarintDec rd len n c = .ok (r, c'))
    (hrd : ∀ a < c', rd' a = rd a) : uvarintDec rd' len n c = .ok (r, c') :=
  uvarintLoop_local h hrd

theorem zzvarintDec_local {len W c : Nat} {r : BitVec W} {c' : Nat} (h : zzvarintDec rd len W c = .ok (r, c'))
    (hrd : ∀ a < c', rd' a = rd a) : zzvarintDec rd' len W c = .ok (r, c') := by
  unfold zzvarintDec at h ⊢
  split at h
  · cases h
  next u c1 hu =>
    cases h
    rw [uvarintDec_local hu hrd]

theorem decodeHeader_local {W len : Nat} {total : Word} {f : BitVec W} {c : Nat}
    (h : decodeHeader W rd len total = .ok (f, c)) (hrd : ∀ a < c, rd' a = rd a) :
    decodeHeader W rd' len total = .ok (f, c) := by
  obtain ⟨c1, c2, c3, hbs, hnmb, ht, hf⟩ := decodeHeader_ok_iff.1 h
  obtain ⟨h12, -⟩ := uvarintDec_bounds hnmb
  obtain ⟨h23, -⟩ := uvarintDec_bounds ht
  obtain ⟨h3c, -⟩ := zzvarintDec_bounds hf
  exact decodeHeader_ok_iff.2 ⟨c1, c2, c3, uvarintDec_local hbs fun a ha => hrd a (by omega),
    uvarintDec_local hnmb fun a ha => hrd a (by omega), uvarintDec_local ht fun a ha => hrd a (by omega),
    zzvarintDec_local hf hrd⟩

theorem readWidths_local {len k c : Nat} {wds : List Nat} {c' : Nat} (hc : c ≤ len)
    (h : readWidths rd len k c = .ok (wds, c')) (hrd : ∀ a < c', rd' a = rd a) :
    readWidths rd' len k c = .ok (wds, c') := by
  obtain ⟨hle, rfl, rfl⟩ := (readWidths_ok_iff hc).1 h
  refine (readWidths_ok_iff hc).2 ⟨hle, List.map_congr_left fun m hm => ?_, rfl⟩
  have hm := List.mem_range.1 hm
  rw [hrd (c + m) (by omega)]

/-- The payload of a mini-block is read below the cursor after it (R145, R243). -/
theorem decodeMiniBlocks_local {W len t : Nat} {bmin : BitVec W} {wds : List Nat} {p q : Progress W}
    (h : decodeMiniBlocks rd len t bmin wds p = .ok q) (hp : p.values.length ≤ t) (hrd : ∀ a < q.c, rd' a = rd a) :
    decodeMiniBlocks rd' len t bmin wds p = .ok q := by
  induction wds generalizing p with
  | nil => exact h
  | cons wd wds ih =>
    by_cases hlt : p.values.length < t
    · rw [decodeMiniBlocks_some hlt] at h ⊢
      split_ifs at h ⊢ with hend
      have hp' : p.values.length + min 32 (t - p.values.length) ≤ t := by omega
      obtain ⟨-, (hcur : p.c + 4 * wd ≤ q.c), -⟩ := decodeMiniBlocks_count h (by simpa using hp')
      have hrun := runBytes_le wd (Nat.min_le_left 32 (t - p.values.length))
      rw [unpack_congr (rd := rd') (rd' := rd) fun a _ ha => hrd a (by omega)]
      exact ih h (by simpa using hp')
    · rw [decodeMiniBlocks_none (by omega)] at h ⊢
      exact ih h hp

theorem decodeBlock_local {W len t : Nat} {p q : Progress W} (h : decodeBlock rd len t p = .ok q)
    (hp : p.values.length ≤ t) (hrd : ∀ a < q.c, rd' a = rd a) : decodeBlock rd' len t p = .ok q := by
  obtain ⟨bmin, c1, wds, c2, hmin, hwds, hwide, hmini⟩ := decodeBlock_ok_iff.1 h
  obtain ⟨-, hc1, -⟩ := zzvarintDec_bounds hmin
  obtain ⟨-, -, hc2⟩ := (readWidths_ok_iff hc1).1 hwds
  obtain ⟨-, (hq : c2 ≤ q.c), -⟩ := decodeMiniBlocks_count hmini hp
  exact decodeBlock_ok_iff.2 ⟨bmin, c1, wds, c2, zzvarintDec_local hmin fun a ha => hrd a (by omega),
    readWidths_local hc1 hwds fun a ha => hrd a (by omega), hwide, decodeMiniBlocks_local hmini hp hrd⟩

theorem decodeBlocks_local {W len t k : Nat} {p q : Progress W} (h : decodeBlocks rd len t k p = .ok q)
    (hp : p.values.length ≤ t) (hrd : ∀ a < q.c, rd' a = rd a) : decodeBlocks rd' len t k p = .ok q := by
  induction k generalizing p with
  | zero => exact h
  | succ k ih =>
    unfold decodeBlocks at h ⊢
    split_ifs at h ⊢ with hall
    · exact h
    · split at h
      · cases h
      next p' hblock =>
        obtain ⟨hlen, -⟩ := decodeBlock_count hblock hp
        have hp' : p'.values.length ≤ t := by omega
        obtain ⟨-, hcur, -⟩ := decodeBlocks_count h hp'
        rw [decodeBlock_local hblock hp fun a ha => hrd a (by omega)]
        exact ih h hp'

/-- The bytes from the last cursor on make no difference to a stream that decodes (R245). -/
theorem decodeStream_local {W len : Nat} {total : Word} {c : Nat} {vs : List (BitVec W)}
    (h : decodeStream W rd len total = .ok (c, vs)) (hrd : ∀ a < c, rd' a = rd a) :
    decodeStream W rd' len total = .ok (c, vs) := by
  obtain ⟨f, c1, p, hhead, hblocks, rfl, rfl⟩ := decodeStream_ok_iff.1 h
  have hvals := headerValues_length_le total f
  obtain ⟨-, (hcur : c1 ≤ p.c), -⟩ := decodeBlocks_count hblocks hvals
  exact decodeStream_ok_iff.2 ⟨f, c1, p, decodeHeader_local hhead fun a ha => hrd a (by omega),
    decodeBlocks_local hblocks hvals hrd, rfl, rfl⟩

end

/-! ## The end of a DECODE -/

theorem execDecode_of_ok {width : ValueWidth} {total len : Word} {s : State} {c : Nat} {vs : List (BitVec width.bits)}
    (hr : s.launchRefusal width = none) (h : decodeStream width.bits s.inMem.read len.toNat total = .ok (c, vs)) :
    execDecode width total len s = .next (s.decodeDone c vs) := by
  simp [execDecode, hr, h]

theorem execDecode_of_error {width : ValueWidth} {total len : Word} {s : State} {e : DecFault}
    (hr : s.launchRefusal width = none) (h : decodeStream width.bits s.inMem.read len.toNat total = .error e) :
    execDecode width total len s = .next (s.decodeFailed width total e) := by
  simp [execDecode, hr, h]

/-- Settles O29: the registers and OUT by the laws of `decodeDone` and `decodeFailed`; that no count wraps by
`decodeStream_count`, and that the bytes past the last cursor are not read by `decodeStream_local`. -/
theorem decodeEndEffects : Obligations.DecodeEndEffects := by
  refine ⟨⟨rfl, rfl, rfl, rfl, rfl⟩, fun s w total len hr => ⟨fun e he => ?_, fun c vs hok => ⟨?_, ?_⟩⟩⟩
  · refine ⟨_, execDecode_of_error hr he, rfl, rfl, rfl, fun j hj => ?_⟩
    rw [State.decodeFailed_out, OutMemory.read_forget _ _ _ _ _ hj]
  · obtain ⟨hlen, hc⟩ := decodeStream_count hok
    refine ⟨_, execDecode_of_ok hr hok, ?_, ?_, rfl, hlen, fun j hj => ?_, fun j hj => ?_⟩
    · rw [State.decodeDone_decConsumed, BitVec.toNat_ofNat, Nat.mod_eq_of_lt (hc.trans_lt len.isLt)]
    · rw [State.decodeDone_decProduced, hlen, BitVec.ofNat_toNat, BitVec.setWidth_eq]
    · rw [State.decodeDone_out, OutMemory.read_writeAll, dif_pos (by simpa using hj), List.getElem_map]
    · rw [State.decodeDone_out, OutMemory.read_writeAll, dif_neg (by simpa [hlen] using hj)]
  · exact fun rd hrd => decodeStream_local hok hrd

end Sys2Proof.Machine
end

section
/-! SUPPORT. The command tuple of an instruction decodes to it (R81, R84, R85, R87), and with it what a step with a legal
command next does (R66). -/

namespace Sys2Proof

/-! ## The fields of a CMD word -/

section
variable (rsvd : BitVec 15) (wsel : BitVec 1) (nslots opc : BitVec 8)

/-- The fields of a CMD word from bit 0 up, each at the offset that those below it leave (R81). -/
theorem getLsbD_cmdWord (i : Nat) : (cmdWord rsvd wsel nslots opc).getLsbD i =
    if i < 8 then opc.getLsbD i else if i - 8 < 8 then nslots.getLsbD (i - 8)
    else if i - 8 - 8 < 1 then wsel.getLsbD (i - 8 - 8) else rsvd.getLsbD (i - 8 - 8 - 1) := by
  have happ : (cmdWord rsvd wsel nslots opc).getLsbD i = _ :=
    BitVec.getLsbD_append (x := rsvd ++ wsel ++ nslots) (y := opc)
  rw [happ, BitVec.getLsbD_append, BitVec.getLsbD_append]

@[simp] theorem fieldOpc_cmdWord : fieldOpc (cmdWord rsvd wsel nslots opc) = opc := by
  ext i hi
  simp [fieldOpc, getLsbD_cmdWord, hi]

@[simp] theorem fieldNslots_cmdWord : fieldNslots (cmdWord rsvd wsel nslots opc) = nslots := by
  ext i hi
  simp [fieldNslots, getLsbD_cmdWord, hi]

@[simp] theorem fieldWsel_cmdWord : fieldWsel (cmdWord rsvd wsel nslots opc) = wsel := by
  ext i hi
  have hout : ¬ 16 + i < 8 := by omega
  have hoff : 16 + i - 8 = 8 + i := by omega
  simp [fieldWsel, getLsbD_cmdWord, hi, hout, hoff]

@[simp] theorem fieldRsvd_cmdWord : fieldRsvd (cmdWord rsvd wsel nslots opc) = rsvd := by
  ext i hi
  have hout : ¬ 17 + i < 8 := by omega
  have hoff : 17 + i - 8 = 8 + (1 + i) := by omega
  simp [fieldRsvd, getLsbD_cmdWord, hi, hout, hoff]

end

@[simp] theorem widthOfWsel_wselOfWidth (width : ValueWidth) : widthOfWsel (wselOfWidth width) = width := by
  cases width <;> rfl

/-! ## The slots of the tuple -/

/-- The first `n` slots of the tuple are the slots an ADD carries: the padding stands past them (R87). -/
theorem take_padSlots {slots : List Slot} {n : Nat} (h : slots.length = min n 128) :
    (padSlots slots).toList.take n = slots := by
  apply List.ext_getElem
  · simp [h]
  · intro i h1 h2
    simp [padSlots, h2]

/-- The decoder inverts the encoder on well-formed instructions (R81, R85, R87). -/
theorem decode_encode {i : Instr} (h : i.wf = true) : decode (encode i) = .ok i := by
  cases i with
  | init width total => simp [decode, encode, encodeCmd]
  | add nslots slots =>
    have hlen : slots.length = min nslots.toNat 128 := by simpa [Instr.wf] using h
    simp [decode, encode, encodeCmd, take_padSlots hlen]
  | finish => simp [decode, encode, encodeCmd]
  | decode width total len => simp [decode, encode, encodeCmd]

end Sys2Proof

namespace Sys2Proof.Machine

theorem step_of_decode {s : State} {c : Command} {rest : List HostAction} {i : Instr}
    (hport : s.port = .command c :: rest) (hdec : decode c = .ok i) : step s = exec i (s.withPort rest) := by
  rw [step_command hport, hdec]

/-- Settles O6: `step_of_decode`, for an encoding with `decode_encode`. -/
theorem stepRunsDecodedInstruction : Obligations.StepRunsDecodedInstruction :=
  ⟨fun _ _ _ _ hport hdec => step_of_decode hport hdec,
    fun _ _ _ hport hwf => step_of_decode hport (decode_encode hwf)⟩

/-! ## The host's actions on IN -/

theorem State.inMem_of_boundToDest {s : State} (h : s.inSpan = .boundToDest) : s.inMem = s.dest := by
  simp [State.inMem, h]

/-- What a supplied span reads as (R61, R70). -/
theorem read_supplied {bytes : List Byte} {seed a : Nat} (h : a < bytes.length) :
    (⟨cellsFrom 0 bytes, seed⟩ : Memory).read a = bytes[a] := by
  simp [Memory.read, read?_supplied, h]

/-- No command moves the binding of IN (R61; log 9). -/
theorem exec_inSpan {i : Instr} {s t : State} (h : exec i s = .next t) : t.inSpan = s.inSpan := by
  cases i with
  | init width total =>
    obtain ⟨-, -, -, -, -, -, hin, -⟩ := execInit_frame h
    exact hin
  | add nslots slots =>
    obtain ⟨-, -, -, -, -, hin, -⟩ := execAdd_frame h
    exact hin
  | finish =>
    obtain ⟨-, -, -, -, -, -, hin, -⟩ := execFinish_frame h
    exact hin
  | decode width total len =>
    obtain ⟨-, -, -, -, -, -, -, -, -, -, hin, -⟩ := execDecode_frame h
    exact hin

/-- A bound IN stays bound through every step but one that supplies a span (log 9). -/
theorem step_keeps_boundToDest {s t : State} (hs : s.inSpan = .boundToDest) (h : step s = .next t)
    (hno : ∀ (bytes : List Byte) (rest : List HostAction), s.port ≠ .provideIn bytes :: rest) :
    t.inSpan = .boundToDest := by
  rcases step_cases h with
    ⟨-, rfl⟩ | ⟨c, rest, i, -, -, hexec⟩ | ⟨c, rest, e, -, -, rfl⟩ | ⟨bytes, rest, hport, -⟩ | ⟨rest, -, -, rfl⟩
  · exact hs
  · exact (exec_inSpan hexec).trans hs
  · exact hs
  · exact absurd hport (hno bytes rest)
  · rfl

/-- The host may bind IN to DEST exactly when the session is FINISHED (R296 (b)). -/
theorem hostBindIn_of_finished {s : State} (h : s.encState = .finished) : hostBindIn s = .next s.bindSpan :=
  if_pos h

theorem hostBindIn_of_not_finished {s : State} (h : s.encState ≠ .finished) :
    hostBindIn s = .refused .overlapUnsaid :=
  if_neg h

/-- With IN bound to the DEST of a FINISHED session a DECODE at its width is no unsaid launch (R296 (b), (d)). -/
theorem State.launchRefusal_bindSpan {s : State} (h : s.encState = .finished) :
    s.bindSpan.launchRefusal s.encW = none := by
  simp [State.launchRefusal, h]

/-- Settles O8: the two host actions by their equations, the persistence of a binding by `step_keeps_boundToDest`. -/
theorem hostActionsChangeOnlySpan : Obligations.HostActionsChangeOnlySpan := by
  refine ⟨fun s bytes rest hport => ?_, fun s rest hport hfin => ?_, fun s t hs h hno => ?_,
    fun s rest hport hfin => ?_⟩
  · exact ⟨_, step_provideIn hport, rfl, fun _ => rfl, fun a ha => read_supplied ha⟩
  · exact ⟨_, (step_bindInToDest hport).trans (hostBindIn_of_finished hfin), rfl, rfl,
      State.launchRefusal_bindSpan hfin, rfl⟩
  · have hbound := step_keeps_boundToDest hs h hno
    exact ⟨hbound, State.inMem_of_boundToDest hbound⟩
  · exact (step_bindInToDest hport).trans (hostBindIn_of_not_finished hfin)

end Sys2Proof.Machine
end

section
/-! SUPPORT. The command decoder against the opcode table (R81 to R87): when it answers each instruction, by the fields
and by mask and match, and what an illegal CMD word does (R86). -/

namespace Sys2Proof

/-- Settles O2: `decode_encode`, the decoder on the fields that the encoder has set. -/
theorem decodeOfEncode : Obligations.DecodeOfEncode := fun _ h => decode_encode h

/-! ## A CMD word is its four fields -/

theorem cmdWord_fields (cmd : BitVec 32) :
    cmdWord (fieldRsvd cmd) (fieldWsel cmd) (fieldNslots cmd) (fieldOpc cmd) = cmd := by
  ext i hi
  rw [← BitVec.getLsbD_eq_getElem, ← BitVec.getLsbD_eq_getElem, getLsbD_cmdWord]
  unfold fieldRsvd fieldWsel fieldNslots fieldOpc
  simp only [BitVec.getLsbD_extractLsb']
  split_ifs with h1 h2 h3
  · simp [h1]
  · simp [h2, show 8 + (i - 8) = i by omega]
  · simp [h3, show 16 + (i - 8 - 8) = i by omega]
  · simp [show 17 + (i - 8 - 8 - 1) = i by omega, show i - 8 - 8 - 1 < 15 by omega]

theorem cmdWord_inj {rsvd rsvd' : BitVec 15} {wsel wsel' : BitVec 1} {nslots nslots' opc opc' : BitVec 8} :
    cmdWord rsvd wsel nslots opc = cmdWord rsvd' wsel' nslots' opc' ↔
      rsvd = rsvd' ∧ wsel = wsel' ∧ nslots = nslots' ∧ opc = opc' := by
  constructor
  · intro h
    exact ⟨by simpa using congrArg fieldRsvd h, by simpa using congrArg fieldWsel h,
      by simpa using congrArg fieldNslots h, by simpa using congrArg fieldOpc h⟩
  · rintro ⟨rfl, rfl, rfl, rfl⟩
    rfl

/-- A mask and a match on the CMD word are a mask and a match on each field (R81, R85). -/
theorem and_cmdWord_eq_iff {cmd : BitVec 32} {mr r : BitVec 15} {mw w : BitVec 1} {mn n mo o : BitVec 8} :
    cmd &&& cmdWord mr mw mn mo = cmdWord r w n o ↔
      fieldRsvd cmd &&& mr = r ∧ fieldWsel cmd &&& mw = w ∧ fieldNslots cmd &&& mn = n ∧
        fieldOpc cmd &&& mo = o := by
  have hand : cmd &&& cmdWord mr mw mn mo =
      cmdWord (fieldRsvd cmd &&& mr) (fieldWsel cmd &&& mw) (fieldNslots cmd &&& mn) (fieldOpc cmd &&& mo) := by
    conv_lhs => rw [← cmdWord_fields cmd]
    apply BitVec.eq_of_getLsbD_eq
    intro i _
    simp only [BitVec.getLsbD_and, getLsbD_cmdWord]
    split_ifs <;> rfl
  rw [hand, cmdWord_inj]

/-! ## When the decoder answers each instruction -/

/-- The row of INIT (R85). -/
theorem decode_eq_init_iff {c : Command} {width : ValueWidth} {total : Word} :
    decode c = .ok (.init width total) ↔
      (fieldOpc c.cmd = 0x01 ∧ fieldNslots c.cmd = 0 ∧ fieldRsvd c.cmd = 0) ∧
        widthOfWsel (fieldWsel c.cmd) = width ∧ c.arg = total := by
  unfold decode
  split_ifs <;> simp_all

/-- The row of ADD (R85). -/
theorem decode_eq_add_iff {c : Command} {nslots : BitVec 8} {slots : List Slot} :
    decode c = .ok (.add nslots slots) ↔
      (fieldOpc c.cmd = 0x02 ∧ fieldWsel c.cmd = 0 ∧ fieldRsvd c.cmd = 0) ∧
        fieldNslots c.cmd = nslots ∧ c.slots.toList.take (fieldNslots c.cmd).toNat = slots := by
  unfold decode
  split_ifs <;> simp_all

/-- The row of FINISH (R85). -/
theorem decode_eq_finish_iff {c : Command} :
    decode c = .ok .finish ↔
      fieldOpc c.cmd = 0x03 ∧ fieldNslots c.cmd = 0 ∧ fieldWsel c.cmd = 0 ∧ fieldRsvd c.cmd = 0 := by
  unfold decode
  split_ifs <;> simp_all

/-- The row of DECODE (R85). -/
theorem decode_eq_decode_iff {c : Command} {width : ValueWidth} {total len : Word} :
    decode c = .ok (.decode width total len) ↔
      (fieldOpc c.cmd = 0x04 ∧ fieldNslots c.cmd = 0 ∧ fieldRsvd c.cmd = 0) ∧
        widthOfWsel (fieldWsel c.cmd) = width ∧ c.arg = total ∧ c.arg2 = len := by
  unfold decode
  split_ifs <;> simp_all

/-! ## The rows by mask and match -/

/-- The mask and match of INIT and DECODE: every field but WSEL is fixed. -/
theorem mask_wselFree_iff {cmd : BitVec 32} {opc : BitVec 8} :
    cmd &&& 0xFFFEFFFF = cmdWord 0 0 0 opc ↔ fieldOpc cmd = opc ∧ fieldNslots cmd = 0 ∧ fieldRsvd cmd = 0 := by
  have hmask : (0xFFFEFFFF : BitVec 32) = cmdWord (.allOnes 15) 0 (.allOnes 8) (.allOnes 8) := by decide
  rw [hmask, and_cmdWord_eq_iff]
  simp only [BitVec.and_allOnes, BitVec.ofNat_eq_ofNat, BitVec.and_zero, true_and]
  exact ⟨fun ⟨hr, hn, ho⟩ => ⟨ho, hn, hr⟩, fun ⟨ho, hn, hr⟩ => ⟨hr, hn, ho⟩⟩

/-- The mask and match of ADD: every field but NSLOTS is fixed. -/
theorem mask_nslotsFree_iff {cmd : BitVec 32} {opc : BitVec 8} :
    cmd &&& 0xFFFF00FF = cmdWord 0 0 0 opc ↔ fieldOpc cmd = opc ∧ fieldWsel cmd = 0 ∧ fieldRsvd cmd = 0 := by
  have hmask : (0xFFFF00FF : BitVec 32) = cmdWord (.allOnes 15) (.allOnes 1) 0 (.allOnes 8) := by decide
  rw [hmask, and_cmdWord_eq_iff]
  simp only [BitVec.and_allOnes, BitVec.ofNat_eq_ofNat, BitVec.and_zero, true_and]
  exact ⟨fun ⟨hr, hw, ho⟩ => ⟨ho, hw, hr⟩, fun ⟨ho, hw, hr⟩ => ⟨hr, hw, ho⟩⟩

/-- The mask and match of FINISH: every field is fixed. -/
theorem mask_noneFree_iff {cmd : BitVec 32} {opc : BitVec 8} :
    cmd &&& 0xFFFFFFFF = cmdWord 0 0 0 opc ↔
      fieldOpc cmd = opc ∧ fieldNslots cmd = 0 ∧ fieldWsel cmd = 0 ∧ fieldRsvd cmd = 0 := by
  have hmask : (0xFFFFFFFF : BitVec 32) = cmdWord (.allOnes 15) (.allOnes 1) (.allOnes 8) (.allOnes 8) := by decide
  rw [hmask, and_cmdWord_eq_iff]
  simp only [BitVec.and_allOnes]
  exact ⟨fun ⟨hr, hw, hn, ho⟩ => ⟨ho, hn, hw, hr⟩, fun ⟨ho, hn, hw, hr⟩ => ⟨hr, hw, hn, ho⟩⟩

/-- Settles O4: the rows by fields from the equations of the decoder, by mask and match from those of the masks. -/
theorem decodeMatchesOpcodeTable : Obligations.DecodeMatchesOpcodeTable := by
  intro c
  have hinit : (∃ w t, decode c = .ok (.init w t)) ↔
      fieldOpc c.cmd = 0x01 ∧ fieldNslots c.cmd = 0 ∧ fieldRsvd c.cmd = 0 := by
    simp [decode_eq_init_iff]
  have hadd : (∃ n sl, decode c = .ok (.add n sl)) ↔
      fieldOpc c.cmd = 0x02 ∧ fieldWsel c.cmd = 0 ∧ fieldRsvd c.cmd = 0 := by
    simp [decode_eq_add_iff]
  have hdecode : (∃ w t l, decode c = .ok (.decode w t l)) ↔
      fieldOpc c.cmd = 0x04 ∧ fieldNslots c.cmd = 0 ∧ fieldRsvd c.cmd = 0 := by
    simp [decode_eq_decode_iff]
  exact ⟨hinit, hadd, decode_eq_finish_iff, hdecode, hinit.trans mask_wselFree_iff.symm,
    hadd.trans mask_nslotsFree_iff.symm, decode_eq_finish_iff.trans mask_noneFree_iff.symm,
    hdecode.trans mask_wselFree_iff.symm⟩

/-! ## What a decoded instruction holds -/

@[simp] theorem wselOfWidth_widthOfWsel (wsel : BitVec 1) : wselOfWidth (widthOfWsel wsel) = wsel := by
  have hall : ∀ b : BitVec 1, wselOfWidth (widthOfWsel b) = b := by decide
  exact hall wsel

/-- No bit of the CMD word is dropped: a decoded instruction has the word it was read from (R81, R85). -/
theorem encodeCmd_of_decode {c : Command} {i : Instr} (h : decode c = .ok i) : encodeCmd i = c.cmd := by
  conv_rhs => rw [← cmdWord_fields c.cmd]
  cases i with
  | init width total =>
    obtain ⟨⟨hopc, hnslots, hrsvd⟩, rfl, -⟩ := decode_eq_init_iff.1 h
    simp [encodeCmd, hopc, hnslots, hrsvd]
  | add nslots slots =>
    obtain ⟨⟨hopc, hwsel, hrsvd⟩, rfl, -⟩ := decode_eq_add_iff.1 h
    simp [encodeCmd, hopc, hwsel, hrsvd]
  | finish =>
    obtain ⟨hopc, hnslots, hwsel, hrsvd⟩ := decode_eq_finish_iff.1 h
    simp [encodeCmd, hopc, hnslots, hwsel, hrsvd]
  | decode width total len =>
    obtain ⟨⟨hopc, hnslots, hrsvd⟩, rfl, -⟩ := decode_eq_decode_iff.1 h
    simp [encodeCmd, hopc, hnslots, hrsvd]

/-- The tuple has 128 slots, so taking more takes them all (R80, R83). -/
theorem take_slots_min (slots : Vector Slot 128) (n : Nat) :
    slots.toList.take n = slots.toList.take (min n 128) := by
  rw [List.take_eq_take_min, Vector.length_toList]

theorem wf_of_decode {c : Command} {i : Instr} (h : decode c = .ok i) : i.wf = true := by
  cases i with
  | add nslots slots =>
    obtain ⟨-, rfl, rfl⟩ := decode_eq_add_iff.1 h
    simp [Instr.wf]
  | _ => rfl

/-- Slots that agree below `n` have the same first `n`. -/
theorem take_slots_congr {a b : Vector Slot 128} {n : Nat} (h : ∀ i (_ : i < 128), i < n → a[i] = b[i]) :
    a.toList.take n = b.toList.take n := by
  apply List.ext_getElem
  · simp
  · intro i hi _
    simp only [List.length_take, Vector.length_toList] at hi
    simpa using h i (by omega) (by omega)

/-- The decoder reads no operand but those of the opcode (R87). -/
theorem decode_congr {c d : Command} (hcmd : c.cmd = d.cmd)
    (harg : fieldOpc c.cmd = 0x01 ∨ fieldOpc c.cmd = 0x04 → c.arg = d.arg)
    (harg2 : fieldOpc c.cmd = 0x04 → c.arg2 = d.arg2)
    (hslots : fieldOpc c.cmd = 0x02 → ∀ i (_ : i < 128), i < (fieldNslots c.cmd).toNat → c.slots[i] = d.slots[i]) :
    decode c = decode d := by
  by_cases hinit : fieldOpc c.cmd = 0x01
  · simp only [decode, ← hcmd, if_pos hinit, harg (.inl hinit)]
  by_cases hadd : fieldOpc c.cmd = 0x02
  · simp only [decode, ← hcmd, if_neg hinit, if_pos hadd, take_slots_congr (hslots hadd)]
  by_cases hdecode : fieldOpc c.cmd = 0x04
  · simp only [decode, ← hcmd, if_neg hinit, if_neg hadd, harg (.inr hdecode), harg2 hdecode]
  · simp only [decode, ← hcmd, if_neg hinit, if_neg hadd, if_neg hdecode]

/-- Settles O3: the operands by the row of the instruction, unread operands by `decode_congr`. -/
theorem encodeOfDecode : Obligations.EncodeOfDecode := by
  refine ⟨fun c i h => ⟨wf_of_decode h, encodeCmd_of_decode h, ?_, ?_, ?_⟩,
    fun c d hcmd harg harg2 hslots => decode_congr hcmd harg harg2 hslots⟩
  · rintro w total rfl
    obtain ⟨-, -, harg⟩ := decode_eq_init_iff.1 h
    exact harg.symm
  · rintro n slots rfl
    obtain ⟨-, rfl, hslots⟩ := decode_eq_add_iff.1 h
    rw [← hslots, take_slots_min]
  · rintro w total len rfl
    obtain ⟨-, -, harg, harg2⟩ := decode_eq_decode_iff.1 h
    exact ⟨harg.symm, harg2.symm⟩

/-! ## The worked words -/

/-- The worked words of R101 by their fields. -/
theorem workedWords_eq :
    (0x00010001 : BitVec 32) = cmdWord 0 1 0 0x01 ∧ (0x00000001 : BitVec 32) = cmdWord 0 0 0 0x01 ∧
    (0x00000602 : BitVec 32) = cmdWord 0 0 6 0x02 ∧ (0x00008002 : BitVec 32) = cmdWord 0 0 128 0x02 ∧
    (0x00000003 : BitVec 32) = cmdWord 0 0 0 0x03 ∧ (0x00010004 : BitVec 32) = cmdWord 0 1 0 0x04 := by decide

/-- A slot below the number of slots an ADD carries is that slot (R87). -/
theorem slots_encode_add {nslots : BitVec 8} {slots : List Slot} {i : Nat} (hi : i < 128) (h : i < slots.length) :
    (encode (.add nslots slots)).slots[i] = slots[i] := by
  simp [encode, padSlots, h]

/-- Settles O1: each word by its fields, through the rows of the decoder and the encoder's own words. -/
theorem workedCommandWordsDecode : Obligations.WorkedCommandWordsDecode := by
  obtain ⟨hinit64, hinit32, hadd6, hadd128, hfinish, hdecode⟩ := workedWords_eq
  refine ⟨fun _ _ => ?_, fun _ _ => ?_, fun _ _ _ => ?_, fun _ _ slots => ?_, fun _ _ _ => ?_, fun _ => ?_,
    ⟨hinit64.symm, rfl⟩, hinit32.symm, fun slots hvals hvalid => ⟨hadd6.symm, fun i hi => ?_⟩,
    fun _ => hadd128.symm, hfinish.symm, hdecode.symm, rfl, rfl⟩
  · rw [hinit64, decode_eq_init_iff]
    simp [widthOfWsel]
  · rw [hinit32, decode_eq_init_iff]
    simp [widthOfWsel]
  · rw [hadd6, decode_eq_add_iff]
    simp
  · have hall : slots.toList.take 128 = slots.toList := List.take_of_length_le (by simp)
    rw [hadd128, decode_eq_add_iff]
    simp [hall]
  · rw [hfinish, decode_eq_finish_iff]
    simp
  · rw [hdecode, decode_eq_decode_iff]
    simp [widthOfWsel]
  · have hlen : slots.length = 6 := by simpa using congrArg List.length hvals
    rw [slots_encode_add (by omega) (by omega)]
    exact hvalid _ (List.getElem_mem _)

end Sys2Proof

namespace Sys2Proof.Machine

theorem step_of_decode_error {s : State} {c : Command} {rest : List HostAction} {e : DecodeError}
    (hport : s.port = .command c :: rest) (hdec : decode c = .error e) :
    step s = .next (s.withPort rest).illegalCommand := by
  rw [step_command hport, hdec]

/-- Settles O5: a CMD word that the decoder accepts matches a row by O4, so this one it rejects. -/
theorem illegalCommandChangesOnlyResult : Obligations.IllegalCommandChangesOnlyResult := by
  intro s c rest hport hinit hadd hfinish hdecode
  obtain ⟨-, -, -, -, rowInit, rowAdd, rowFinish, rowDecode⟩ := decodeMatchesOpcodeTable c
  cases hdec : decode c with
  | error e => exact step_of_decode_error hport hdec
  | ok i =>
    cases i with
    | init width total => exact absurd (rowInit.1 ⟨width, total, hdec⟩) hinit
    | add nslots slots => exact absurd (rowAdd.1 ⟨nslots, slots, hdec⟩) hadd
    | finish => exact absurd (rowFinish.1 hdec) hfinish
    | decode width total len => exact absurd (rowDecode.1 ⟨width, total, len, hdec⟩) hdecode

end Sys2Proof.Machine
end

section
/-! SUPPORT. Varints and the stream header on a span that holds them: each decodes to the value it encodes (R119), what
the checks of the header answer (R241), and the lengths of varint and header (R91, R112). -/

namespace Sys2Proof

theorem ValueWidth.bits_pos (w : ValueWidth) : 0 < w.bits := by cases w <;> decide

theorem ValueWidth.bits_le (w : ValueWidth) : w.bits ≤ 64 := by cases w <;> decide

end Sys2Proof

namespace Sys2Proof.Machine

/-! ## What a span holds -/

/-- The span holds `bytes` from offset `c` on. -/
def SpanHolds (rd : Nat → Byte) (c : Nat) (bytes : List Byte) : Prop :=
  ∀ a (h : a < bytes.length), rd (c + a) = bytes[a]

/-- A span from offset 0 on, as the statements write it. -/
theorem spanHolds_zero {rd : Nat → Byte} {bytes : List Byte} :
    SpanHolds rd 0 bytes ↔ ∀ a (h : a < bytes.length), rd a = bytes[a] := by
  simp [SpanHolds]

theorem spanHolds_cons {rd : Nat → Byte} {c : Nat} {b : Byte} {bytes : List Byte} :
    SpanHolds rd c (b :: bytes) ↔ rd c = b ∧ SpanHolds rd (c + 1) bytes := by
  constructor
  · intro h
    refine ⟨h 0 (Nat.zero_lt_succ _), fun a ha => ?_⟩
    rw [Nat.add_assoc, Nat.add_comm 1]
    exact h (a + 1) (Nat.succ_lt_succ ha)
  · rintro ⟨h0, h⟩ a ha
    cases a with
    | zero => exact h0
    | succ a =>
      have := h a (Nat.lt_of_succ_lt_succ ha)
      rwa [Nat.add_assoc, Nat.add_comm 1] at this

theorem spanHolds_append {rd : Nat → Byte} {c : Nat} {bs bs' : List Byte} :
    SpanHolds rd c (bs ++ bs') ↔ SpanHolds rd c bs ∧ SpanHolds rd (c + bs.length) bs' := by
  induction bs generalizing c with
  | nil => simp [SpanHolds]
  | cons b bs ih =>
    rw [List.cons_append, spanHolds_cons, spanHolds_cons, ih, and_assoc, List.length_cons, Nat.add_assoc,
      Nat.add_comm 1]

/-! ## Varints -/

section
variable {rd : Nat → Byte} {len n m i c v x : Nat}

/-- The decoder's loop on a last byte of the encoder (R110, R116). -/
theorem uvarintLoop_last (hlt : c < len) (hbyte : rd c = BitVec.ofNat 8 x) (hx : x < 128) (hv : v < 2 ^ (7 * i))
    (hfit : 2 ^ (7 * i) * x < 2 ^ n) :
    uvarintLoop rd len n (m + 1) i c v = .ok (BitVec.ofNat n (v + 2 ^ (7 * i) * x), c + 1) := by
  have hnat : (rd c).toNat = x := by
    rw [hbyte, BitVec.toNat_ofNat, Nat.mod_eq_of_lt (by omega)]
  have hbit : (rd c).getLsbD 7 = false := by
    rw [← BitVec.testBit_toNat, hnat]
    exact Nat.testBit_lt_two_pow hx
  have hhigh : x >>> (n - 7 * i) = 0 := by
    apply Nat.shiftRight_eq_zero
    rcases Nat.eq_zero_or_pos x with rfl | hpos
    · exact Nat.two_pow_pos _
    · have hi : 7 * i < n := (Nat.pow_lt_pow_iff_right (by decide)).1
        ((Nat.le_mul_of_pos_right _ hpos).trans_lt hfit)
      rw [← Nat.add_sub_of_le hi.le, Nat.pow_add] at hfit
      exact Nat.lt_of_mul_lt_mul_left hfit
  have hloop := (uvarintLoop_cases rd len n (m + 1) 0 i c v (by simp) (by omega) hv).2.1 hlt hbit
    (fun _ => by simpa [hnat, Nat.mod_eq_of_lt hx] using hhigh)
  simpa [hnat, Nat.mod_eq_of_lt hx, Nat.pow_mul] using hloop

/-- The decoder's loop on a byte of the encoder that continues (R110, R116). -/
theorem uvarintLoop_more (hlt : c < len) (hbyte : rd c = BitVec.ofNat 8 (x % 128 + 128)) (hv : v < 2 ^ (7 * i)) :
    uvarintLoop rd len n (m + 2) i c v =
      uvarintLoop rd len n (m + 1) (i + 1) (c + 1) (v + 2 ^ (7 * i) * (x % 128)) := by
  have hnat : (rd c).toNat = x % 128 + 128 := by
    rw [hbyte, BitVec.toNat_ofNat, Nat.mod_eq_of_lt (by omega)]
  have hbit : (rd c).getLsbD 7 = true := by
    rw [← BitVec.testBit_toNat, hnat, Nat.testBit_eq_decide_div_mod_eq]
    simp
  have hgroup : ((rd c).extractLsb' 0 7).toNat = x % 128 := by
    rw [BitVec.extractLsb'_toNat, hnat]
    simp
  have hor : v ||| (x % 128) <<< (7 * i) = v + 2 ^ (7 * i) * (x % 128) := by
    rw [Nat.or_comm, ← Nat.shiftLeft_add_eq_or_of_lt hv, Nat.shiftLeft_eq, Nat.add_comm, Nat.mul_comm (x % 128)]
  rw [uvarintLoop, if_neg (Nat.not_le.2 hlt)]
  simp [hbit, hgroup, hor]

/-- The decoder's loop reads back the groups the encoder wrote, at any place of the varint (R110, R116). -/
theorem uvarintLoop_groups (hx : x < 2 ^ (7 * (m + 1))) (hv : v < 2 ^ (7 * i)) (hfit : 2 ^ (7 * i) * x < 2 ^ n)
    (hrd : SpanHolds rd c (uvarintGroups (m + 1) x)) (hlen : c + (uvarintGroups (m + 1) x).length ≤ len) :
    uvarintLoop rd len n (m + 1) i c v =
      .ok (BitVec.ofNat n (v + 2 ^ (7 * i) * x), c + (uvarintGroups (m + 1) x).length) := by
  induction m generalizing i c v x with
  | zero =>
    rw [uvarintGroups_last hx] at hrd hlen ⊢
    exact uvarintLoop_last (by simpa using hlen) (spanHolds_cons.1 hrd).1 hx hv hfit
  | succ m ih =>
    by_cases hlast : x < 0x80
    · rw [uvarintGroups_last hlast] at hrd hlen ⊢
      exact uvarintLoop_last (by simpa using hlen) (spanHolds_cons.1 hrd).1 hlast hv hfit
    · rw [uvarintGroups_more (Nat.not_lt.1 hlast)] at hrd hlen ⊢
      obtain ⟨hbyte, hrest⟩ := spanHolds_cons.1 hrd
      rw [List.length_cons] at hlen ⊢
      have hpow : 2 ^ (7 * (i + 1)) = 2 ^ (7 * i) * 128 := by rw [Nat.mul_succ, Nat.pow_add]
      have hx' : x / 0x80 < 2 ^ (7 * (m + 1)) := by
        rw [Nat.div_lt_iff_lt_mul (by decide)]
        rwa [Nat.mul_succ, Nat.pow_add] at hx
      have hv' : v + 2 ^ (7 * i) * (x % 128) < 2 ^ (7 * (i + 1)) := by
        have := Nat.mul_le_mul_left (2 ^ (7 * i)) (show x % 128 ≤ 127 by omega)
        omega
      have hsum : 2 ^ (7 * i) * (x % 128) + 2 ^ (7 * (i + 1)) * (x / 128) = 2 ^ (7 * i) * x := by
        rw [hpow, Nat.mul_assoc, ← Nat.mul_add, Nat.mod_add_div]
      rw [uvarintLoop_more (by omega) hbyte hv, ih hx' hv' (by omega) hrest (by omega), Nat.add_assoc v, hsum,
        Nat.add_assoc c, Nat.add_comm 1]

end

/-- The groups of a value that `k + 1` groups hold (R112). -/
theorem uvarintGroups_length_le_of_lt {g k v : Nat} (h : v < 2 ^ (7 * (k + 1))) :
    (uvarintGroups g v).length ≤ k + 1 := by
  induction k generalizing g v with
  | zero => rw [uvarintGroups_last h, List.length_singleton]
  | succ k ih =>
    cases g with
    | zero => simp [uvarintGroups]
    | succ g =>
      by_cases hlast : v < 0x80
      · simp [uvarintGroups_last hlast]
      · have hv' : v / 0x80 < 2 ^ (7 * (k + 1)) := by
          rw [Nat.div_lt_iff_lt_mul (by decide)]
          rwa [Nat.mul_succ, Nat.pow_add] at h
        rw [uvarintGroups_more (Nat.not_lt.1 hlast), List.length_cons]
        exact Nat.succ_le_succ (ih hv')

/-- An `n`-bit value fits in `ceil(n / 7)` groups (R112). -/
theorem varintMaxLen_spec {n : Nat} (hn : 0 < n) : ∃ m, varintMaxLen n = m + 1 ∧ n ≤ 7 * (m + 1) :=
  ⟨(n + 6) / 7 - 1, by unfold varintMaxLen; omega, by omega⟩

theorem uvarintEnc_length_le {n : Nat} (hn : 0 < n) (v : BitVec n) : (uvarintEnc n v).length ≤ varintMaxLen n := by
  obtain ⟨m, hm, hle⟩ := varintMaxLen_spec hn
  rw [hm]
  exact uvarintGroups_length_le_of_lt (v.isLt.trans_le (Nat.pow_le_pow_right (by decide) hle))

theorem uvarintEnc_length_pos {n : Nat} (v : BitVec n) : 0 < (uvarintEnc n v).length :=
  uvarintGroups_length_pos _ _

section
variable {rd : Nat → Byte} {len c : Nat}

/-- Decoding the varint of a value gives it back (R119). -/
theorem uvarintDec_uvarintEnc {n : Nat} (hn : 0 < n) {v : BitVec n} (hrd : SpanHolds rd c (uvarintEnc n v))
    (hlen : c + (uvarintEnc n v).length ≤ len) :
    uvarintDec rd len n c = .ok (v, c + (uvarintEnc n v).length) := by
  obtain ⟨m, hm, hle⟩ := varintMaxLen_spec hn
  unfold uvarintEnc uvarintDec at *
  rw [hm] at hrd hlen ⊢
  rw [uvarintLoop_groups (v.isLt.trans_le (Nat.pow_le_pow_right (by decide) hle)) (by simp) (by simp [v.isLt]) hrd hlen]
  simp

/-- Bit `i` of the zigzag of `v`: bit `i − 1` of `v`, turned over when `v` is negative (R113). -/
theorem getLsbD_zigzag {w : Nat} (v : BitVec w) {i : Nat} (hi : i < w) :
    (zigzag v).getLsbD i = ((decide (0 < i) && v.getLsbD (i - 1)) ^^ v.msb) := by
  have hsign : (v.sshiftRight (w - 1)).getLsbD i = v.msb := by
    rw [BitVec.getLsbD_sshiftRight, BitVec.msb_eq_getLsbD_last]
    rcases Nat.eq_zero_or_pos i with rfl | hpos
    · simp [hi, hi.ne']
    · simp [hi, show ¬ w - 1 + i < w by omega]
  rw [zigzag, BitVec.getLsbD_xor, BitVec.getLsbD_shiftLeft, hsign]
  cases i <;> simp [hi]

/-- Bit `i` of the decoding of `u`: bit `i + 1` of `u`, turned over when `u` is odd (R117). -/
theorem getLsbD_unzigzag {w : Nat} (u : BitVec w) {i : Nat} (hi : i < w) :
    (unzigzag u).getLsbD i = (u.getLsbD (i + 1) ^^ u.getLsbD 0) := by
  have hsign : (0 - (u &&& 1)).getLsbD i = u.getLsbD 0 := by
    have hodd : u &&& 1 = BitVec.setWidth w (BitVec.ofBool (u.getLsbD 0)) :=
      BitVec.and_one_eq_setWidth_ofBool_getLsbD
    rw [hodd]
    cases u.getLsbD 0
    · simp
    · simp [hi, BitVec.setWidth_ofNat_one_eq_ofNat_one_of_lt Nat.zero_lt_one, BitVec.neg_one_eq_allOnes]
  rw [unzigzag, BitVec.getLsbD_xor, BitVec.getLsbD_ushiftRight, hsign, Nat.add_comm]

/-- The decoding of zigzag undoes it (R113, R117). -/
theorem unzigzag_zigzag {w : Nat} (v : BitVec w) : unzigzag (zigzag v) = v := by
  apply BitVec.eq_of_getLsbD_eq
  intro i hi
  rw [getLsbD_unzigzag _ hi, getLsbD_zigzag v (Nat.zero_lt_of_lt hi)]
  rcases Nat.lt_or_ge (i + 1) w with hlt | hge
  · simp [getLsbD_zigzag v hlt]
  · obtain rfl : w = i + 1 := by omega
    simp [BitVec.getLsbD_of_ge, BitVec.msb_eq_getLsbD_last]

theorem zzvarintDec_zzvarintEnc {w : Nat} (hw : 0 < w) {v : BitVec w} (hrd : SpanHolds rd c (zzvarintEnc w v))
    (hlen : c + (zzvarintEnc w v).length ≤ len) :
    zzvarintDec rd len w c = .ok (v, c + (zzvarintEnc w v).length) := by
  unfold zzvarintEnc zzvarintDec at *
  simp only [uvarintDec_uvarintEnc hw hrd hlen, unzigzag_zigzag]

end

/-! ## The stream header -/

section
variable {W : Nat} {rd : Nat → Byte} {len : Nat} {total : Word}

theorem decodeStream_of_header_error {e : DecFault} (h : decodeHeader W rd len total = .error e) :
    decodeStream W rd len total = .error e := by
  simp [decodeStream, h]

/-- Past the header of a stream of no value the DECODE is done (R246). -/
theorem decodeStream_of_empty {f : BitVec W} {c : Nat} (h : decodeHeader W rd len total = .ok (f, c))
    (htotal : total = 0) : decodeStream W rd len total = .ok (c, []) := by
  subst htotal
  simp only [decodeStream, h]
  rfl

/-- Past the header of a stream with values the DECODE is its blocks, from the first value on (R240). -/
theorem decodeStream_of_values {f : BitVec W} {c : Nat} (h : decodeHeader W rd len total = .ok (f, c))
    (htotal : total ≠ 0) : decodeStream W rd len total =
      (decodeBlocks rd len total.toNat total.toNat ⟨c, f, [f]⟩).map fun p => (p.c, p.values) := by
  simp only [decodeStream, h, if_neg htotal]
  cases decodeBlocks rd len total.toNat total.toNat ⟨c, f, [f]⟩ <;> rfl

/-- The checks of a header whose three counts can be read, in their order (R241). -/
theorem decodeHeader_of_counts {bs nmb t : Word} {c1 c2 c3 : Nat} (hbs : uvarintDec rd len 64 0 = .ok (bs, c1))
    (hnmb : uvarintDec rd len 64 c1 = .ok (nmb, c2)) (ht : uvarintDec rd len 64 c2 = .ok (t, c3)) :
    decodeHeader W rd len total =
      if bs ≠ 128 ∨ nmb ≠ 4 then .error .badHeader
      else if t ≠ total then .error .countMismatch
      else zzvarintDec rd len W c3 := by
  simp only [decodeHeader, hbs, hnmb, ht]
  by_cases h128 : bs = 128#64 <;> simp [h128]

/-- The header of canonical varints on a span that holds it (R98, R241). -/
theorem decodeHeader_of_holds {bs nmb t : Word} {f : BitVec W} {header : List Byte} (hW : 0 < W)
    (hheader : header = uvarintEnc 64 bs ++ uvarintEnc 64 nmb ++ uvarintEnc 64 t ++ zzvarintEnc W f)
    (hlen : header.length ≤ len) (hrd : SpanHolds rd 0 header) :
    decodeHeader W rd len total =
      if bs ≠ 128 ∨ nmb ≠ 4 then .error .badHeader
      else if t ≠ total then .error .countMismatch
      else .ok (f, header.length) := by
  subst hheader
  simp only [spanHolds_append, List.length_append, Nat.zero_add] at hrd hlen ⊢
  obtain ⟨⟨⟨hbs, hnmb⟩, ht⟩, hf⟩ := hrd
  have hbs := uvarintDec_uvarintEnc (len := len) (by decide) hbs (by omega)
  rw [Nat.zero_add] at hbs
  rw [decodeHeader_of_counts hbs (uvarintDec_uvarintEnc (by decide) hnmb (by omega))
      (uvarintDec_uvarintEnc (by decide) ht (by omega)), zzvarintDec_zzvarintEnc hW hf hlen]

end

/-- Settles O32: on any span each check by the fields read before it, on a span of canonical fields by
`decodeHeader_of_holds`. -/
theorem decodeChecksStreamHeader : Obligations.DecodeChecksStreamHeader := by
  refine ⟨fun w rd len total => ⟨fun e he => ?_, fun bs c1 hbs => ⟨fun hbad => ?_, fun h128 => ⟨fun e he => ?_,
    fun nmb c2 hnmb => ⟨fun hbad => ?_, fun h4 => ⟨fun e he => ?_, fun t c3 ht => ⟨fun hbad => ?_,
      fun htotal => ⟨fun e he => ?_, fun f c4 hf => ?_⟩⟩⟩⟩⟩⟩⟩,
    fun w rd len bs nmb t total f header hheader hlen hrd =>
      decodeHeader_of_holds w.bits_pos hheader hlen (spanHolds_zero.2 hrd)⟩
  · exact decodeStream_of_header_error (by simp [decodeHeader, he])
  · exact decodeStream_of_header_error (by simp [decodeHeader, hbs, show bs ≠ 128#64 from hbad])
  · exact decodeStream_of_header_error (by simp [decodeHeader, hbs, h128, he])
  · exact decodeStream_of_header_error (by simp [decodeHeader, hbs, h128, hnmb, show nmb ≠ 4#64 from hbad])
  · exact decodeStream_of_header_error (by simp [decodeHeader, hbs, h128, hnmb, h4, he])
  · exact decodeStream_of_header_error (by simp [decodeHeader_of_counts hbs hnmb ht, h128, h4, hbad])
  · exact decodeStream_of_header_error (by simp [decodeHeader_of_counts hbs hnmb ht, h128, h4, htotal, he])
  · have hhead : decodeHeader w.bits rd len total = .ok (f, c4) := by
      simpa [decodeHeader_of_counts hbs hnmb ht, h128, h4, htotal] using hf
    exact ⟨hhead, decodeStream_of_empty hhead, decodeStream_of_values hhead⟩

/-- The header an encoder writes decodes to its first value (R91, R241). -/
theorem decodeHeader_streamHeader {W : Nat} {rd : Nat → Byte} {len : Nat} {total : Word} {f : BitVec W} (hW : 0 < W)
    (hrd : SpanHolds rd 0 (streamHeader total f)) (hlen : (streamHeader total f).length ≤ len) :
    decodeHeader W rd len total = .ok (f, (streamHeader total f).length) := by
  rw [decodeHeader_of_holds hW rfl hlen hrd, if_neg (by simp), if_neg (by simp)]
  rfl

theorem streamHeader_eq {W : Nat} (total : Word) (f : BitVec W) :
    streamHeader total f = [0x80, 0x01, 0x04] ++ uvarintEnc 64 total ++ zzvarintEnc W f := by
  have h128 : uvarintEnc 64 (BitVec.ofNat 64 Config.blockSize) = [0x80, 0x01] := by decide
  have h4 : uvarintEnc 64 (BitVec.ofNat 64 Config.numMiniBlocks) = [0x04] := by decide
  simp [streamHeader, h128, h4]

theorem streamHeader_length {W : Nat} (total : Word) (f : BitVec W) :
    (streamHeader total f).length = 3 + (uvarintEnc 64 total).length + (zzvarintEnc W f).length := by
  rw [streamHeader_eq, List.length_append, List.length_append]
  rfl

theorem streamHeader_length_le {W : Nat} (hW : 0 < W) (total : Word) (f : BitVec W) :
    (streamHeader total f).length ≤ 3 + 10 + (W + 6) / 7 := by
  have htotal := uvarintEnc_length_le (n := 64) (by decide) total
  have hfirst := uvarintEnc_length_le hW (zigzag f)
  rw [varintMaxLen_64] at htotal
  rw [streamHeader_length]
  exact Nat.add_le_add (Nat.add_le_add_left htotal 3) hfirst

/-- Settles O46: `streamHeader_eq` and the lengths of its two varints. -/
theorem headerForm : Obligations.HeaderForm := fun w total f =>
  ⟨streamHeader_eq total f, streamHeader_length total f, streamHeader_length_ge total f,
    streamHeader_length_le w.bits_pos total f, by simp [streamBytes, streamValue, blockCount]⟩

end Sys2Proof.Machine
end

section
/-! SUPPORT. The bytes of a block (R92, R93): a packed run unpacks to its values (R148), a mini-block's values fit its
width (R165), its values as deltas of the stream (R163, R164), and the lengths of blocks and streams (R97). -/

namespace Sys2Proof.Machine

/-! ## Packed runs -/

section
variable {rd : Nat → Byte} {c w : Nat} {vals : List Nat}

/-- A run of values of `w` bits each is an integer of `vals.length × w` bits (R140). -/
theorem packScratch_lt (hvals : ∀ v ∈ vals, v < 2 ^ w) : packScratch w 0 vals < 2 ^ (vals.length * w) := by
  induction vals with
  | nil => simp [packScratch]
  | cons v vs ih =>
    obtain ⟨hv, hvs⟩ := List.forall_mem_cons.1 hvals
    rw [packScratch_cons, List.length_cons, Nat.succ_mul]
    refine Nat.or_lt_two_pow (hv.trans_le (Nat.pow_le_pow_right (by decide) (Nat.le_add_left _ _))) ?_
    rw [Nat.shiftLeft_eq, Nat.pow_add]
    exact Nat.mul_lt_mul_of_pos_right (ih hvs) (Nat.two_pow_pos w)

/-- Field `i` of the scratch is value `i` (R140). -/
theorem packScratch_field (hvals : ∀ v ∈ vals, v < 2 ^ w) {i : Nat} (hi : i < vals.length) :
    packScratch w 0 vals >>> (i * w) % 2 ^ w = vals[i] := by
  induction vals generalizing i with
  | nil => exact absurd hi (Nat.not_lt_zero i)
  | cons v vs ih =>
    obtain ⟨hv, hvs⟩ := List.forall_mem_cons.1 hvals
    rw [packScratch_cons]
    cases i with
    | zero =>
      rw [Nat.or_comm, ← Nat.shiftLeft_add_eq_or_of_lt hv]
      simp [Nat.shiftLeft_eq, Nat.mod_eq_of_lt hv]
    | succ i =>
      have hfoot : v >>> w = 0 := Nat.shiftRight_eq_zero v w hv
      rw [Nat.succ_mul, Nat.add_comm, Nat.shiftRight_add, Nat.shiftRight_or_distrib, hfoot, Nat.zero_or,
        Nat.shiftLeft_shiftRight]
      exact ih hvs (Nat.lt_of_succ_lt_succ hi)

/-- A span that holds the bytes of an integer reads as that integer (R147). -/
theorem natOfSpan_bytesOfNat {nb acc : Nat} (hacc : acc < 2 ^ (8 * nb)) (hrd : SpanHolds rd c (bytesOfNat nb acc)) :
    natOfSpan rd c nb = acc := by
  apply Nat.eq_of_testBit_eq
  intro k
  rw [natOfSpan_bit]
  by_cases hk : k / 8 < nb
  · rw [hrd (k / 8) (by simpa using hk), bytesOfNat_bit hk]
    simp [hk]
  · have hhigh : acc.testBit k = false :=
      Nat.testBit_lt_two_pow (hacc.trans_le (Nat.pow_le_pow_right (by decide) (by omega)))
    simp [hk, hhigh]

/-- Unpacking a packed run gives its values back (R148). -/
theorem unpack_pack (W : Nat) (hvals : ∀ v ∈ vals, v < 2 ^ w) (hrd : SpanHolds rd c (pack w vals)) :
    unpack W vals.length w rd c = vals.map (BitVec.ofNat W) := by
  have hbits : vals.length * w ≤ 8 * runBytes vals.length w := by
    unfold runBytes
    omega
  have hscratch : natOfSpan rd c (runBytes vals.length w) = packScratch w 0 vals :=
    natOfSpan_bytesOfNat ((packScratch_lt hvals).trans_le (Nat.pow_le_pow_right (by decide) hbits)) hrd
  apply List.ext_getElem
  · simp
  · intro i _ hi
    simp only [unpack, List.getElem_map, List.getElem_range, hscratch]
    rw [packScratch_field hvals (by simpa using hi)]

/-- The payload of a mini-block begins with its packed run (R145). -/
theorem SpanHolds.pack_of_payload (hrd : SpanHolds rd c (miniBlockPayload w vals)) : SpanHolds rd c (pack w vals) := by
  by_cases hnil : vals = []
  · subst hnil
    intro a ha
    simp [runBytes] at ha
  · rw [miniBlockPayload, if_neg hnil, spanHolds_append] at hrd
    exact hrd.1

theorem miniBlockPayload_length_le (hl : vals.length ≤ 32) : (miniBlockPayload w vals).length ≤ 4 * w := by
  by_cases hnil : vals = []
  · simp [hnil]
  · exact (miniBlockPayload_length hnil hl).le

end

/-! ## Widths -/

theorem lt_two_pow_bitLen (x : Nat) : x < 2 ^ bitLen x := by
  by_cases h : x = 0
  · simp [h]
  · rw [bitLen_of_pos h]
    exact Nat.lt_log2_self

theorem bitLen_le_of_lt {x k : Nat} (h : x < 2 ^ k) : bitLen x ≤ k := by
  by_cases h0 : x = 0
  · simp [h0]
  · rw [bitLen_of_pos h0]
    exact (Nat.log2_lt h0).2 h

theorem le_toNat_umax {W : Nat} (a b : BitVec W) : a.toNat ≤ (umax a b).toNat ∧ b.toNat ≤ (umax a b).toNat := by
  unfold umax
  split
  next h => exact ⟨(BitVec.ult_iff_toNat_lt.1 h).le, le_rfl⟩
  next h => exact ⟨le_rfl, Nat.not_lt.1 (mt BitVec.ult_iff_toNat_lt.2 h)⟩

/-- The running maximum is at least where it begins and at least each value it has passed. -/
theorem le_toNat_foldl_umax {W : Nat} (vals : List (BitVec W)) (a : BitVec W) :
    a.toNat ≤ (vals.foldl umax a).toNat ∧ ∀ v ∈ vals, v.toNat ≤ (vals.foldl umax a).toNat := by
  induction vals generalizing a with
  | nil => simp
  | cons v vs ih =>
    obtain ⟨hstart, hpassed⟩ := ih (umax a v)
    obtain ⟨ha, hv⟩ := le_toNat_umax a v
    exact ⟨ha.trans hstart, List.forall_mem_cons.2 ⟨hv.trans hstart, hpassed⟩⟩

section
variable {W : Nat} (n : Nat) (norms : List (BitVec W)) (m : Nat)

theorem miniWidth_le : miniWidth n norms m ≤ W := bitLen_le_of_lt (BitVec.isLt _)

/-- The real normalized deltas of a mini-block fit its width (R165). -/
theorem toNat_lt_miniWidth {v : BitVec W} (hv : v ∈ miniValues n norms m) : v.toNat < 2 ^ miniWidth n norms m :=
  ((le_toNat_foldl_umax _ 0).2 v hv).trans_lt (lt_two_pow_bitLen _)

theorem miniValues_length_le : (miniValues n norms m).length ≤ 32 := by
  unfold miniValues miniCount
  exact (List.length_take_le _ _).trans (Nat.min_le_left _ _)

end

/-! ## The normalized deltas of a stream -/

section
variable {W : Nat} (v : Nat → BitVec W) (L n : Nat)

@[simp] theorem blockDeltas_length : (blockDeltas v L n).length = 128 := by simp [blockDeltas]

/-- The real normalized deltas of mini-block `m`, by the stream positions of their values (R161, R164, R165). -/
theorem miniValues_blockNorms (hn : n ≤ 128) (m : Nat) :
    miniValues n (blockNorms n (blockDeltas v L n)) m =
      (List.range' (L + 32 * m) (miniCount n m)).map
        fun p => v p - v (p - 1) - blockMin n (blockDeltas v L n) := by
  have hcount : miniCount n m ≤ n - 32 * m := Nat.min_le_right _ _
  have hlen : (blockNorms n (blockDeltas v L n)).length = 128 := by
    simp [blockNorms]
    omega
  apply List.ext_getElem
  · simp [miniValues, hlen]
    omega
  · intro i _ hi
    have hi : i < miniCount n m := by simpa using hi
    have hpos : L + (32 * m + i) = L + 32 * m + i := by omega
    simp [miniValues, blockNorms, blockDeltas, show 32 * m + i < n by omega,
      show 32 * m + i < 128 by omega, hpos]

end

/-! ## Lengths of blocks and streams -/

section
variable {W : Nat}

theorem blockPayload_length_le {n b : Nat} {norms : List (BitVec W)} (h : ∀ m < 4, miniWidth n norms m ≤ b) :
    (blockPayload n norms).length ≤ 16 * b := by
  rw [blockPayload, List.length_flatMap]
  refine (List.sum_le_card_nsmul _ (4 * b) (List.forall_mem_map.2 fun m hm => ?_)).trans ?_
  · refine (miniBlockPayload_length_le ?_).trans (Nat.mul_le_mul_left 4 (h m (List.mem_range.1 hm)))
    simpa using miniValues_length_le n norms m
  · simp
    omega

theorem blockBytes_length (v : Nat → BitVec W) (L n : Nat) : (blockBytes v L n).length =
    (zzvarintEnc W (blockMin n (blockDeltas v L n))).length + 4
      + (blockPayload n (blockNorms n (blockDeltas v L n))).length := by
  simp [blockBytes, blockHeader, Nat.add_assoc]

theorem blockBytes_length_le (hW : 0 < W) (v : Nat → BitVec W) (L n : Nat) :
    (blockBytes v L n).length ≤ (W + 6) / 7 + 4 + 16 * W := by
  have hmin : (zzvarintEnc W (blockMin n (blockDeltas v L n))).length ≤ (W + 6) / 7 := uvarintEnc_length_le hW _
  have hpayload := blockPayload_length_le fun m (_ : m < 4) => miniWidth_le n (blockNorms n (blockDeltas v L n)) m
  rw [blockBytes_length]
  omega

theorem streamBlocks_length_le (hW : 0 < W) (vs : List (BitVec W)) (k : Nat) :
    (streamBlocks vs k).length ≤ k * ((W + 6) / 7 + 4 + 16 * W) := by
  induction k with
  | zero => simp
  | succ k ih =>
    rw [streamBlocks_succ, List.length_append, Nat.succ_mul k]
    exact Nat.add_le_add ih (blockBytes_length_le hW _ _ _)

end

/-- Settles O47: the header and each block are bounded; a payload at widths 0 is empty. -/
theorem streamSizeWithinBound : Obligations.StreamSizeWithinBound := by
  intro w vs
  constructor
  · unfold streamBytes
    rw [List.length_append]
    exact Nat.add_le_add (streamHeader_length_le w.bits_pos _ _) (streamBlocks_length_le w.bits_pos vs _)
  · intro v L hzero
    have hpayload := blockPayload_length_le fun m hm => (hzero m hm).le
    rw [blockBytes_length]
    omega

end Sys2Proof.Machine
end

section
/-! SUPPORT. The decoder reads an encoded stream back (R249): each mini-block, then each block, then all of them move
the decoder from the values before them to the values after them. -/

namespace Sys2Proof.Machine

/-! ## Reconstruction -/

/-- The deltas of consecutive positions, less their minimum, reconstruct the values (R164, R244). -/
theorem reconstruct_deltas {W : Nat} (v : Nat → BitVec W) (bmin : BitVec W) (q cnt : Nat) :
    reconstruct bmin (v (q - 1)) ((List.range' q cnt).map fun p => v p - v (p - 1) - bmin) =
      (List.range' q cnt).map v := by
  induction cnt generalizing q with
  | zero => rfl
  | succ cnt ih =>
    have hrun : v (q - 1) + (v q - v (q - 1) - bmin + bmin) = v q := by
      rw [BitVec.sub_add_cancel, BitVec.add_comm, BitVec.sub_add_cancel]
    rw [List.range'_succ, List.map_cons, List.map_cons, reconstruct, hrun]
    exact congrArg _ (ih (q + 1))

/-- The decoder once it has produced the first `q` values of a stream and stands at cursor `c`. -/
def progressAt {W : Nat} (vs : List (BitVec W)) (c q : Nat) : Progress W := ⟨c, streamValue vs (q - 1), vs.take q⟩

section
variable {W : Nat} (vs : List (BitVec W)) (c q : Nat)

@[simp] theorem progressAt_c : (progressAt vs c q).c = c := rfl
@[simp] theorem progressAt_run : (progressAt vs c q).run = streamValue vs (q - 1) := rfl
@[simp] theorem progressAt_values : (progressAt vs c q).values = vs.take q := rfl

theorem progressAt_values_length : (progressAt vs c q).values.length = min q vs.length := List.length_take

end

/-- After the header the decoder has produced the first value (R241). -/
theorem progressAt_one {W : Nat} {vs : List (BitVec W)} (c : Nat) (h : 0 < vs.length) :
    progressAt vs c 1 = ⟨c, streamValue vs 0, [streamValue vs 0]⟩ := by
  cases vs with
  | nil => exact absurd h (Nat.lt_irrefl 0)
  | cons f fs => rfl

/-- The next `cnt` values of the stream move the decoder on. -/
theorem progressAt_add {W : Nat} {vs : List (BitVec W)} {c q cnt : Nat} (h : q + cnt ≤ vs.length) :
    progressAt vs c (q + cnt) =
      ⟨c, ((List.range' q cnt).map (streamValue vs)).getLastD (streamValue vs (q - 1)),
        vs.take q ++ (List.range' q cnt).map (streamValue vs)⟩ := by
  have hvals : (List.range' q cnt).map (streamValue vs) = (vs.drop q).take cnt := by
    apply List.ext_getElem
    · simp
      omega
    · intro i _ hi
      simp at hi
      simp [streamValue, show q + i < vs.length by omega]
  have hlast : ((List.range' q cnt).map (streamValue vs)).getLastD (streamValue vs (q - 1)) =
      streamValue vs (q + cnt - 1) := by
    cases cnt with
    | zero => rfl
    | succ cnt => simp [List.range'_concat]
  rw [progressAt, hlast, hvals, List.take_add]

/-! ## One block -/

theorem miniCount_eq (n m : Nat) : miniCount n m = min 32 (n - 32 * m) := rfl

/-- Unpacking the payload of a mini-block gives its normalized deltas back (R148, R167). -/
theorem unpack_miniValues {W n m c : Nat} {norms : List (BitVec W)} {rd : Nat → Byte}
    (hrd : SpanHolds rd c (miniBlockPayload (miniWidth n norms m) ((miniValues n norms m).map (·.toNat)))) :
    unpack W (miniValues n norms m).length (miniWidth n norms m) rd c = miniValues n norms m := by
  have hfit : ∀ x ∈ (miniValues n norms m).map (·.toNat), x < 2 ^ miniWidth n norms m :=
    List.forall_mem_map.2 fun v hv => toNat_lt_miniWidth n norms m hv
  simpa [Function.comp_def] using unpack_pack W hfit hrd.pack_of_payload

section
variable {W : Nat} {vs : List (BitVec W)} {rd : Nat → Byte} {len L n : Nat}

/-- The minimum of the block of `n` values from stream position `L` on (R163). -/
def streamMin (vs : List (BitVec W)) (L n : Nat) : BitVec W := blockMin n (blockDeltas (streamValue vs) L n)

/-- Its normalized deltas (R164). -/
def streamNorms (vs : List (BitVec W)) (L n : Nat) : List (BitVec W) := blockNorms n (blockDeltas (streamValue vs) L n)

/-- The width of its mini-block `m` (R165). -/
def streamWidth (vs : List (BitVec W)) (L n m : Nat) : Nat := miniWidth n (streamNorms vs L n) m

/-- The payload of its mini-block `m` (R167). -/
def streamPayload (vs : List (BitVec W)) (L n m : Nat) : List Byte :=
  miniBlockPayload (streamWidth vs L n m) ((miniValues n (streamNorms vs L n) m).map (·.toNat))

/-- The bytes of the block in the order in which the decoder reads them (R166, R167). -/
theorem blockBytes_streamValue (vs : List (BitVec W)) (L n : Nat) :
    blockBytes (streamValue vs) L n = zzvarintEnc W (streamMin vs L n) ++
      ((List.range' 0 4).map (fun m => BitVec.ofNat 8 (streamWidth vs L n m)) ++
        (List.range' 0 4).flatMap (streamPayload vs L n)) := by
  rw [← List.range_eq_range', blockBytes, blockHeader, List.append_assoc]
  rfl

theorem streamWidth_le (vs : List (BitVec W)) (L n m : Nat) : streamWidth vs L n m ≤ W := miniWidth_le _ _ _

/-- A mini-block moves the decoder past its values and its payload, from position `L + min n (32 m)`, where it begins
in a block of `n` values (R243, R244). -/
theorem decodeMiniBlocks_payload (hL : L ≤ vs.length) (hn : n = min 128 (vs.length - L)) {m c : Nat} (hm : m < 4)
    (hrd : SpanHolds rd c (streamPayload vs L n m)) (hlen : c + (streamPayload vs L n m).length ≤ len)
    (wds : List Nat) :
    decodeMiniBlocks rd len vs.length (streamMin vs L n) (streamWidth vs L n m :: wds)
        (progressAt vs c (L + min n (32 * m))) =
      decodeMiniBlocks rd len vs.length (streamMin vs L n) wds
        (progressAt vs (c + (streamPayload vs L n m).length) (L + min n (32 * (m + 1)))) := by
  have hvalues : miniValues n (streamNorms vs L n) m = (List.range' (L + 32 * m) (miniCount n m)).map
      fun p => streamValue vs p - streamValue vs (p - 1) - streamMin vs L n :=
    miniValues_blockNorms (streamValue vs) L n (by omega) m
  have hcount := miniCount_eq n m
  rcases Nat.lt_or_ge (32 * m) n with hsome | hnone
  · have hstart : L + min n (32 * m) = L + 32 * m := by omega
    have hend : L + min n (32 * (m + 1)) = L + 32 * m + miniCount n m := by omega
    have hleft : min 32 (vs.length - (L + 32 * m)) = miniCount n m := by omega
    have hproduced : (progressAt vs c (L + 32 * m)).values.length = L + 32 * m := by
      rw [progressAt_values_length]
      omega
    have hlength : (streamPayload vs L n m).length = 4 * streamWidth vs L n m := by
      apply miniBlockPayload_length
      · simp [hvalues]
        omega
      · simpa using miniValues_length_le n (streamNorms vs L n) m
    have hunpack : unpack W _ (streamWidth vs L n m) rd c = _ := unpack_miniValues hrd
    rw [hvalues, List.length_map, List.length_range'] at hunpack
    rw [hstart, hend, decodeMiniBlocks_some (by omega), hproduced, hleft, ← hlength, progressAt_c,
      if_neg (Nat.not_lt.2 hlen), progressAt_run, progressAt_values, hunpack, reconstruct_deltas,
      progressAt_add (q := L + 32 * m) (by omega)]
  · have hempty : streamPayload vs L n m = [] := by
      simp [streamPayload, hvalues, show miniCount n m = 0 by omega]
    have hend : L + min n (32 * (m + 1)) = L + min n (32 * m) := by omega
    rw [decodeMiniBlocks_none (by rw [progressAt_values_length]; omega), hempty, hend]
    rfl

/-- The mini-blocks from `m` on, of which `k` are left. -/
theorem decodeMiniBlocks_payloads (hL : L ≤ vs.length) (hn : n = min 128 (vs.length - L)) {m k c : Nat}
    (hk : m + k = 4) (hrd : SpanHolds rd c ((List.range' m k).flatMap (streamPayload vs L n)))
    (hlen : c + ((List.range' m k).flatMap (streamPayload vs L n)).length ≤ len) :
    decodeMiniBlocks rd len vs.length (streamMin vs L n) ((List.range' m k).map (streamWidth vs L n))
        (progressAt vs c (L + min n (32 * m))) =
      .ok (progressAt vs (c + ((List.range' m k).flatMap (streamPayload vs L n)).length) (L + n)) := by
  induction k generalizing m c with
  | zero =>
    have hend : L + min n (32 * m) = L + n := by omega
    rw [hend]
    rfl
  | succ k ih =>
    rw [List.range'_succ, List.flatMap_cons, List.length_append] at hlen ⊢
    rw [List.range'_succ, List.flatMap_cons, spanHolds_append] at hrd
    obtain ⟨hfirst, hrest⟩ := hrd
    rw [List.map_cons, decodeMiniBlocks_payload hL hn (by omega) hfirst (by omega), ih (by omega) hrest (by omega),
      Nat.add_assoc]

/-- Width bytes read as the widths they hold (R166, R242). -/
theorem readWidths_of_holds {wd : Nat → Nat} {k c : Nat} (hwd : ∀ m, wd m < 256)
    (hrd : SpanHolds rd c ((List.range' 0 k).map fun m => BitVec.ofNat 8 (wd m))) (hlen : c + k ≤ len) :
    readWidths rd len k c = .ok ((List.range' 0 k).map wd, c + k) := by
  rw [readWidths_ok rd len k c hlen, List.range_eq_range']
  have hbytes : (List.range' 0 k).map (fun m => (rd (c + m)).toNat) = (List.range' 0 k).map wd := by
    refine List.map_congr_left fun m hm => ?_
    have hbyte := hrd m (by simpa using hm)
    rw [List.getElem_map, List.getElem_range', Nat.zero_add, Nat.one_mul] at hbyte
    rw [hbyte, BitVec.toNat_ofNat, Nat.mod_eq_of_lt (hwd m)]
  rw [hbytes]

/-- A block moves the decoder past its values and its bytes (R242, R243). -/
theorem decodeBlock_blockBytes (hW : 0 < W) (hW' : W < 256) (hL : L ≤ vs.length)
    (hn : n = min 128 (vs.length - L)) {c : Nat} (hrd : SpanHolds rd c (blockBytes (streamValue vs) L n))
    (hlen : c + (blockBytes (streamValue vs) L n).length ≤ len) :
    decodeBlock rd len vs.length (progressAt vs c L) =
      .ok (progressAt vs (c + (blockBytes (streamValue vs) L n).length) (L + n)) := by
  rw [blockBytes_streamValue] at hrd hlen ⊢
  simp only [spanHolds_append, List.length_append, List.length_map, List.length_range'] at hrd hlen ⊢
  obtain ⟨hmin, hwidths, hpayloads⟩ := hrd
  have hwide : ¬ ((List.range' 0 4).map (streamWidth vs L n)).any (fun wd => W < wd) = true := by
    simp [streamWidth_le]
  have hread := readWidths_of_holds (len := len) (fun m => (streamWidth_le vs L n m).trans_lt hW') hwidths (by omega)
  have hmini := decodeMiniBlocks_payloads (len := len) hL hn (Nat.zero_add 4) hpayloads (by omega)
  rw [Nat.mul_zero, Nat.min_zero, Nat.add_zero L] at hmini
  rw [← Nat.add_assoc, ← Nat.add_assoc]
  exact decodeBlock_ok_iff.2
    ⟨_, _, _, _, zzvarintDec_zzvarintEnc (c := c) hW hmin (by omega), hread, hwide, hmini⟩

end

/-! ## The whole stream -/

section
variable {W : Nat} {vs : List (BitVec W)} {rd : Nat → Byte} {len : Nat}

theorem decodeBlocks_done {t k : Nat} {p : Progress W} (h : t ≤ p.values.length) :
    decodeBlocks rd len t k p = .ok p := by
  cases k with
  | zero => rfl
  | succ k => rw [decodeBlocks, if_pos h]

theorem decodeBlocks_next {t k : Nat} {p p' : Progress W} (h : p.values.length < t)
    (hblock : decodeBlock rd len t p = .ok p') : decodeBlocks rd len t (k + 1) p = decodeBlocks rd len t k p' := by
  rw [decodeBlocks, if_neg (Nat.not_le.2 h), hblock]

/-- The first `k` blocks take one turn each, and leave the decoder at the values and the bytes after them (R94). -/
theorem decodeBlocks_streamBlocks (hW : 0 < W) (hW' : W < 256) (hpos : 0 < vs.length) {c k : Nat}
    (hk : k ≤ blockCount vs.length) (hrd : SpanHolds rd c (streamBlocks vs k))
    (hlen : c + (streamBlocks vs k).length ≤ len) (g : Nat) :
    decodeBlocks rd len vs.length (g + k) (progressAt vs c 1) =
      decodeBlocks rd len vs.length g
        (progressAt vs (c + (streamBlocks vs k).length) (min (128 * k + 1) vs.length)) := by
  induction k generalizing g with
  | zero => simp [Nat.min_eq_left hpos]
  | succ k ih =>
    have hlt : 128 * k + 1 < vs.length := by
      unfold blockCount at hk
      omega
    rw [streamBlocks_succ, spanHolds_append] at hrd
    rw [streamBlocks_succ, List.length_append] at hlen ⊢
    obtain ⟨hbefore, hblock⟩ := hrd
    have hn : blockLength vs.length k = min 128 (vs.length - (128 * k + 1)) := by
      simp only [blockLength, Config.blockSize]
      omega
    have hstart : min (128 * k + 1) vs.length = 128 * k + 1 := by omega
    have hend : min (128 * (k + 1) + 1) vs.length = 128 * k + 1 + blockLength vs.length k := by omega
    have hnext := decodeBlock_blockBytes (len := len) hW hW' hlt.le hn hblock (by omega)
    rw [← Nat.add_assoc, Nat.add_right_comm, ih (by omega) hbefore (by omega), hstart,
      decodeBlocks_next (by rw [progressAt_values_length]; omega) hnext, hend, Nat.add_assoc c]

/-- After all the blocks every value is there, with turns to spare (R94; log 18). -/
theorem decodeBlocks_all (hW : 0 < W) (hW' : W < 256) (hpos : 0 < vs.length) {c : Nat}
    (hrd : SpanHolds rd c (streamBlocks vs (blockCount vs.length)))
    (hlen : c + (streamBlocks vs (blockCount vs.length)).length ≤ len) :
    decodeBlocks rd len vs.length vs.length (progressAt vs c 1) =
      .ok (progressAt vs (c + (streamBlocks vs (blockCount vs.length)).length) vs.length) := by
  have hturns : vs.length - blockCount vs.length + blockCount vs.length = vs.length := by
    unfold blockCount
    omega
  have hend : min (128 * blockCount vs.length + 1) vs.length = vs.length := by
    unfold blockCount
    omega
  have hrun := decodeBlocks_streamBlocks hW hW' hpos le_rfl hrd hlen (vs.length - blockCount vs.length)
  rwa [hturns, hend, decodeBlocks_done (p := progressAt vs _ vs.length) (by simp)] at hrun

/-- The encoded stream of any values decodes to them (R249). -/
theorem decodeStream_streamBytes (hW : 0 < W) (hW' : W < 256) (hcount : vs.length < 2 ^ 64)
    (hrd : SpanHolds rd 0 (streamBytes vs)) (hlen : (streamBytes vs).length ≤ len) :
    decodeStream W rd len (BitVec.ofNat 64 vs.length) = .ok ((streamBytes vs).length, vs) := by
  unfold streamBytes at *
  rw [spanHolds_append, Nat.zero_add] at hrd
  rw [List.length_append] at hlen ⊢
  obtain ⟨hheader, hblocks⟩ := hrd
  have hhead := decodeHeader_streamHeader (len := len) hW hheader (by omega)
  rcases Nat.eq_zero_or_pos vs.length with hzero | hpos
  · obtain rfl := List.length_eq_zero_iff.1 hzero
    simpa [blockCount] using decodeStream_of_empty hhead rfl
  · have htotal : (BitVec.ofNat 64 vs.length).toNat = vs.length := Nat.mod_eq_of_lt hcount
    have hne : BitVec.ofNat 64 vs.length ≠ 0 := mt bitVec_toNat_eq_zero.2 (by omega)
    rw [decodeStream_of_values hhead hne, htotal, ← progressAt_one _ hpos, decodeBlocks_all hW hW' hpos hblocks hlen]
    simp [Except.map]

end

/-- Settles O48: `decodeStream_streamBytes` at the two widths. -/
theorem streamDecodesToItsValues : Obligations.StreamDecodesToItsValues := fun w _ _ _ hcount hlen hrd =>
  decodeStream_streamBytes w.bits_pos (w.bits_le.trans_lt (by decide)) hcount (spanHolds_zero.2 hrd) hlen

end Sys2Proof.Machine
end

section
/-! SUPPORT. The varint primitives on their own (R110 to R119): the form and the length of what the encoder writes, what
the decoder answers on any span, and zigzag as arithmetic and as a bijection. -/

namespace Sys2Proof.Machine

/-- Settles O34: `uvarintDec_uvarintEnc` and `zzvarintDec_zzvarintEnc` at the two widths. -/
theorem varintRoundTrip : Obligations.VarintRoundTrip := fun w _ _ _ _ =>
  ⟨fun hrd hlen => uvarintDec_uvarintEnc w.bits_pos hrd hlen,
    fun hrd hlen => zzvarintDec_zzvarintEnc w.bits_pos hrd hlen⟩

/-! ## Zigzag -/

/-- Zigzag undoes its decoding (R113, R117): the sign of the decoded value is the bit 0 that the decoding has shifted
out. -/
theorem zigzag_unzigzag {w : Nat} (u : BitVec w) : zigzag (unzigzag u) = u := by
  apply BitVec.eq_of_getLsbD_eq
  intro i hi
  have hsign : (unzigzag u).msb = u.getLsbD 0 := by
    rw [BitVec.msb_eq_getLsbD_last, getLsbD_unzigzag u (by omega), BitVec.getLsbD_of_ge _ _ (by omega), Bool.false_xor]
  rw [getLsbD_zigzag _ hi, hsign]
  cases i with
  | zero => simp
  | succ i => simp [getLsbD_unzigzag u (Nat.lt_of_succ_lt hi)]

/-- Settles O38: `unzigzag_zigzag` and `zigzag_unzigzag` at the two widths. -/
theorem zigzagInverse : Obligations.ZigzagInverse := fun _ v => ⟨unzigzag_zigzag v, zigzag_unzigzag v⟩

/-- The zigzag of a value that is not negative shifts it (R113). -/
theorem zigzag_of_msb_false {w : Nat} {v : BitVec w} (h : v.msb = false) : zigzag v = v <<< 1 := by
  apply BitVec.eq_of_getLsbD_eq
  intro i hi
  rw [getLsbD_zigzag v hi, h]
  cases i <;> simp [hi, BitVec.getLsbD_eq_getElem, Nat.lt_of_succ_lt]

/-- The zigzag of a negative value shifts it and turns every bit over (R113). -/
theorem zigzag_of_msb_true {w : Nat} {v : BitVec w} (h : v.msb = true) : zigzag v = ~~~(v <<< 1) := by
  apply BitVec.eq_of_getLsbD_eq
  intro i hi
  rw [getLsbD_zigzag v hi, h]
  cases i <;> simp [hi, BitVec.getLsbD_eq_getElem, Nat.lt_of_succ_lt]

theorem toNat_zigzag_of_nonneg {w : Nat} {v : BitVec w} (h : 0 ≤ v.toInt) :
    ((zigzag v).toNat : Int) = 2 * v.toInt := by
  have hmsb : v.msb = false := by simpa [BitVec.msb_eq_toInt] using h
  have hlt : 2 * v.toNat < 2 ^ w := BitVec.msb_eq_false_iff_two_mul_lt.1 hmsb
  rw [zigzag_of_msb_false hmsb, BitVec.toInt_eq_toNat_of_msb hmsb, BitVec.toNat_shiftLeft, Nat.shiftLeft_eq, pow_one,
    Nat.mod_eq_of_lt (by omega)]
  omega

theorem toNat_zigzag_of_neg {w : Nat} {v : BitVec w} (h : v.toInt < 0) :
    ((zigzag v).toNat : Int) = -2 * v.toInt - 1 := by
  have hmsb : v.msb = true := by simpa [BitVec.msb_eq_toInt] using h
  have hge : 2 ^ w ≤ 2 * v.toNat := BitVec.msb_eq_true_iff_two_mul_ge.1 hmsb
  have hlt : v.toNat < 2 ^ w := v.isLt
  have hint : v.toInt = v.toNat - (2 ^ w : Nat) := by
    rw [BitVec.toInt_eq_toNat_cond, if_neg (Nat.not_lt.2 hge)]
  have hshift : v.toNat <<< 1 % 2 ^ w = 2 * v.toNat - 2 ^ w := by
    rw [Nat.shiftLeft_eq, pow_one, Nat.mul_comm, Nat.mod_eq_sub_mod hge, Nat.mod_eq_of_lt (by omega)]
  rw [zigzag_of_msb_true hmsb, BitVec.toNat_not, BitVec.toNat_shiftLeft, hshift, hint]
  omega

/-- Settles O37: the shifted value when the sign bit is clear, its complement when it is set. -/
theorem zigzagArithmetic : Obligations.ZigzagArithmetic := fun _ _ => ⟨toNat_zigzag_of_nonneg, toNat_zigzag_of_neg⟩

/-! ## The form of an encoded varint -/

/-- The encoder's last byte ends the varint (R110). -/
theorem getLsbD_lastByte {x : Nat} (h : x < 128) : (BitVec.ofNat 8 x).getLsbD 7 = false := by
  rw [BitVec.getLsbD_ofNat, Nat.testBit_lt_two_pow h, Bool.and_false]

/-- Every byte the encoder writes before the last continues (R110). -/
theorem getLsbD_moreByte (x : Nat) : (BitVec.ofNat 8 (x % 128 + 128)).getLsbD 7 = true := by
  rw [BitVec.getLsbD_ofNat, Nat.add_comm, Nat.testBit_two_pow_add_eq (i := 7),
    Nat.testBit_lt_two_pow (Nat.mod_lt x (by decide : 0 < 2 ^ 7))]
  rfl

/-- The form of R111, of bytes that encode `v`: only the last byte ends the varint, and it is `00` only when it is the
one byte of the value 0. -/
def CanonicalVarint (v : Nat) (bytes : List Byte) : Prop :=
  ∃ init last, bytes = init ++ [last] ∧ (∀ b ∈ init, b.getLsbD 7 = true) ∧ last.getLsbD 7 = false ∧
    (last = 0 → init = [] ∧ v = 0)

theorem canonicalVarint_singleton {v : Nat} (h : v < 128) : CanonicalVarint v [BitVec.ofNat 8 v] := by
  refine ⟨[], BitVec.ofNat 8 v, rfl, nofun, getLsbD_lastByte h, fun hzero => ⟨rfl, ?_⟩⟩
  have hnat := congrArg BitVec.toNat hzero
  rwa [BitVec.toNat_ofNat, Nat.mod_eq_of_lt (by omega)] at hnat

theorem CanonicalVarint.cons {v u : Nat} {b : Byte} {bytes : List Byte} (h : CanonicalVarint u bytes) (hu : u ≠ 0)
    (hb : b.getLsbD 7 = true) : CanonicalVarint v (b :: bytes) := by
  obtain ⟨init, last, rfl, hinit, hlast, hzero⟩ := h
  exact ⟨b :: init, last, rfl, List.forall_mem_cons.2 ⟨hb, hinit⟩, hlast, fun h0 => absurd (hzero h0).2 hu⟩

/-- The encoder's groups of a value that `k + 1` groups hold are canonical (R110, R111). -/
theorem canonicalVarint_uvarintGroups {k v : Nat} (h : v < 2 ^ (7 * (k + 1))) :
    CanonicalVarint v (uvarintGroups k v) := by
  induction k generalizing v with
  | zero => exact canonicalVarint_singleton h
  | succ k ih =>
    rcases Nat.lt_or_ge v 128 with hlast | hmore
    · rw [uvarintGroups_last hlast]
      exact canonicalVarint_singleton hlast
    · have hrest : v / 128 < 2 ^ (7 * (k + 1)) := by
        rw [Nat.div_lt_iff_lt_mul (by decide)]
        rwa [Nat.mul_succ, Nat.pow_add] at h
      rw [uvarintGroups_more hmore]
      exact (ih hrest).cons (by omega) (getLsbD_moreByte v)

/-- Settles O35: the turns the encoder may take are enough for every value of the width. -/
theorem uvarintIsCanonical : Obligations.UvarintIsCanonical := by
  intro w v
  obtain ⟨m, hm, hle⟩ := varintMaxLen_spec w.bits_pos
  have hfit : v.toNat < 2 ^ (7 * (varintMaxLen w.bits + 1)) :=
    v.isLt.trans_le (Nat.pow_le_pow_right (by decide) (by omega))
  obtain ⟨init, last, henc, hinit, hlast, hzero⟩ := canonicalVarint_uvarintGroups hfit
  exact ⟨init, last, henc, hinit, hlast, fun h0 => (hzero h0).1⟩

/-! ## The length of an encoded varint -/

/-- A value that `k` groups do not hold takes more than `k` bytes, where the encoder may take that many turns (R112). -/
theorem lt_uvarintGroups_length {g k v : Nat} (hk : k ≤ g) (h : 2 ^ (7 * k) ≤ v) : k < (uvarintGroups g v).length := by
  induction k generalizing g v with
  | zero => exact uvarintGroups_length_pos g v
  | succ k ih =>
    obtain ⟨g, rfl⟩ := Nat.exists_eq_add_one_of_ne_zero (show g ≠ 0 by omega)
    rw [Nat.mul_succ, Nat.pow_add] at h
    have hmore : 128 ≤ v := (Nat.le_mul_of_pos_left _ (Nat.two_pow_pos _)).trans h
    rw [uvarintGroups_more hmore, List.length_cons]
    exact Nat.succ_lt_succ (ih (by omega) ((Nat.le_div_iff_mul_le (by decide)).2 h))

/-- The encoding of `v` has `k + 1` bytes for `2^(7k) ≤ v < 2^(7(k + 1))` (R112). -/
theorem uvarintEnc_length_of_range {n k : Nat} {v : BitVec n} (hlo : 2 ^ (7 * k) ≤ v.toNat)
    (hhi : v.toNat < 2 ^ (7 * (k + 1))) : (uvarintEnc n v).length = k + 1 := by
  have hturns : k ≤ varintMaxLen n := by
    have := (Nat.pow_lt_pow_iff_right (by decide)).1 (hlo.trans_lt v.isLt)
    unfold varintMaxLen
    omega
  exact Nat.le_antisymm (uvarintGroups_length_le_of_lt hhi) (lt_uvarintGroups_length hturns hlo)

theorem uvarintEnc_length_of_lt {n : Nat} {v : BitVec n} (h : v.toNat < 2 ^ 7) : (uvarintEnc n v).length = 1 := by
  rw [uvarintEnc, uvarintGroups_last h, List.length_singleton]

theorem uvarintEnc_length {n : Nat} (v : BitVec n) : (uvarintEnc n v).length = max 1 ((bitLen v.toNat + 6) / 7) := by
  rcases Nat.lt_or_ge v.toNat (2 ^ 7) with hlt | hge
  · have := bitLen_le_of_lt hlt
    rw [uvarintEnc_length_of_lt hlt]
    omega
  · have hlog : bitLen v.toNat = Nat.log2 v.toNat + 1 := bitLen_of_pos (by omega)
    have hlo : 2 ^ (7 * (Nat.log2 v.toNat / 7)) ≤ v.toNat :=
      (Nat.pow_le_pow_right (by decide) (Nat.mul_div_le _ 7)).trans (Nat.log2_self_le (by omega))
    have hhi : v.toNat < 2 ^ (7 * (Nat.log2 v.toNat / 7 + 1)) :=
      Nat.lt_log2_self.trans_le (Nat.pow_le_pow_right (by decide) (by omega))
    rw [uvarintEnc_length_of_range hlo hhi, hlog]
    omega

/-- Settles O36: the closed form by `uvarintEnc_length`, the ranges by `uvarintEnc_length_of_range`. -/
theorem uvarintLength : Obligations.UvarintLength := by
  intro w v
  refine ⟨uvarintEnc_length v, uvarintEnc_length_of_lt, fun k hk hlo hhi => ?_, uvarintEnc_length_le w.bits_pos v⟩
  obtain ⟨k, rfl⟩ := Nat.exists_eq_add_one_of_ne_zero (show k ≠ 0 by omega)
  exact uvarintEnc_length_of_range hlo hhi

/-! ## Decoding any span -/

/-- The value of `k` groups of seven bits is below `128^k` (R116). -/
theorem sum_groups_lt {d : Nat → Nat} (hd : ∀ i, d i < 128) (k : Nat) :
    ((Finset.range k).sum fun i => d i * 128 ^ i) < 128 ^ k := by
  induction k with
  | zero => simp
  | succ k ih =>
    have hgroup := Nat.mul_le_mul_right (128 ^ k) (Nat.le_of_lt_succ (hd k))
    rw [Finset.sum_range_succ, Nat.pow_succ]
    omega

/-- The last group carries no bit at or above bit `n` exactly when the value of the groups is below `2^n` (R116). -/
theorem lastGroup_shiftRight_eq_zero_iff {d : Nat → Nat} (hd : ∀ i, d i < 128) {k n : Nat} (hk : 7 * k ≤ n) :
    d k >>> (n - 7 * k) = 0 ↔ ((Finset.range (k + 1)).sum fun i => d i * 128 ^ i) < 2 ^ n := by
  have hlow := sum_groups_lt hd k
  have hpow : 2 ^ n = 2 ^ (n - 7 * k) * 128 ^ k := by
    rw [← Nat.pow_mul 2 7 k, ← Nat.pow_add, Nat.sub_add_cancel hk]
  have hpos : 0 < 128 ^ k := Nat.pow_pos (by decide)
  rw [Nat.shiftRight_eq_div_pow, Nat.div_eq_zero_iff_lt (Nat.two_pow_pos _), Finset.sum_range_succ, hpow,
    ← Nat.div_lt_iff_lt_mul hpos, Nat.add_mul_div_right _ _ hpos, Nat.div_eq_of_lt hlow, Nat.zero_add]

theorem zzvarintDec_of_ok {rd : Nat → Byte} {len w c c' : Nat} {u : BitVec w}
    (h : uvarintDec rd len w c = .ok (u, c')) : zzvarintDec rd len w c = .ok (unzigzag u, c') := by
  rw [zzvarintDec_eq, h]
  rfl

theorem zzvarintDec_of_error {rd : Nat → Byte} {len w c : Nat} {e : DecFault}
    (h : uvarintDec rd len w c = .error e) : zzvarintDec rd len w c = .error e := by
  rw [zzvarintDec_eq, h]
  rfl

/-- The decoder on a span whose bytes from `c` to `c + k − 1` continue, where the varint may have byte `c + k`: what
the loop does from its first group on, with the check of the last group read as a bound on the value (R116). -/
theorem uvarintDec_cases (rd : Nat → Byte) (len : Nat) {n c k v : Nat}
    (hcont : ∀ i < k, c + i < len ∧ (rd (c + i)).getLsbD 7 = true) (hk : k < varintMaxLen n)
    (hv : v = (Finset.range (k + 1)).sum fun i => (rd (c + i)).toNat % 128 * 128 ^ i) :
    (len ≤ c + k → uvarintDec rd len n c = .error .truncated) ∧
    (c + k < len → (rd (c + k)).getLsbD 7 = false → v < 2 ^ n →
      uvarintDec rd len n c = .ok (BitVec.ofNat n v, c + k + 1)) ∧
    (c + k < len → k + 1 = varintMaxLen n → (rd (c + k)).getLsbD 7 = true ∨ 2 ^ n ≤ v →
      uvarintDec rd len n c = .error .varintOverflow) := by
  have hbits : 7 * k ≤ n := by
    unfold varintMaxLen at hk
    omega
  have hgroup : ((rd (c + k)).toNat % 128) >>> (n - 7 * k) = 0 ↔ v < 2 ^ n := by
    rw [hv]
    exact lastGroup_shiftRight_eq_zero_iff (fun i => Nat.mod_lt (rd (c + i)).toNat (by decide)) hbits
  have hloop := uvarintLoop_cases rd len n (varintMaxLen n) k 0 c 0 hcont hk (Nat.two_pow_pos _)
  rw [pow_zero, Nat.one_mul, Nat.zero_add, Nat.zero_add, ← hv] at hloop
  obtain ⟨htrunc, hvalue, hover⟩ := hloop
  exact ⟨htrunc, fun hlt hend hfit => hvalue hlt hend fun _ => hgroup.2 hfit,
    fun hlt hlast hbad => hover hlt hlast (hbad.imp_right fun hle => mt hgroup.1 (Nat.not_lt.2 hle))⟩

/-- Settles O59: `uvarintDec_cases`, the zigzag decoder by its two equations; `80 00` is two groups of value 0. -/
theorem uvarintDecodesAnySpan : Obligations.UvarintDecodesAnySpan := by
  refine ⟨fun w rd len c k v hcont hk hv => ?_, fun w rd len c h0 h1 hlen => ?_⟩
  · obtain ⟨htrunc, hvalue, hover⟩ := uvarintDec_cases rd len hcont hk hv
    exact ⟨fun h => ⟨htrunc h, zzvarintDec_of_error (htrunc h)⟩,
      fun h hend hfit => ⟨hvalue h hend hfit, zzvarintDec_of_ok (hvalue h hend hfit)⟩,
      fun h hlast hbad => ⟨hover h hlast hbad, zzvarintDec_of_error (hover h hlast hbad)⟩⟩
  · have hcont : ∀ i < 1, c + i < len ∧ (rd (c + i)).getLsbD 7 = true := by
      intro i hi
      obtain rfl : i = 0 := by omega
      exact ⟨by omega, by simp [h0]⟩
    have hzero : 0 = (Finset.range (1 + 1)).sum fun i => (rd (c + i)).toNat % 128 * 128 ^ i := by
      simp [Finset.sum_range_succ, h0, h1]
    have hmax : 1 < varintMaxLen w.bits := by cases w <;> decide
    obtain ⟨-, hvalue, -⟩ := uvarintDec_cases rd len hcont hmax hzero
    exact hvalue (by omega) (by simp [h1]) (Nat.two_pow_pos _)

end Sys2Proof.Machine
end

section
/-! SUPPORT. The bit width and the bit-packer on their own (R140 to R149): which bits of a packed run a value has, the
payload of a mini-block as one run of all its slots, and what the decoder makes of a mini-block on any span (R243,
R244). -/

namespace Sys2Proof.Machine

/-! ## Bit width -/

theorem lt_bitLen_of_le {x k : Nat} (h : 2 ^ k ≤ x) : k < bitLen x :=
  (Nat.pow_lt_pow_iff_right (by decide)).1 (h.trans_lt (lt_two_pow_bitLen x))

theorem bitLen_two_pow (k : Nat) : bitLen (2 ^ k) = k + 1 :=
  Nat.le_antisymm (bitLen_le_of_lt (Nat.pow_lt_pow_succ (by decide))) (lt_bitLen_of_le le_rfl)

theorem bitLen_two_pow_sub_one (k : Nat) : bitLen (2 ^ k - 1) = k := by
  have hpos := Nat.two_pow_pos k
  refine Nat.le_antisymm (bitLen_le_of_lt (by omega)) ?_
  cases k with
  | zero => exact Nat.zero_le _
  | succ k =>
    have hhalf := Nat.two_pow_pos k
    exact lt_bitLen_of_le (by omega)

/-- Settles O39: `lt_two_pow_bitLen` and `bitLen_le_of_lt`, with the powers of two by `lt_bitLen_of_le`. -/
theorem bitWidthIsLeast : Obligations.BitWidthIsLeast :=
  ⟨bitLen_zero, by decide, fun x => ⟨lt_two_pow_bitLen x, fun _ => bitLen_le_of_lt⟩,
    fun k => ⟨bitLen_two_pow_sub_one k, bitLen_two_pow k⟩, fun _ x => bitLen_le_of_lt x.isLt⟩

/-! ## The bits of a packed run -/

section
variable {w : Nat} {vals : List Nat}

/-- The byte that has bit `j` of field `i` is one of the run's (R140). -/
theorem fieldByte_lt_runBytes {i j cnt : Nat} (hi : i < cnt) (hj : j < w) : (i * w + j) / 8 < runBytes cnt w := by
  have hfield : (i + 1) * w ≤ cnt * w := Nat.mul_le_mul_right w hi
  rw [Nat.succ_mul] at hfield
  unfold runBytes
  omega

/-- Bit `k` of a packed run is bit `k` of the scratch (R140). -/
theorem pack_getLsbD {k : Nat} (h : k / 8 < (pack w vals).length) :
    (pack w vals)[k / 8].getLsbD (k % 8) = (packScratch w 0 vals).testBit k :=
  bytesOfNat_bit (by simpa using h)

/-- Bit `j` of value `i` is bit `i × w + j` of the scratch (R140). -/
theorem packScratch_testBit (hvals : ∀ v ∈ vals, v < 2 ^ w) {i j : Nat} (hi : i < vals.length) (hj : j < w) :
    (packScratch w 0 vals).testBit (i * w + j) = vals[i].testBit j := by
  rw [← packScratch_field hvals hi, Nat.testBit_mod_two_pow, Nat.testBit_shiftRight]
  simp [hj]

/-- No bit of the scratch lies past the last value (R140). -/
theorem packScratch_testBit_of_le (hvals : ∀ v ∈ vals, v < 2 ^ w) {k : Nat} (hk : vals.length * w ≤ k) :
    (packScratch w 0 vals).testBit k = false :=
  Nat.testBit_lt_two_pow ((packScratch_lt hvals).trans_le (Nat.pow_le_pow_right (by decide) hk))

end

/-- Settles O40: the bits of the run are those of the scratch, by `pack_getLsbD`. -/
theorem packPlacesBits : Obligations.PackPlacesBits := by
  intro w vals _ _ hvals
  refine ⟨pack_length w vals, fun i j hi hj h => ?_, fun i j hi hj => ?_, fun k hk h => ?_⟩
  · rw [pack_getLsbD, packScratch_testBit hvals hi hj]
  · rw [pack_length]
    exact fieldByte_lt_runBytes hi hj
  · rw [pack_getLsbD, packScratch_testBit_of_le hvals hk]

/-! ## The payload of a mini-block -/

section
variable {w : Nat} {vals : List Nat}

theorem miniBlockPayload_of_ne_nil (hnil : vals ≠ []) :
    miniBlockPayload w vals = pack w vals ++ List.replicate (4 * w - runBytes vals.length w) 0 := by
  rw [miniBlockPayload, if_neg hnil, pack_length]

/-- More bytes of an integer than it needs end in zero bytes (R64). -/
theorem bytesOfNat_add {nb acc : Nat} (hacc : acc < 2 ^ (8 * nb)) (n : Nat) :
    bytesOfNat (nb + n) acc = bytesOfNat nb acc ++ List.replicate n 0 := by
  have hhigh (k : Nat) : acc >>> (8 * (nb + k)) = 0 :=
    Nat.shiftRight_eq_zero _ _ (hacc.trans_le (Nat.pow_le_pow_right (by decide) (by omega)))
  simp [bytesOfNat, List.range_add, Function.comp_def, hhigh]

/-- Padding slots of value 0 leave the scratch as it is (R146). -/
theorem packScratch_append_zeros (i n : Nat) :
    packScratch w i (vals ++ List.replicate n 0) = packScratch w i vals := by
  induction vals generalizing i with
  | nil =>
    induction n generalizing i with
    | zero => rfl
    | succ n ih => simpa [List.replicate_succ, packScratch] using ih (i + 1)
  | cons v vs ih => rw [List.cons_append, packScratch, packScratch, ih]

/-- The fill of a payload is what packing the padding slots gives (R145, R146). -/
theorem miniBlockPayload_eq_pack (hnil : vals ≠ []) (hlen : vals.length ≤ 32) (hvals : ∀ v ∈ vals, v < 2 ^ w) :
    miniBlockPayload w vals = pack w (vals ++ List.replicate (32 - vals.length) 0) := by
  have hle := runBytes_le w hlen
  have hall : runBytes 32 w = runBytes vals.length w + (4 * w - runBytes vals.length w) := by
    unfold runBytes at hle ⊢
    omega
  have hfit : packScratch w 0 vals < 2 ^ (8 * runBytes vals.length w) := by
    refine (packScratch_lt hvals).trans_le (Nat.pow_le_pow_right (by decide) ?_)
    unfold runBytes
    omega
  have hslots : (vals ++ List.replicate (32 - vals.length) 0).length = 32 := by
    simp
    omega
  rw [miniBlockPayload_of_ne_nil hnil, pack, pack, hslots, packScratch_append_zeros, hall, bytesOfNat_add hfit]

/-- The first bytes of a payload are the packed run (R145). -/
theorem spanHolds_pack_of_payload_start {rd : Nat → Byte} {c : Nat}
    (hrd : ∀ k (h : k < (miniBlockPayload w vals).length), k < runBytes vals.length w →
      rd (c + k) = (miniBlockPayload w vals)[k]) : SpanHolds rd c (pack w vals) := by
  intro k hk
  have hnil : vals ≠ [] := by
    rintro rfl
    simp [runBytes] at hk
  simp only [miniBlockPayload_of_ne_nil hnil, List.length_append] at hrd
  rw [hrd k (by omega) (by simpa using hk), List.getElem_append_left hk]

end

/-- Settles O41: `miniBlockPayload_eq_pack` and `miniBlockPayload_length`. -/
theorem payloadIsPaddedPack : Obligations.PayloadIsPaddedPack := by
  intro w vals hpos hlen _ hvals
  have hnil : vals ≠ [] := List.length_pos_iff.1 hpos
  exact ⟨miniBlockPayload_eq_pack hnil hlen hvals, miniBlockPayload_length hnil hlen⟩

/-- Settles O42: `unpack_pack`, a payload beginning with its run. -/
theorem packUnpackRoundTrip : Obligations.PackUnpackRoundTrip := fun W _ _ _ _ _ _ hvals =>
  ⟨unpack_pack W.bits hvals, fun hrd => unpack_pack W.bits hvals (spanHolds_pack_of_payload_start hrd)⟩

/-! ## Mini-blocks on any span -/

/-- Bit `b` of unpacked value `j` is bit `j × wd + b` of the span's run, and no bit at or above bit `wd` is set
(R147). -/
theorem unpack_getLsbD {W cnt wd c j b : Nat} (rd : Nat → Byte) (hj : j < cnt) (hb : b < W) :
    ((unpack W cnt wd rd c)[j]'(by simpa using hj)).getLsbD b =
      (decide (b < wd) && (rd (c + (j * wd + b) / 8)).getLsbD ((j * wd + b) % 8)) := by
  simp only [unpack, List.getElem_map, List.getElem_range, BitVec.getLsbD_ofNat, Nat.testBit_mod_two_pow,
    Nat.testBit_shiftRight, natOfSpan_bit, hb, decide_true, Bool.true_and]
  by_cases hbit : b < wd
  · simp [fieldByte_lt_runBytes hj hbit]
  · simp [hbit]

/-- `reconstruct_getElem?` with the index in range (R244). -/
theorem reconstruct_getElem {W : Nat} (bmin run : BitVec W) (norms : List (BitVec W)) (j : Nat)
    (h : j < (reconstruct bmin run norms).length) :
    (reconstruct bmin run norms)[j] =
      (if j = 0 then run else (reconstruct bmin run norms)[j - 1]) +
        (norms[j]'(by simpa using h) + bmin) := by
  have hstep := reconstruct_getElem? bmin run norms j (by simpa using h)
  rwa [List.getElem?_eq_getElem h, List.getD_eq_getElem _ _ (by omega), Option.some_inj] at hstep

/-- Settles O60: `decodeMiniBlocks_none` and `decodeMiniBlocks_some`; the values are those that `reconstruct` makes of
the unpacked norms. -/
theorem decodeTakesMiniBlocks : Obligations.DecodeTakesMiniBlocks := by
  intro w rd len t bmin wd wds p
  refine ⟨rfl, decodeMiniBlocks_none, fun hleft hshort => ?_, fun hleft hfits _ => ?_⟩
  · rw [decodeMiniBlocks_some hleft, if_pos hshort]
  · refine ⟨reconstruct bmin p.run (unpack w.bits (min 32 (t - p.values.length)) wd rd p.c), ?_, by simp,
      fun j hj => ⟨_, reconstruct_getElem bmin p.run _ j hj, fun b hb => unpack_getLsbD rd (by simpa using hj) hb⟩⟩
    rw [decodeMiniBlocks_some hleft, if_neg (Nat.not_lt.2 hfits)]

end Sys2Proof.Machine
end

section
/-! SUPPORT. The block encoder on its own (R160 to R170): the frame of reference is the least real delta (R163), no
normalized delta wraps (R164), the mini-block widths are the least that fit (R165), and the layout of a block's bytes
(R166, R167). -/

namespace Sys2Proof.Machine

/-! ## Choosing from a list -/

/-- A fold whose every step keeps one of its two arguments ends with the start or a value of the list. -/
theorem foldl_mem_cons_of_choice {α : Type} {f : α → α → α} (hf : ∀ a b, f a b = a ∨ f a b = b) (l : List α)
    (a : α) : l.foldl f a ∈ a :: l := by
  induction l generalizing a with
  | nil => exact List.mem_singleton_self a
  | cons b bs ih =>
    rcases List.mem_cons.1 (ih (f a b)) with hstart | hrest
    · rw [List.foldl_cons, hstart]
      rcases hf a b with h | h <;> simp [h]
    · exact List.mem_cons_of_mem a (List.mem_cons_of_mem b hrest)

theorem smin_choice {W : Nat} (a b : BitVec W) : smin a b = a ∨ smin a b = b :=
  (ite_eq_or_eq _ b a).symm

theorem umax_choice {W : Nat} (a b : BitVec W) : umax a b = a ∨ umax a b = b :=
  (ite_eq_or_eq _ b a).symm

theorem toInt_smin_le {W : Nat} (a b : BitVec W) : (smin a b).toInt ≤ a.toInt ∧ (smin a b).toInt ≤ b.toInt := by
  unfold smin
  split
  next h => exact ⟨(BitVec.slt_iff_toInt_lt.1 h).le, le_rfl⟩
  next h => exact ⟨le_rfl, Int.not_lt.1 (mt BitVec.slt_iff_toInt_lt.2 h)⟩

/-- The running signed minimum is at most where it begins and at most each value it has passed. -/
theorem toInt_foldl_smin_le {W : Nat} (l : List (BitVec W)) (a : BitVec W) :
    ∀ d ∈ a :: l, (l.foldl smin a).toInt ≤ d.toInt := by
  induction l generalizing a with
  | nil => simp
  | cons b bs ih =>
    obtain ⟨hstart, hpassed⟩ := List.forall_mem_cons.1 (ih (smin a b))
    obtain ⟨ha, hb⟩ := toInt_smin_le a b
    exact List.forall_mem_cons.2 ⟨hstart.trans ha, List.forall_mem_cons.2 ⟨hstart.trans hb, hpassed⟩⟩

/-! ## The frame of reference and the normalized deltas -/

/-- The difference of signed readings in order has an unsigned reading without wrap (R164). -/
theorem toNat_sub_of_toInt_le {W : Nat} {a b : BitVec W} (h : b.toInt ≤ a.toInt) :
    ((a - b).toNat : Int) = a.toInt - b.toInt := by
  have hlt : a.toInt - b.toInt < ((2 ^ W : Nat) : Int) := by
    have ha := BitVec.two_mul_toInt_lt (x := a)
    have hb := BitVec.le_two_mul_toInt (x := b)
    push_cast
    omega
  have hdiff : a - b = BitVec.ofInt W (a.toInt - b.toInt) :=
    BitVec.eq_of_toInt_eq (by rw [BitVec.toInt_sub, BitVec.toInt_ofInt])
  rw [hdiff, BitVec.toNat_ofInt, Int.toNat_of_nonneg (Int.emod_nonneg _ (by positivity)),
    Int.emod_eq_of_lt (Int.sub_nonneg_of_le h) hlt]

section
variable {W : Nat} (v : Nat → BitVec W) (L : Nat) {n : Nat}

/-- The real deltas of a block (R161). -/
theorem take_blockDeltas (hn : n ≤ 128) :
    (blockDeltas v L n).take n = (List.range n).map fun i => v (L + i) - v (L + i - 1) := by
  apply List.ext_getElem
  · simpa using hn
  · intro i _ hi
    have hi : i < n := by simpa using hi
    simp [blockDeltas, hi]

/-- `bmin` is one of the real deltas, and none has a smaller signed reading (R163). -/
theorem blockMin_mem_and_le {deltas : List (BitVec W)} (h : deltas.take n ≠ []) :
    blockMin n deltas ∈ deltas.take n ∧ ∀ d ∈ deltas.take n, (blockMin n deltas).toInt ≤ d.toInt := by
  obtain ⟨d, ds, hcons⟩ := List.exists_cons_of_ne_nil h
  have hmin : blockMin n deltas = ds.foldl smin d := by simp only [blockMin, hcons]
  rw [hmin, hcons]
  exact ⟨foldl_mem_cons_of_choice smin_choice ds d, toInt_foldl_smin_le ds d⟩

/-- The same by the slots of the real deltas. -/
theorem blockMin_blockDeltas (hpos : 1 ≤ n) (hn : n ≤ 128) :
    (∃ i < n, blockMin n (blockDeltas v L n) = v (L + i) - v (L + i - 1)) ∧
      ∀ i < n, (blockMin n (blockDeltas v L n)).toInt ≤ (v (L + i) - v (L + i - 1)).toInt := by
  have hreal := take_blockDeltas v L hn
  have hne : (blockDeltas v L n).take n ≠ [] := by
    rw [hreal]
    simpa using Nat.ne_of_gt hpos
  obtain ⟨hmem, hle⟩ := blockMin_mem_and_le hne
  rw [hreal] at hmem hle
  obtain ⟨i, hi, heq⟩ := List.mem_map.1 hmem
  exact ⟨⟨i, List.mem_range.1 hi, heq.symm⟩,
    fun i hi => hle _ (List.mem_map_of_mem (List.mem_range.2 hi))⟩

/-- The normalized delta of a real slot (R164). -/
theorem blockNorms_real (hn : n ≤ 128) {i : Nat} (hi : i < n) : (blockNorms n (blockDeltas v L n))[i]? =
    some (v (L + i) - v (L + i - 1) - blockMin n (blockDeltas v L n)) := by
  rw [blockNorms, take_blockDeltas v L hn, List.getElem?_append_left (by simpa using hi)]
  simp [hi]

/-- A padding slot has the normalized delta 0 (R164). -/
theorem blockNorms_padding (hn : n ≤ 128) {i : Nat} (hi : n ≤ i) (hlt : i < 128) :
    (blockNorms n (blockDeltas v L n))[i]? = some 0 := by
  rw [blockNorms, take_blockDeltas v L hn, List.getElem?_append_right (by simpa using hi)]
  simp [show i - n < 128 - n by omega]

end

/-- Settles O43: `blockMin_blockDeltas`, and `toNat_sub_of_toInt_le` for the real slots. -/
theorem frameOfReferenceIsMinimum : Obligations.FrameOfReferenceIsMinimum := by
  intro w v L n hpos hn
  obtain ⟨hmem, hle⟩ := blockMin_blockDeltas v L hpos hn
  exact ⟨hmem, hle, fun i hi => ⟨_, blockNorms_real v L hn hi, toNat_sub_of_toInt_le (hle i hi)⟩,
    fun i hi hlt => blockNorms_padding v L hn hi hlt⟩

/-! ## The widths of the mini-blocks -/

section
variable {W : Nat} {n m : Nat} {norms : List (BitVec W)}

/-- The real normalized deltas of mini-block `m` are those of its slots (R165). -/
theorem mem_miniValues_iff {x : BitVec W} : x ∈ miniValues n norms m ↔
    ∃ i, 32 * m ≤ i ∧ i < 32 * m + miniCount n m ∧ norms[i]? = some x := by
  simp only [miniValues, List.mem_iff_getElem?, List.getElem?_take, List.getElem?_drop, Option.ite_none_right_eq_some]
  constructor
  · rintro ⟨j, hj, hx⟩
    exact ⟨32 * m + j, Nat.le_add_right _ _, by omega, hx⟩
  · rintro ⟨i, hle, hlt, hx⟩
    obtain ⟨j, rfl⟩ := Nat.exists_eq_add_of_le hle
    exact ⟨j, by omega, hx⟩

/-- A width is at least `MBW[m]` exactly when every real normalized delta of mini-block `m` fits it (R165). -/
theorem miniWidth_le_iff {k : Nat} :
    miniWidth n norms m ≤ k ↔ ∀ x ∈ miniValues n norms m, x.toNat < 2 ^ k := by
  constructor
  · intro h x hx
    exact (toNat_lt_miniWidth n norms m hx).trans_le (Nat.pow_le_pow_right (by decide) h)
  · intro h
    refine bitLen_le_of_lt ?_
    rcases List.mem_cons.1 (foldl_mem_cons_of_choice umax_choice (miniValues n norms m) 0) with hzero | hmem
    · rw [hzero]
      exact Nat.two_pow_pos k
    · exact h _ hmem

theorem miniWidth_of_miniCount_zero (h : miniCount n m = 0) : miniWidth n norms m = 0 := by
  simp [miniWidth, miniValues, h]

end

/-! ## The layout of a block -/

/-- The payload of mini-block `m` (R167): its real normalized deltas packed at its width. -/
def miniPayload {W : Nat} (n : Nat) (norms : List (BitVec W)) (m : Nat) : List Byte :=
  miniBlockPayload (miniWidth n norms m) ((miniValues n norms m).map (·.toNat))

section
variable {W n : Nat}

/-- It has `4 × MBW[m]` bytes, also where the mini-block has no real value (R167). -/
theorem miniPayload_length (norms : List (BitVec W)) (m : Nat) :
    (miniPayload n norms m).length = 4 * miniWidth n norms m := by
  by_cases hnil : miniValues n norms m = []
  · have hwidth : miniWidth n norms m = 0 := by simp [miniWidth, hnil]
    simp [miniPayload, hnil, hwidth]
  · exact miniBlockPayload_length (mt List.map_eq_nil_iff.1 hnil) (by simpa using miniValues_length_le n norms m)

theorem miniPayload_of_miniWidth_zero {norms : List (BitVec W)} {m : Nat} (h : miniWidth n norms m = 0) :
    miniPayload n norms m = [] := by
  rw [← List.length_eq_zero_iff, miniPayload_length, h]

/-- A block is its minimum, its four width bytes and its four payloads (R92, R166, R167). -/
theorem blockBytes_eq (v : Nat → BitVec W) (L : Nat) {norms : List (BitVec W)}
    (hnorms : norms = blockNorms n (blockDeltas v L n)) :
    blockBytes v L n = zzvarintEnc W (blockMin n (blockDeltas v L n))
      ++ [BitVec.ofNat 8 (miniWidth n norms 0), BitVec.ofNat 8 (miniWidth n norms 1),
        BitVec.ofNat 8 (miniWidth n norms 2), BitVec.ofNat 8 (miniWidth n norms 3)]
      ++ miniPayload n norms 0 ++ miniPayload n norms 1 ++ miniPayload n norms 2 ++ miniPayload n norms 3 := by
  subst hnorms
  simp [blockBytes, blockHeader, blockPayload, miniPayload, List.range_succ]

end

/-- Settles O44: the layout by `blockBytes_eq` and `miniPayload_length`, the widths by `miniWidth_le_iff`. -/
theorem miniBlockWidthsFit : Obligations.MiniBlockWidthsFit := by
  refine ⟨fun w v L n hpos hn => ?_, fun w v L n m hpos hn hm => ?_⟩
  · have hbytes := blockBytes_eq (n := n) v L rfl
    refine ⟨_, _, miniPayload n (blockNorms n (blockDeltas v L n)), rfl, fun _ => rfl,
      fun m _ => congrArg _ (miniValues_toNat v L n m hn),
      fun m _ hcount => miniPayload_of_miniWidth_zero (miniWidth_of_miniCount_zero hcount),
      fun m _ => miniPayload_length _ m, hbytes, ?_⟩
    rw [hbytes]
    simp only [List.length_append, miniPayload_length, List.length_cons, List.length_nil]
    omega
  · refine ⟨rfl, miniWidth_le n _ m, miniWidth_of_miniCount_zero, fun i x hle hlt hx => ?_, fun k hk => ?_⟩
    · exact toNat_lt_miniWidth n _ m (mem_miniValues_iff.2 ⟨i, hle, hlt, hx⟩)
    · refine miniWidth_le_iff.2 fun x hx => ?_
      obtain ⟨i, hle, hlt, hx⟩ := mem_miniValues_iff.1 hx
      exact hk i x hle hlt hx

/-- Settles O45: the minimum is one of the equal deltas, so every real normalized delta is 0, and 0 has width 0. -/
theorem equalDeltasGiveNoPayload : Obligations.EqualDeltasGiveNoPayload := by
  intro w v L n x hpos hn hequal
  obtain ⟨⟨i, hi, hmin⟩, -⟩ := blockMin_blockDeltas v L hpos hn
  rw [hequal i hi] at hmin
  have hnorms : ∀ i < n, (blockNorms n (blockDeltas v L n))[i]? = some 0 := fun i hi => by
    rw [blockNorms_real v L hn hi, hequal i hi, hmin]
    exact congrArg some (BitVec.sub_self x)
  have hwidths : ∀ m, miniWidth n (blockNorms n (blockDeltas v L n)) m = 0 := fun m => by
    refine Nat.le_zero.1 (miniWidth_le_iff.2 fun d hd => ?_)
    obtain ⟨i, hle, hlt, hd⟩ := mem_miniValues_iff.1 hd
    have hcount := miniCount_eq n m
    cases (hnorms i (by omega)).symm.trans hd
    exact Nat.one_pos
  have hpayloads : ∀ m, miniPayload n (blockNorms n (blockDeltas v L n)) m = [] := fun m =>
    miniPayload_of_miniWidth_zero (hwidths m)
  refine ⟨hmin, hnorms, fun m _ => hwidths m, ?_⟩
  rw [blockBytes_eq v L rfl, hmin]
  simp [hwidths, hpayloads]

end Sys2Proof.Machine
end

section
/-! SUPPORT. The commands that flush a block (R195, R200): FLUSH's operands are in range in every state with the
invariant (R160), and what an ADD or a FINISH whose output fits does to the counts and to DEST (R197). -/

namespace Sys2Proof.Machine

/-! ## No command stops -/

/-- With values pending the header has been written, so FLUSH may take all of them (R40, R160, R196). -/
theorem State.Inv.flushable_pending {s : State} (hs : s.Inv) (hp : 0 < s.pendingCount.toNat) :
    s.flushable s.pendingCount.toNat = true := by
  have hle := hs.pending_le
  have hL : s.logicalIndex.toNat ≠ 0 := fun h0 => by
    rw [hs.logical_pending (bitVec_toNat_eq_zero.1 h0)] at hp
    exact absurd hp (Nat.lt_irrefl 0)
  exact (s.flushable_iff _).2 ⟨hp, by omega, le_rfl, by omega⟩

/-- Settles O12: by the cases of each command; those that stop need a FLUSH out of range or an unsaid launch. -/
theorem commandsNeverStop : Obligations.CommandsNeverStop := by
  intro s i hinv hlaunch
  cases i with
  | init width total => exact ⟨_, rfl⟩
  | add nslots slots =>
    rcases execAdd_cases nslots slots s with ⟨-, he⟩ | ⟨-, -, he⟩ | ⟨-, -, -, he⟩ | ⟨-, -, -, he⟩ <;>
      exact ⟨_, he⟩
  | finish =>
    rcases execFinish_cases s with ⟨-, he⟩ | ⟨-, -, he⟩ | ⟨-, -, hp, hno, -⟩ | ⟨-, -, -, he⟩
    case inr.inr.inl => exact absurd ((hinv rfl).flushable_pending hp) (by simp [hno])
    all_goals exact ⟨_, he⟩
  | decode width total len =>
    rcases execDecode_cases width total len s with ⟨r, hr, -⟩ | ⟨e, -, -, he⟩ | ⟨c, vs, -, -, he⟩
    · exact absurd ((hlaunch width total len rfl).symm.trans hr) nofun
    · exact ⟨_, he⟩
    · exact ⟨_, he⟩

/-! ## A commit that fits -/

/-- A write gives its bytes back through the total read. -/
theorem Memory.read_writeBytes_inside (m : Memory) (a : Nat) (bytes : List Byte) {j : Nat} (hj : j < bytes.length) :
    (m.writeBytes a bytes).read (a + j) = bytes[j] := by
  unfold Memory.read
  rw [Memory.read?_writeBytes, if_pos (by omega), Nat.add_sub_cancel_left, List.getElem?_eq_getElem hj]
  rfl

theorem State.commit_of_fits {s : State} {output : List Byte} (hfit : s.fits output = true) (work : State)
    (finish : State → State) : s.commit work output finish = finish (work.commitBytes output) := by
  rw [State.commit, if_pos hfit]

/-- The cursor and DEST of a state `t` after the bytes of `output` are written at the cursor of `s` (R197). -/
theorem State.cursor_and_dest_of_commit {s t : State} {output : List Byte} (hfit : s.fits output = true)
    (hcursor : t.outputCursor = s.outputCursor + BitVec.ofNat 64 output.length)
    (hdest : t.dest = s.dest.writeBytes s.outputCursor.toNat output) :
    t.outputCursor.toNat = s.outputCursor.toNat + output.length ∧
      (∀ a (h : a < output.length), t.dest.read (s.outputCursor.toNat + a) = output[a]) ∧
      ∀ a, a < s.outputCursor.toNat ∨ s.outputCursor.toNat + output.length ≤ a →
        t.dest.read a = s.dest.read a := by
  rw [hcursor, hdest]
  exact ⟨s.cursor_commitBytes output hfit, fun a h => Memory.read_writeBytes_inside _ _ _ h,
    fun a h => Memory.read_writeBytes_of_outside _ _ _ a h⟩

/-- What the commit of an ADD that flushes leaves alone (R193, R195). -/
theorem State.eq_of_flushing_add {s t : State} {vals : List Word} {n : Nat} {block : List Byte}
    (ht : t = (((s.appendValues vals).afterFlush n).commitBytes block).setResult .ok) :
    t = { s with rb := (s.appendValues vals).rb, logicalIndex := t.logicalIndex, pendingCount := t.pendingCount,
                 mbw := t.mbw, outputCursor := t.outputCursor, dest := t.dest, freeCount := t.freeCount,
                 result := 0 } := by
  subst ht
  rfl

/-- What the commit of a FINISH that flushes leaves alone (R200). -/
theorem State.eq_of_flushing_finish {s t : State} {n : Nat} {block : List Byte}
    (ht : t = ((s.afterFlush n).commitBytes block).closeSession.setResult .ok) :
    t = { s with encState := .finished, logicalIndex := t.logicalIndex, pendingCount := t.pendingCount,
                 mbw := t.mbw, outputCursor := t.outputCursor, dest := t.dest, freeCount := t.freeCount,
                 result := 0 } := by
  subst ht
  rfl

/-! ## ADD -/

/-- An ADD that passes its checks ends with the commit of its work (R191, R193). -/
theorem execAdd_of_checks {s : State} {n : BitVec 8} {slots : List Slot} (hopen : s.encState = .opened)
    (hn : n.toNat ≤ 128) (hT : s.accepted + (chunkValues s.encW n slots).length ≤ s.totalValues.toNat) :
    execAdd n slots s = .next (s.commit (s.addWork (chunkValues s.encW n slots)).1
      (s.addWork (chunkValues s.encW n slots)).2 fun t => t.setResult .ok) := by
  rcases execAdd_cases n slots s with ⟨h, -⟩ | ⟨-, h, -⟩ | ⟨-, -, h, -⟩ | ⟨-, -, -, he⟩
  · exact absurd hopen h
  · omega
  · omega
  · exact he

/-- After the header an append that brings the pending values to 128 or more flushes one block (R195, R196). -/
theorem State.Inv.addWork_flush {s : State} (hs : s.Inv) {vals : List Word} (hv : vals.length ≤ 128)
    (hL : s.logicalIndex ≠ 0) (hfull : 128 ≤ s.pendingCount.toNat + vals.length) :
    s.addWork vals = (s.appendValues vals).flush 128 := by
  rcases s.addWork_cases vals hs.pending_le hs.logical_pending hv with ⟨-, hlt, -⟩ | ⟨h0, -⟩ | ⟨-, -, h⟩
  · omega
  · exact absurd h0 hL
  · exact h

/-- Settles O18: the commit of `State.Inv.addWork_flush`, whose counts do not wrap by the invariant. -/
theorem addFlushesFullBlock : Obligations.AddFlushesFullBlock := by
  intro s n slots block hs hopen hn hL hfull hT hblock hroom
  have hv := (chunkValues_length_le s.encW n slots).trans hn
  have hexec := execAdd_of_checks hopen hn hT
  generalize chunkValues s.encW n slots = vals at *
  have hwork : s.addWork vals = ((s.appendValues vals).afterFlush 128, block) := by
    rw [hs.addWork_flush hv hL hfull, hblock]
    rfl
  have hfit := (s.fits_iff block).2 hroom
  rw [hwork, State.commit_of_fits hfit] at hexec
  have hp := hs.pending_le
  have hT64 := s.totalValues.isLt
  have happ := State.pending_appendValues (s := s) (vals := vals) (by omega)
  have hpending := State.afterFlush_pending (s := s.appendValues vals) (n := 128) (by omega)
  have hlogical := State.afterFlush_logical (s := s.appendValues vals) (n := 128) (by
    rw [State.appendValues_logicalIndex]
    unfold State.accepted at hT
    omega)
  rw [State.appendValues_logicalIndex] at hlogical
  obtain ⟨hcursor, hinside, houtside⟩ := State.cursor_and_dest_of_commit
    (t := (((s.appendValues vals).afterFlush 128).commitBytes block).setResult .ok) hfit rfl rfl
  have hleft : ((s.appendValues vals).afterFlush 128).pendingCount.toNat + 128 =
      s.pendingCount.toNat + vals.length := by omega
  exact ⟨_, hexec, State.eq_of_flushing_add rfl, hlogical, hleft, hpending.trans_le (by omega), hcursor,
    hinside, houtside⟩

/-! ## FINISH -/

/-- A FINISH that passes its checks ends with the commit of its work (R198, R200). -/
theorem execFinish_of_checks {s : State} (hs : s.Inv) (hopen : s.encState = .opened)
    (hT : s.totalValues.toNat ≤ s.accepted) : execFinish s =
      .next (s.commit s.finishWork.1 s.finishWork.2 fun t => t.closeSession.setResult .ok) := by
  rcases execFinish_cases s with ⟨h, -⟩ | ⟨-, h, -⟩ | ⟨-, -, hp, hno, -⟩ | ⟨-, -, -, he⟩
  · exact absurd hopen h
  · omega
  · exact absurd (hs.flushable_pending hp) (by simp [hno])
  · exact he

/-- With values pending FINISH's work is their block: the header has been written (R200). -/
theorem State.Inv.finishWork_flush {s : State} (hs : s.Inv) (hp : 0 < s.pendingCount.toNat) :
    s.finishWork = s.flush s.pendingCount.toNat := by
  obtain ⟨-, -, -, hL⟩ := (s.flushable_iff _).1 (hs.flushable_pending hp)
  have hL0 : s.logicalIndex ≠ 0 := mt bitVec_toNat_eq_zero.2 (by omega)
  rcases s.finishWork_cases with ⟨h0, -⟩ | ⟨-, h⟩
  · omega
  · rw [h, if_neg hL0, List.nil_append]
    rfl

/-- Settles O24: the commit of `State.Inv.finishWork_flush`, after which every declared value is emitted. -/
theorem finishFlushesLastBlock : Obligations.FinishFlushesLastBlock := by
  intro s block hs hopen hT hp hblock hroom
  have hexec := execFinish_of_checks hs hopen hT
  have hwork : s.finishWork = (s.afterFlush s.pendingCount.toNat, block) := by
    rw [hs.finishWork_flush hp, hblock]
    rfl
  have hfit := (s.fits_iff block).2 hroom
  rw [hwork, State.commit_of_fits hfit] at hexec
  have hall := hs.accepted_le.antisymm hT
  unfold State.accepted at hall
  have hT64 := s.totalValues.isLt
  have hpending : (s.afterFlush s.pendingCount.toNat).pendingCount = 0 :=
    bitVec_toNat_eq_zero.1 ((State.afterFlush_pending le_rfl).trans (Nat.sub_self _))
  have hlogical := State.afterFlush_logical (s := s) (n := s.pendingCount.toNat) (by omega)
  have htotal : (s.afterFlush s.pendingCount.toNat).logicalIndex = s.totalValues :=
    BitVec.eq_of_toNat_eq (hlogical.trans hall)
  obtain ⟨hcursor, hinside, houtside⟩ := State.cursor_and_dest_of_commit
    (t := ((s.afterFlush s.pendingCount.toNat).commitBytes block).closeSession.setResult .ok) hfit rfl rfl
  have hframe := State.eq_of_flushing_finish (s := s) (n := s.pendingCount.toNat) (block := block) rfl
  rw [State.setResult_logicalIndex, State.closeSession_logicalIndex, State.commitBytes_logicalIndex, htotal,
    State.setResult_pendingCount, State.closeSession_pendingCount, State.commitBytes_pendingCount, hpending] at hframe
  exact ⟨hs.pending_le, _, hexec, hframe, hlogical, hcursor, hinside, houtside⟩

end Sys2Proof.Machine
end

section
/-! SUPPORT. The commit of ADD and FINISH (R197): what their work and their last step may change, what is left of the
state whether or not the output list fits, and with it the frame of each command. -/

namespace Sys2Proof.Machine

/-! ## Checks that reject -/

/-- Settles O13: INIT is one assignment of its registers. -/
theorem initOpensSession : Obligations.InitOpensSession := fun _ _ _ => rfl

theorem chunkValues_length (w : ValueWidth) (n : BitVec 8) (slots : List Slot) :
    (chunkValues w n slots).length = ((slots.take n.toNat).filter (·.valid)).length :=
  List.length_map _

/-- Settles O14: the checks of `execAdd_cases`, of which one case holds. -/
theorem addRejectsInOrder : Obligations.AddRejectsInOrder := by
  intro s n slots
  have hlen := chunkValues_length s.encW n slots
  rcases execAdd_cases n slots s with ⟨hno, he⟩ | ⟨hopen, hn, he⟩ | ⟨hopen, hn, hT, he⟩ | ⟨hopen, hn, hT, -⟩
  · exact ⟨fun _ => he, fun h => absurd h hno, fun h => absurd h hno⟩
  · exact ⟨fun h => absurd hopen h, fun _ _ => he, fun _ h => absurd h (Nat.not_le.2 hn)⟩
  · exact ⟨fun h => absurd hopen h, fun _ h => absurd h (Nat.not_lt.2 hn), fun _ _ _ => he⟩
  · rw [hlen] at hT
    exact ⟨fun h => absurd hopen h, fun _ h => absurd h (Nat.not_lt.2 hn), fun _ _ h => absurd h (Nat.not_lt.2 hT)⟩

/-- Settles O22: the checks of `execFinish_cases`, of which one case holds. -/
theorem finishRejectsInOrder : Obligations.FinishRejectsInOrder := by
  intro s
  rcases execFinish_cases s with ⟨hno, he⟩ | ⟨hopen, -, he⟩ | ⟨hopen, hT, -⟩ | ⟨hopen, hT, -⟩
  · exact ⟨fun _ => he, fun h => absurd h hno⟩
  · exact ⟨fun h => absurd hopen h, fun _ _ => he⟩
  · exact ⟨fun h => absurd hopen h, fun _ h => absurd h (Nat.not_lt.2 hT)⟩
  · exact ⟨fun h => absurd hopen h, fun _ h => absurd h (Nat.not_lt.2 hT)⟩

/-! ## The two sides of a commit -/

/-- All that the work of a command begun in `s` may have changed when it reaches its commit in the state `u`. -/
def State.WorksTo (s u : State) : Prop :=
  u = { s with rb := u.rb, logicalIndex := u.logicalIndex, pendingCount := u.pendingCount, mbw := u.mbw,
               freeCount := u.freeCount }

theorem State.WorksTo.cursor_and_dest {s u : State} (h : s.WorksTo u) :
    u.outputCursor = s.outputCursor ∧ u.dest = s.dest := by
  unfold State.WorksTo at h
  rw [h]
  exact ⟨rfl, rfl⟩

/-- A command whose bytes are in DEST ends with ENC_STATE and RESULT OK, and changes nothing else. -/
def EndsCommand (finish : State → State) : Prop :=
  ∀ u : State, ∃ e, finish u = { u with encState := e, result := 0 }

theorem endsCommand_add : EndsCommand fun u => u.setResult .ok := fun u => ⟨u.encState, rfl⟩

theorem endsCommand_finish : EndsCommand fun u => u.closeSession.setResult .ok := fun _ => ⟨.finished, rfl⟩

theorem State.worksTo_addWork (s : State) (vals : List Word) : s.WorksTo (s.addWork vals).1 := by
  unfold State.WorksTo State.addWork State.fullBlockStep State.headerStep
  split <;> split <;> rfl

theorem State.worksTo_finishWork (s : State) : s.WorksTo s.finishWork.1 := by
  unfold State.WorksTo
  rcases s.finishWork_cases with ⟨-, h⟩ | ⟨-, h⟩ <;> rw [h]
  rfl

/-- A commit that overflows the sink is all undone but for MBW, which is unspecified then (R38, R197). -/
theorem State.commit_of_not_fits {s work : State} {output : List Byte} (hwork : s.WorksTo work)
    (hfit : s.fits output = false) (finish : State → State) : s.commit work output finish =
      { s with encState := .error, mbw := work.mbw, freeCount := work.freeCount, result := 0x06 } := by
  unfold State.WorksTo at hwork
  rw [State.commit, if_neg (by simp [hfit]), hwork]
  rfl

/-- What a commit may change, whether or not its output list fits. -/
theorem State.commit_frame {s work t : State} {output : List Byte} {finish : State → State}
    (hwork : s.WorksTo work) (hend : EndsCommand finish) (ht : t = s.commit work output finish) :
    t = { s with encState := t.encState, logicalIndex := t.logicalIndex, pendingCount := t.pendingCount, rb := t.rb,
                 mbw := t.mbw, outputCursor := t.outputCursor, dest := t.dest, freeCount := t.freeCount,
                 result := t.result } ∧
      (t.rb = s.rb ∨ t.rb = work.rb) ∧
      (t.dest = s.dest ∨ t.dest = s.dest.writeBytes s.outputCursor.toNat output) ∧
      t.mbw = work.mbw ∧ t.freeCount = work.freeCount := by
  rcases s.commit_cases work output finish with ⟨-, hc⟩ | ⟨hfit, -⟩
  · obtain ⟨e, he⟩ := hend (work.commitBytes output)
    unfold State.WorksTo at hwork
    rw [hc, he, hwork] at ht
    subst ht
    exact ⟨rfl, .inr rfl, .inr rfl, rfl, rfl⟩
  · rw [State.commit_of_not_fits hwork hfit] at ht
    subst ht
    exact ⟨rfl, .inl rfl, .inl rfl, rfl, rfl⟩

/-- DEST after a write at the cursor, or after none, reads as before outside the bytes of the list (R197). -/
theorem Memory.read_of_written_or_kept {m m' : Memory} {c : Nat} {output : List Byte}
    (h : m' = m ∨ m' = m.writeBytes c output) {a : Nat} (ha : a < c ∨ c + output.length ≤ a) :
    m'.read a = m.read a := by
  rcases h with rfl | rfl
  · rfl
  · exact Memory.read_writeBytes_of_outside m c output a ha

theorem le_sinkLimit_iff {c : Config} {x : Nat} :
    x ≤ c.sinkLimit ↔ (∀ cap, c.destCap = some cap → x ≤ cap) ∧ x < 2 ^ 64 := by
  unfold Config.sinkLimit
  cases c.destCap with
  | none => simp; omega
  | some cap => simp; omega

/-- Settles O21: both commands end with the commit of their work (`execAdd_of_checks`, `execFinish_of_checks`), whose
two sides are `State.commit_of_not_fits` and `State.cursor_and_dest_of_commit`. -/
theorem commitIsAllOrNothing : Obligations.CommitIsAllOrNothing := by
  intro s work i output hopen hi
  obtain ⟨finish, hend, hwork, hexec⟩ : ∃ finish, EndsCommand finish ∧ s.WorksTo work ∧
      exec i s = .next (s.commit work output finish) := by
    rcases hi with ⟨n, slots, rfl, hn, hT, hw⟩ | ⟨rfl, hs, hT, hw⟩
    · have hwork := s.worksTo_addWork (chunkValues s.encW n slots)
      have hexec := execAdd_of_checks hopen hn hT
      rw [← hw] at hwork hexec
      exact ⟨_, endsCommand_add, hwork, hexec⟩
    · have hwork := s.worksTo_finishWork
      have hexec := execFinish_of_checks hs hopen hT
      rw [← hw] at hwork hexec
      exact ⟨_, endsCommand_finish, hwork, hexec⟩
  constructor
  · rintro ⟨cap, hcap, hlt⟩
    have hfit : s.fits output = false := by
      rw [← Bool.not_eq_true, State.fits_iff, le_sinkLimit_iff]
      exact fun h => absurd (h.1 cap hcap) (Nat.not_le.2 hlt)
    rw [State.commit_of_not_fits hwork hfit] at hexec
    exact ⟨_, hexec, rfl⟩
  · intro hcap h64
    have hfit : s.fits output = true := (s.fits_iff output).2 (le_sinkLimit_iff.2 ⟨hcap, h64⟩)
    obtain ⟨e, he⟩ := hend (work.commitBytes output)
    obtain ⟨hcursor, hdest⟩ := hwork.cursor_and_dest
    rw [State.commit_of_fits hfit, he] at hexec
    exact ⟨_, hexec, rfl, rfl, rfl, rfl, State.cursor_and_dest_of_commit hfit
      (by rw [State.commitBytes_outputCursor, hcursor]) (by rw [State.commitBytes_dest, hcursor, hdest])⟩

/-! ## Frames -/

/-- Settles O20: a rejected ADD changes ENC_STATE and RESULT; any other ends with a commit (`State.commit_frame`),
and of the cases of its work only a flush writes MBW. -/
theorem addFrame : Obligations.AddFrame := by
  intro s t n slots h
  replace h : execAdd n slots s = .next t := h
  rcases execAdd_cases n slots s with ⟨-, he⟩ | ⟨-, -, he⟩ | ⟨-, -, -, he⟩ | ⟨-, hn, -, he⟩ <;> rw [he] at h
  case inr.inr.inr =>
    injection h with h
    have hv := (chunkValues_length_le s.encW n slots).trans hn
    obtain ⟨-, -, -, -, hstore, -⟩ := s.addWork_frame (chunkValues s.encW n slots)
    obtain ⟨hframe, hrb, hdest, hmbw, hfree⟩ := State.commit_frame (s.worksTo_addWork _) endsCommand_add h.symm
    refine ⟨hframe, fun j hj hno => ?_, fun a ha => Memory.read_of_written_or_kept hdest ha, fun hs hbuffer => ?_⟩
    · rw [hstore] at hrb
      rcases hrb with hrb | hrb <;> simp only [hrb]
      exact rbStore_other _ _ _ j hj hno
    · rw [hmbw, hfree]
      rcases s.addWork_cases _ hs.pending_le hs.logical_pending hv with ⟨-, -, hw⟩ | ⟨-, -, hw⟩ | ⟨hL, hfull, -⟩
      · rw [hw]
        exact ⟨rfl, rfl⟩
      · rw [hw]
        exact ⟨rfl, rfl⟩
      · exact absurd hbuffer (not_or.2 ⟨hL, Nat.not_lt.2 hfull⟩)
  all_goals
    cases h
    exact ⟨rfl, fun _ _ _ => rfl, fun _ _ => rfl, fun _ _ => ⟨rfl, rfl⟩⟩

/-- Settles O26: as in `addFrame`, where RB is never written and the work of a FINISH with nothing pending leaves the state. -/
theorem finishFrame : Obligations.FinishFrame := by
  intro s t h
  replace h : execFinish s = .next t := h
  rcases execFinish_cases s with ⟨-, he⟩ | ⟨-, -, he⟩ | ⟨-, -, -, -, he⟩ | ⟨-, -, -, he⟩ <;> rw [he] at h
  case inr.inr.inl => cases h
  case inr.inr.inr =>
    obtain ⟨-, -, -, hrb, -⟩ := execFinish_frame (he.trans h)
    injection h with h
    obtain ⟨hframe, -, hdest, hmbw, hfree⟩ := State.commit_frame s.worksTo_finishWork endsCommand_finish h.symm
    rw [hrb] at hframe
    refine ⟨hframe, fun a ha => Memory.read_of_written_or_kept hdest ha, fun hp => ?_⟩
    rw [hmbw, hfree]
    rcases s.finishWork_cases with ⟨-, hw⟩ | ⟨hpos, -⟩
    · rw [hw]
      exact ⟨rfl, rfl⟩
    · simp [hp] at hpos
  all_goals
    cases h
    exact ⟨rfl, fun _ _ => rfl, fun _ => ⟨rfl, rfl⟩⟩

end Sys2Proof.Machine
end

section
/-! SUPPORT. ADD and FINISH without a block (R193, R194, R199, R200): values that are only buffered, the stream header,
a stream of no value, and a session with nothing pending. -/

namespace Sys2Proof.Machine

/-! ## An empty output list -/

theorem State.commitBytes_nil {s : State} (h : s.dest.wf = true) : s.commitBytes [] = s := by
  unfold State.commitBytes
  rw [Memory.writeBytes_nil _ _ h]
  simp

/-- The commit of a command that emits nothing always fits. -/
theorem State.Inv.commit_nil {s work : State} (hs : s.Inv) (hdest : work.dest = s.dest) (finish : State → State) :
    s.commit work [] finish = finish work := by
  rw [State.commit_of_fits ((s.fits_iff []).2 hs.cursor_le),
    State.commitBytes_nil (by rw [hdest]; exact hs.dest_wf)]

/-! ## ADD -/

@[simp] theorem State.appendValues_nil (s : State) : s.appendValues [] = s := by
  simp [State.appendValues]

theorem chunkValues_of_nulls {w : ValueWidth} {n : BitVec 8} {slots : List Slot}
    (h : ∀ sl ∈ slots.take n.toNat, sl.valid = false) : chunkValues w n slots = [] := by
  rw [← List.length_eq_zero_iff, chunkValues_length, List.length_eq_zero_iff, List.filter_eq_nil_iff]
  exact fun sl hsl => by simp [h sl hsl]

/-- An append of nothing, or after the header of fewer values than fill a block, is all of ADD's work (R193). -/
theorem State.Inv.addWork_buffer {s : State} (hs : s.Inv) {vals : List Word} (hv : vals.length ≤ 128)
    (hno : vals = [] ∨ s.logicalIndex ≠ 0 ∧ s.pendingCount.toNat + vals.length < 128) :
    s.addWork vals = (s.appendValues vals, []) := by
  have hp := hs.pending_le
  rcases s.addWork_cases vals hs.pending_le hs.logical_pending hv with ⟨-, -, h⟩ | ⟨hL, hne, -⟩ | ⟨-, hfull, -⟩
  · exact h
  · exact absurd hL (hno.resolve_left hne).1
  · rcases hno with rfl | ⟨-, hlt⟩
    · rw [List.length_nil] at hfull
      omega
    · omega

/-- Settles O15: with no value the work of ADD leaves the state, and the commit of no byte always fits. -/
theorem addOfNullsChangesOnlyResult : Obligations.AddOfNullsChangesOnlyResult := by
  intro s n slots hs hopen hn hnull
  have hnil := chunkValues_of_nulls (w := s.encW) hnull
  have hexec := execAdd_of_checks (slots := slots) hopen hn (by rw [hnil]; exact hs.accepted_le)
  rw [hnil, hs.addWork_buffer (Nat.zero_le _) (.inl rfl), State.appendValues_nil, hs.commit_nil rfl] at hexec
  exact hexec

/-- Settles O16: the commit of `State.Inv.addWork_buffer`; RB by the laws of `rbStore`. -/
theorem addBuffersValues : Obligations.AddBuffersValues := by
  intro s n slots hs hopen hn hL hlt hT
  have hv := (chunkValues_length_le s.encW n slots).trans hn
  have hexec := execAdd_of_checks hopen hn hT
  generalize chunkValues s.encW n slots = vals at *
  rw [hs.addWork_buffer hv (.inr ⟨hL, hlt⟩), hs.commit_nil (work := s.appendValues vals) rfl] at hexec
  exact ⟨_, hexec, rfl, State.pending_appendValues (by omega), fun i hi => rbStore_get _ _ _ (by omega) i hi,
    fun j hj hno => rbStore_other _ _ _ j hj hno⟩

/-- The first append of values before the header is the header's write (R194, R196). -/
theorem State.Inv.addWork_header {s : State} (hs : s.Inv) {vals : List Word} (hv : vals.length ≤ 128)
    (hL : s.logicalIndex = 0) (hne : vals ≠ []) : s.addWork vals =
      ((s.appendValues vals).takeHeader, streamHeader s.totalValues ((s.appendValues vals).rbValue 0)) := by
  rcases s.addWork_cases vals hs.pending_le hs.logical_pending hv with ⟨hno, -⟩ | ⟨-, -, h⟩ | ⟨hL', -⟩
  · exact absurd (not_or.2 ⟨not_not.2 hL, hne⟩) (not_not.2 hno)
  · exact h
  · exact absurd hL hL'

/-- Before the header nothing is accepted and nothing is in DEST (R35, R40). -/
theorem State.Inv.fresh {s : State} (hs : s.Inv) (hopen : s.encState = .opened) (hL : s.logicalIndex = 0) :
    s.pendingCount = 0 ∧ s.accepted = 0 ∧ s.destHolds [] := by
  have hp := hs.logical_pending hL
  exact ⟨hp, by simp [State.accepted, hL, hp], (hs.cursor_eq_zero_iff (by simp [hopen])).2 hL,
    fun a ha => absurd ha (Nat.not_lt_zero a)⟩

/-- The first value appended stands at position 0 (R37, R192). -/
theorem State.rbValue_appendValues_first {s : State} {first : Word} {more : List Word} (hacc : s.accepted = 0)
    (hlen : more.length + 1 ≤ 256) :
    (s.appendValues (first :: more)).rbValue 0 = first.setWidth s.sessionBits := by
  have hget := rbStore_get s.rb s.accepted (first :: more) hlen 0 (Nat.zero_lt_succ _)
  simp only [hacc] at hget
  simp only [State.rbValue, State.appendValues_rb, hacc]
  exact congrArg (BitVec.setWidth s.sessionBits) hget

/-- A commit into an empty DEST that holds its output list, and nothing past it. -/
theorem State.destHolds_commit_first {s u : State} {output : List Byte} (hempty : s.destHolds [])
    (hdest : u.dest = s.dest) (hcursor : u.outputCursor = s.outputCursor) (hfit : s.fits output = true) :
    (u.commitBytes output).destHolds output ∧
      ∀ a, output.length ≤ a → (u.commitBytes output).dest.read a = s.dest.read a := by
  refine ⟨State.destHolds_commitBytes hempty hdest hcursor hfit, fun a ha => ?_⟩
  obtain ⟨hzero, -⟩ := hempty
  rw [State.commitBytes_dest, hdest, hcursor]
  exact Memory.read_writeBytes_of_outside _ _ _ a (.inr (by rw [hzero, List.length_nil]; omega))

theorem State.fits_of_empty {s : State} {output : List Byte} (hempty : s.destHolds [])
    (hroom : output.length ≤ s.config.sinkLimit) : s.fits output = true := by
  obtain ⟨hzero, -⟩ := hempty
  rw [State.fits_iff, hzero, List.length_nil, Nat.zero_add]
  exact hroom

/-- Settles O17: the commit of `State.Inv.addWork_header` into an empty DEST. -/
theorem addWritesStreamHeader : Obligations.AddWritesStreamHeader := by
  intro s n slots first more header hs hopen hn hL hchunk hT hheader hroom
  obtain ⟨hp, hacc, hempty⟩ := hs.fresh hopen hL
  have hv : (first :: more).length ≤ 128 := hchunk ▸ (chunkValues_length_le s.encW n slots).trans hn
  have hlen : more.length + 1 ≤ 128 := hv
  have hexec := execAdd_of_checks (slots := slots) hopen hn (by rw [hchunk, hacc, Nat.zero_add]; exact hT)
  have hfirst := State.rbValue_appendValues_first (first := first) hacc (by omega : more.length + 1 ≤ 256)
  have hwork : s.addWork (first :: more) = ((s.appendValues (first :: more)).takeHeader, header) := by
    rw [hs.addWork_header hv hL (List.cons_ne_nil _ _), hfirst, hheader]
    rfl
  have hfit := State.fits_of_empty hempty hroom
  rw [hchunk, hwork, State.commit_of_fits hfit] at hexec
  obtain ⟨hholds, houtside⟩ := State.destHolds_commit_first
    (u := (s.appendValues (first :: more)).takeHeader) hempty rfl rfl hfit
  have hpending : (s.appendValues (first :: more)).pendingCount.toNat = more.length + 1 := by
    rw [State.pending_appendValues (by simp [hp]; omega), hp]
    simp
  have hleft : (s.appendValues (first :: more)).takeHeader.pendingCount.toNat = more.length := by
    rw [State.takeHeader_pending (by omega), hpending, Nat.add_sub_cancel]
  exact ⟨_, hexec, rfl, hleft, hholds, houtside, hfirst⟩

/-! ## Compaction -/

section
variable {w : ValueWidth} {sl : Slot} {slots : List Slot}

theorem validValues_cons_valid (h : sl.valid = true) :
    validValues w (sl :: slots) = laneValue w sl.value :: validValues w slots := by
  simp [validValues, h]

theorem validValues_cons_null (h : sl.valid = false) : validValues w (sl :: slots) = validValues w slots := by
  simp [validValues, h]

theorem validBefore_succ_of_valid (h : sl.valid = true) (i : Nat) :
    validBefore (sl :: slots) (i + 1) = validBefore slots i + 1 := by
  simp [validBefore, h]

theorem validBefore_succ_of_null (h : sl.valid = false) (i : Nat) :
    validBefore (sl :: slots) (i + 1) = validBefore slots i := by
  simp [validBefore, h]

/-- A valid slot's value stands at the number of valid slots before it (R192). -/
theorem validValues_getElem?_validBefore {i : Nat} (hi : i < slots.length) (hvalid : slots[i].valid = true) :
    (validValues w slots)[validBefore slots i]? = some (laneValue w slots[i].value) := by
  induction slots generalizing i with
  | nil => exact absurd hi (Nat.not_lt_zero i)
  | cons sl rest ih =>
    cases i with
    | zero =>
      rw [validValues_cons_valid (sl := sl) hvalid]
      rfl
    | succ i =>
      have htail := ih (Nat.lt_of_succ_lt_succ hi) hvalid
      cases h : sl.valid with
      | true =>
        rw [validValues_cons_valid h, validBefore_succ_of_valid h]
        exact htail
      | false =>
        rw [validValues_cons_null h, validBefore_succ_of_null h]
        exact htail

/-- Every value of a chunk is that of a valid slot (R192). -/
theorem exists_validBefore_eq {k : Nat} (hk : k < (validValues w slots).length) :
    ∃ i, ∃ h : i < slots.length, slots[i].valid = true ∧ validBefore slots i = k := by
  induction slots generalizing k with
  | nil => exact absurd hk (Nat.not_lt_zero k)
  | cons sl rest ih =>
    cases h : sl.valid with
    | true =>
      rw [validValues_cons_valid h] at hk
      cases k with
      | zero => exact ⟨0, Nat.zero_lt_succ _, h, rfl⟩
      | succ k =>
        obtain ⟨i, hi, hvalid, hbefore⟩ := ih (Nat.lt_of_succ_lt_succ hk)
        exact ⟨i + 1, Nat.succ_lt_succ hi, hvalid, by rw [validBefore_succ_of_valid h, hbefore]⟩
    | false =>
      rw [validValues_cons_null h] at hk
      obtain ⟨i, hi, hvalid, hbefore⟩ := ih hk
      exact ⟨i + 1, Nat.succ_lt_succ hi, hvalid, by rw [validBefore_succ_of_null h, hbefore]⟩

/-- The value of a slot that is not valid is not read (R88, R192). -/
theorem validValues_congr {slots' : List Slot} (hlen : slots'.length = slots.length)
    (h : ∀ i (h : i < slots.length) (h' : i < slots'.length), slots'[i].valid = slots[i].valid ∧
      (slots[i].valid = true → slots'[i].value = slots[i].value)) :
    validValues w slots' = validValues w slots := by
  induction slots generalizing slots' with
  | nil => rw [List.length_eq_zero_iff.1 hlen]
  | cons sl rest ih =>
    obtain ⟨sl', rest', rfl⟩ := List.exists_cons_of_length_eq_add_one hlen
    obtain ⟨hvalid, hvalue⟩ : sl'.valid = sl.valid ∧ (sl.valid = true → sl'.value = sl.value) :=
      h 0 (Nat.zero_lt_succ _) (Nat.zero_lt_succ _)
    have htail := ih (Nat.succ.inj hlen) fun i hi hi' => h (i + 1) (Nat.succ_lt_succ hi) (Nat.succ_lt_succ hi')
    cases hv : sl.valid with
    | true => rw [validValues_cons_valid hv, validValues_cons_valid (hvalid.trans hv), htail, hvalue hv]
    | false => rw [validValues_cons_null hv, validValues_cons_null (hvalid.trans hv), htail]

end

theorem validBefore_take {slots : List Slot} {i n : Nat} (h : i ≤ n) :
    validBefore (slots.take n) i = validBefore slots i := by
  rw [validBefore, validBefore, List.take_take, Nat.min_eq_left h]

/-- ADD depends on its slots only through the values of the chunk. -/
theorem execAdd_congr {n : BitVec 8} {slots slots' : List Slot} {s : State}
    (h : chunkValues s.encW n slots' = chunkValues s.encW n slots) : execAdd n slots' s = execAdd n slots s := by
  unfold execAdd
  rw [h]

/-- An ADD whose RESULT is OK has stored the values of its chunk from the accepted ones on (R192, R193). -/
theorem execAdd_rb_of_ok {n : BitVec 8} {slots : List Slot} {s t : State} (h : execAdd n slots s = .next t)
    (hok : t.result = ResultCode.ok.code) :
    n.toNat ≤ 128 ∧ t.rb = rbStore s.rb s.accepted (chunkValues s.encW n slots) := by
  rcases execAdd_cases n slots s with ⟨-, he⟩ | ⟨-, -, he⟩ | ⟨-, -, -, he⟩ | ⟨-, hn, -, he⟩ <;> rw [he] at h <;> cases h
  case inr.inr.inr =>
    obtain ⟨-, -, -, -, hrb, -⟩ := s.addWork_frame (chunkValues s.encW n slots)
    rcases s.commit_cases (s.addWork (chunkValues s.encW n slots)).1 (s.addWork (chunkValues s.encW n slots)).2
      (fun t => t.setResult .ok) with ⟨-, hc⟩ | ⟨-, hc⟩ <;> rw [hc] at hok ⊢
    · exact ⟨hn, hrb⟩
    · exact absurd hok (by simp [ResultCode.code])
  all_goals exact absurd hok (by simp [ResultCode.code])

/-- Settles O19: RB holds the chunk's values from the accepted ones on, and these are the valid slots' values at the
numbers of valid slots before them. -/
theorem addCompactsValidSlots : Obligations.AddCompactsValidSlots := by
  intro s t n slots _ h hok
  obtain ⟨hn, hrb⟩ := execAdd_rb_of_ok h hok
  have hv := (chunkValues_length_le s.encW n slots).trans hn
  refine ⟨fun i hi hin hvalid => ?_, fun j hj hno => ?_, fun slots' hlen hsame => ?_⟩
  · have hget := validValues_getElem?_validBefore (w := s.encW) (slots := slots.take n.toNat) (i := i)
      (by rw [List.length_take]; omega) (by rwa [List.getElem_take])
    rw [validBefore_take hin.le, List.getElem_take] at hget
    obtain ⟨hk, hval⟩ := List.getElem?_eq_some_iff.1 hget
    have hstored := rbStore_get s.rb s.accepted (chunkValues s.encW n slots) (by omega) _ hk
    simp only [hrb]
    exact hstored.trans hval
  · simp only [hrb]
    refine rbStore_other _ _ _ j hj fun k hk => ?_
    obtain ⟨i, hi, hvalid, rfl⟩ := exists_validBefore_eq (w := s.encW) (slots := slots.take n.toNat) hk
    rw [List.length_take] at hi
    rw [List.getElem_take] at hvalid
    rw [validBefore_take (by omega)]
    exact hno i (by omega) (by omega) hvalid
  · have hcongr : chunkValues s.encW n slots' = chunkValues s.encW n slots := by
      refine validValues_congr (by simp [readSlots, hlen]) fun i hi hi' => ?_
      simp only [readSlots, List.getElem_take, List.length_take] at hi hi' ⊢
      exact hsame i (by omega) (by omega)
    exact (execAdd_congr hcongr).trans h

/-! ## FINISH -/

theorem streamHeader_empty (w : ValueWidth) :
    streamHeader 0 (0 : BitVec w.bits) = [0x80, 0x01, 0x04, 0x00, 0x00] := by
  cases w <;> decide

/-- With nothing pending FINISH's work emits the header of an empty stream or nothing (R199, R200). -/
theorem State.finishWork_of_nothing_pending {s : State} (hp : s.pendingCount = 0) : s.finishWork =
    (s, if s.logicalIndex = 0 then streamHeader s.totalValues (0 : BitVec s.sessionBits) else []) := by
  rcases s.finishWork_cases with ⟨-, h⟩ | ⟨hpos, -⟩
  · exact h
  · simp [hp] at hpos

/-- Settles O23: nothing can have been declared, and the header of no value is five bytes into an empty DEST. -/
theorem finishWritesEmptyStream : Obligations.FinishWritesEmptyStream := by
  intro s hs hopen hT hL
  obtain ⟨hp, hacc, hempty⟩ := hs.fresh hopen hL
  have htotal : s.totalValues = 0 := bitVec_toNat_eq_zero.1 (by omega)
  refine ⟨htotal, hp, fun hroom => ?_⟩
  have hexec := execFinish_of_checks hs hopen hT
  have hfit := State.fits_of_empty (output := [0x80, 0x01, 0x04, 0x00, 0x00]) hempty hroom
  have hwork : s.finishWork = (s, [0x80, 0x01, 0x04, 0x00, 0x00]) := by
    rw [State.finishWork_of_nothing_pending hp, if_pos hL, htotal]
    exact congrArg _ (streamHeader_empty s.encW)
  rw [hwork, State.commit_of_fits hfit] at hexec
  obtain ⟨hholds, houtside⟩ := State.destHolds_commit_first hempty rfl rfl hfit
  have hcursor : (s.commitBytes [0x80, 0x01, 0x04, 0x00, 0x00]).outputCursor = 5 :=
    BitVec.eq_of_toNat_eq hholds.1
  refine ⟨_, hexec, ?_, hL, hholds, houtside⟩
  rw [← hcursor]
  rfl

/-- Settles O25: FINISH's work is nothing, and the commit of no byte always fits. -/
theorem finishWithNothingPending : Obligations.FinishWithNothingPending := by
  intro s hs hopen hT hL hp
  have hexec := execFinish_of_checks hs hopen hT
  rw [State.finishWork_of_nothing_pending hp, if_neg hL, hs.commit_nil rfl] at hexec
  exact hexec

end Sys2Proof.Machine
end

section
/-! SUPPORT. A whole session against the encoded stream of its valid values (R201): FINISH emits what the full blocks
leave out, so that DEST ends with the stream, whatever the chunks and the nulls. -/

namespace Sys2Proof.Machine

/-! ## The end of a stream -/

/-- Where the full blocks end with the last value the stream is what is flushed (R94, R200). -/
theorem streamBytes_of_whole_blocks {W : Nat} {total L : Word} {vals : List Word} (htotal : vals.length = total.toNat)
    (hmod : L.toNat % 128 = 1) (hlen : vals.length = L.toNat) :
    streamBytes (atWidth W vals) = flushedBytes W total L vals := by
  have h0 : L ≠ 0 := mt bitVec_toNat_eq_zero.2 (by omega)
  have hblocks : blockCount vals.length = (L.toNat - 1) / 128 := by
    unfold blockCount
    omega
  rw [streamBytes, flushedBytes, if_neg h0, atWidth_length, hblocks, htotal, BitVec.ofNat_toNat, BitVec.setWidth_eq]

/-- Where 1 to 127 values follow the full blocks the stream is what is flushed and their block (R94, R200). -/
theorem streamBytes_of_last_block {W n : Nat} {total L : Word} {vals : List Word}
    (htotal : vals.length = total.toNat) (hmod : L.toNat % 128 = 1) (hpos : 0 < n) (hn : n ≤ 127)
    (hlen : vals.length = L.toNat + n) : streamBytes (atWidth W vals) =
      flushedBytes W total L vals ++ blockBytes (streamValue (atWidth W vals)) L.toNat n := by
  have h0 : L ≠ 0 := mt bitVec_toNat_eq_zero.2 (by omega)
  obtain ⟨k, hk⟩ : ∃ k, L.toNat = 128 * k + 1 := ⟨L.toNat / 128, by omega⟩
  have hdiv : (L.toNat - 1) / 128 = k := by omega
  have hblocks : blockCount vals.length = k + 1 := by
    unfold blockCount
    omega
  have hlast : blockLength vals.length k = n := by
    simp only [blockLength, Config.blockSize]
    omega
  rw [streamBytes, flushedBytes, if_neg h0, atWidth_length, hblocks, hdiv, streamBlocks_succ, atWidth_length, hlast,
    hk, htotal, BitVec.ofNat_toNat, BitVec.setWidth_eq, List.append_assoc]

/-- The stream of no value is the header of first value 0 (R199). -/
theorem streamBytes_nil (W : Nat) : streamBytes (atWidth W []) = streamHeader 0 (0 : BitVec W) := by
  simp [streamBytes, streamValue, blockCount, atWidth]

/-- With every declared value accepted, FINISH's output list is what DEST lacks of the stream (R199, R200). -/
theorem State.Session.streamBytes_finishWork {s : State} {vals : List Word} (hses : s.Session vals) (hs : s.Inv)
    (htotal : vals.length = s.totalValues.toNat) :
    flushedBytes s.sessionBits s.totalValues s.logicalIndex vals ++ s.finishWork.2 =
      streamBytes (atWidth s.sessionBits vals) := by
  have hcount := hses.count
  have hp := hs.pending_le
  have hblocks := hs.logical_blocks (by simp [hses.opened])
  unfold State.accepted at hcount
  by_cases hp0 : s.pendingCount = 0
  · rw [State.finishWork_of_nothing_pending hp0]
    rw [hp0] at hcount
    by_cases hL : s.logicalIndex = 0
    · have hnil : vals = [] := List.length_eq_zero_iff.1 (by simp [← hcount, hL])
      have hnone : s.totalValues = 0 := bitVec_toNat_eq_zero.1 (by simp [← htotal, hnil])
      rw [if_pos hL, hL, flushedBytes_zero, hnil, streamBytes_nil, hnone]
      rfl
    · rw [if_neg hL, List.append_nil]
      exact (streamBytes_of_whole_blocks htotal (hblocks hL) hcount.symm).symm
  · have hpos : 0 < s.pendingCount.toNat := Nat.pos_of_ne_zero (mt bitVec_toNat_eq_zero.1 hp0)
    have hL : s.logicalIndex ≠ 0 := fun h0 => hp0 (hs.logical_pending h0)
    have hblock : blockBytes s.rbValue s.logicalIndex.toNat s.pendingCount.toNat =
        blockBytes (streamValue (atWidth s.sessionBits vals)) s.logicalIndex.toNat s.pendingCount.toNat :=
      blockBytes_congr fun p h1 h2 =>
        (hses.live p (by omega) (by omega)).trans (streamValue_atWidth (by omega)).symm
    rw [hs.finishWork_flush hpos, streamBytes_of_last_block htotal (hblocks hL) hpos hp hcount.symm, ← hblock]
    rfl

/-! ## The commands of a session -/

/-- A FINISH whose RESULT is OK has passed its checks and committed its work (R198, R200). -/
theorem execFinish_of_ok {s t : State} (h : execFinish s = .next t) (hok : t.result = ResultCode.ok.code) :
    s.totalValues.toNat ≤ s.accepted ∧ s.fits s.finishWork.2 = true ∧
      t = (s.finishWork.1.commitBytes s.finishWork.2).closeSession.setResult .ok := by
  rcases execFinish_cases s with ⟨-, he⟩ | ⟨-, -, he⟩ | ⟨-, -, -, -, he⟩ | ⟨-, hT, -, he⟩ <;> rw [he] at h <;> cases h
  case inr.inr.inr =>
    rcases s.commit_cases s.finishWork.1 s.finishWork.2 (fun t => t.closeSession.setResult .ok) with
      ⟨hfit, hc⟩ | ⟨-, hc⟩
    · exact ⟨hT, hfit, hc⟩
    · rw [hc] at hok
      exact absurd hok (by simp [ResultCode.code])
  all_goals exact absurd hok (by simp [ResultCode.code])

/-- A FINISH that succeeds leaves the stream of the accepted values in DEST (R200, R201). -/
theorem State.Session.finish {s t : State} {vals : List Word} (hses : s.Session vals) (hs : s.Inv)
    (h : exec .finish s = .next t) (hok : t.result = ResultCode.ok.code) :
    vals.length = s.totalValues.toNat ∧ t.encState = .finished ∧
      t.destHolds (streamBytes (atWidth s.sessionBits vals)) := by
  obtain ⟨hT, hfit, rfl⟩ := execFinish_of_ok h hok
  obtain ⟨-, -, -, -, -, hcursor, -, -, -, hdest, -⟩ := s.finishWork_frame
  have htotal : vals.length = s.totalValues.toNat := hses.count.symm.trans (hs.accepted_le.antisymm hT)
  have hheld := State.destHolds_commitBytes
    (bytes := flushedBytes s.sessionBits s.totalValues s.logicalIndex vals) hses.written hdest hcursor hfit
  rw [hses.streamBytes_finishWork hs htotal] at hheld
  exact ⟨htotal, rfl, hheld⟩

theorem State.runAdds_cons_eq_some {s t : State} {c : BitVec 8 × List Slot} {cs : List (BitVec 8 × List Slot)}
    (h : s.runAdds (c :: cs) = some t) :
    ∃ u, exec (.add c.1 c.2) s = .next u ∧ u.result = ResultCode.ok.code ∧ u.runAdds cs = some t := by
  rw [State.runAdds] at h
  split at h
  next u hadd =>
    obtain ⟨hok, hrest⟩ := Option.ite_none_right_eq_some.1 h
    exact ⟨u, hadd, hok, hrest⟩
  next => cases h

theorem State.runSession_eq_some {s u : State} {w : ValueWidth} {total : Word} {chunks : List (BitVec 8 × List Slot)}
    (h : s.runSession w total chunks = some u) :
    ∃ t, ((s.openSession w total).setResult .ok).runAdds chunks = some t ∧ exec .finish t = .next u ∧
      u.result = ResultCode.ok.code := by
  simp only [State.runSession, exec, execInit] at h
  split at h
  next => cases h
  next t hadds =>
    split at h
    next v hfinish =>
      obtain ⟨hok, hv⟩ := Option.ite_none_right_eq_some.1 h
      cases hv
      exact ⟨t, hadds, hfinish, hok⟩
    next => cases h

/-- ADDs that all succeed extend the session by the valid values of their chunks, in order (R202). -/
theorem State.Session.runAdds {s t : State} {vals : List Word} {chunks : List (BitVec 8 × List Slot)}
    (hses : s.Session vals) (hs : s.Inv) (h : s.runAdds chunks = some t) :
    t.Inv ∧ t.Session (vals ++ sessionValues s.encW chunks) ∧ t.encW = s.encW ∧ t.totalValues = s.totalValues := by
  induction chunks generalizing s vals with
  | nil =>
    cases h
    exact ⟨hs, by simpa [sessionValues] using hses, rfl, rfl⟩
  | cons c cs ih =>
    obtain ⟨u, hadd, hok, hrest⟩ := State.runAdds_cons_eq_some h
    obtain ⟨-, hwidth, htotal, -⟩ := execAdd_frame hadd
    have hu := sessionKeepsAcceptedValues.2 s u c.1 c.2 vals hs hses hadd hok
    obtain ⟨hinv, hses', hwidth', htotal'⟩ := ih hu (hs.exec hadd) hrest
    rw [hwidth, List.append_assoc] at hses'
    exact ⟨hinv, hses', hwidth'.trans hwidth, htotal'.trans htotal⟩

/-- Settles O50: INIT begins a session of no value, the ADDs extend it by induction on their list, and FINISH emits
the rest of its stream. -/
theorem sessionWritesStream : Obligations.SessionWritesStream := by
  intro s u w total chunks hs h
  obtain ⟨t, hadds, hfinish, hok⟩ := State.runSession_eq_some h
  have hinit : exec (.init w total) s = .next ((s.openSession w total).setResult .ok) := rfl
  obtain ⟨ht, hses, hwidth, htotal⟩ := (State.Session.init hinit).runAdds (hs.exec hinit) hadds
  obtain ⟨hlen, hstate, hdest⟩ := hses.finish ht hfinish hok
  rw [htotal] at hlen
  have hbits : t.sessionBits = w.bits := congrArg ValueWidth.bits hwidth
  rw [hbits] at hdest
  exact ⟨hlen, hstate, hdest⟩

end Sys2Proof.Machine
end

section
/-! SUPPORT. DECODE as a whole command (R240 to R249): what a DECODE that succeeds has read, the blocks on any span, and
that nothing but the operands and the span makes a difference. With the session's stream, the round trip. -/

namespace Sys2Proof.Machine

/-! ## The whole command -/

theorem execDecode_of_refusal {width : ValueWidth} {total len : Word} {s : State} {r : Refusal}
    (hr : s.launchRefusal width = some r) : execDecode width total len s = .refused r := by
  simp [execDecode, hr]

/-- Settles O27: the three launches of `State.launchRefusal_cases`; both ends of a DECODE write only its own fields. -/
theorem decodeKeepsEncoder : Obligations.DecodeKeepsEncoder := by
  intro s w total len
  rcases s.launchRefusal_cases w with ⟨hbound, hopen, hr⟩ | ⟨hbound, hfin, hwidth, hr⟩ | ⟨hsaid, hr⟩
  · exact ⟨fun hlaunch => absurd hlaunch (by simp [hbound, hopen]), fun _ _ => execDecode_of_refusal hr,
      fun _ hfin => absurd hfin hopen⟩
  · exact ⟨fun hlaunch => absurd hlaunch (by simp [hbound, hwidth]), fun _ hopen => absurd hfin hopen,
      fun _ _ _ => execDecode_of_refusal hr⟩
  · refine ⟨fun _ => ?_, fun hbound hopen => absurd hsaid (by simp [hbound, hopen]),
      fun hbound _ hwidth => absurd hsaid (by simp [hbound, hwidth])⟩
    cases hd : decodeStream w.bits s.inMem.read len.toNat total with
    | error e => exact ⟨_, execDecode_of_error hr hd, rfl⟩
    | ok r => exact ⟨_, execDecode_of_ok hr hd, rfl⟩

/-- Settles O31: past the header of no value the DECODE is done, and by O29 OUT is unchanged from element 0 on. -/
theorem decodeOfEmptyStream : Obligations.DecodeOfEmptyStream := by
  intro s w len f c hr hhead
  obtain ⟨⟨t, ht, hconsumed, hproduced, hresult, -, -, hout⟩, -⟩ :=
    (decodeEndEffects.2 s w 0 len hr).2 c [] (decodeStream_of_empty hhead rfl)
  exact ⟨t, ht, hconsumed, hproduced, hresult, fun j => hout j (Nat.zero_le j)⟩

/-! ## How much a DECODE that succeeds has read -/

section
variable {rd : Nat → Byte} {len : Nat}

/-- A value of 128 or more does not fit one group of seven bits (R116). -/
theorem uvarintDec_two_bytes {n c c' : Nat} {r : BitVec n} (h : uvarintDec rd len n c = .ok (r, c'))
    (hr : 128 ≤ r.toNat) : c + 2 ≤ c' := by
  unfold uvarintDec at h
  cases hmax : varintMaxLen n with
  | zero => rw [hmax] at h; cases h
  | succ m =>
    rw [hmax, uvarintLoop] at h
    split_ifs at h
    dsimp only at h
    split_ifs at h
    · obtain ⟨hlt, -⟩ := uvarintLoop_bounds h
      exact hlt
    · cases h
      have hgroup := ((rd c).extractLsb' 0 7).isLt
      have hle := Nat.mod_le ((rd c).extractLsb' 0 7).toNat (2 ^ n)
      simp only [Nat.mul_zero, Nat.shiftLeft_zero, Nat.zero_or, BitVec.toNat_ofNat] at hr
      omega

/-- A header that decodes has two bytes of `block_size` and at least one of each other field (R91, R241). -/
theorem five_le_decodeHeader_cursor {W : Nat} {total : Word} {f : BitVec W} {c : Nat}
    (h : decodeHeader W rd len total = .ok (f, c)) : 5 ≤ c := by
  obtain ⟨c1, c2, c3, hbs, hnmb, ht, hf⟩ := decodeHeader_ok_iff.1 h
  have h1 := uvarintDec_two_bytes hbs (by decide)
  obtain ⟨h2, -⟩ := uvarintDec_bounds hnmb
  obtain ⟨h3, -⟩ := uvarintDec_bounds ht
  obtain ⟨h4, -⟩ := zzvarintDec_bounds hf
  omega

theorem five_le_decodeStream_cursor {W : Nat} {total : Word} {c : Nat} {vs : List (BitVec W)}
    (h : decodeStream W rd len total = .ok (c, vs)) : 5 ≤ c := by
  obtain ⟨f, c1, p, hhead, hblocks, rfl, -⟩ := decodeStream_ok_iff.1 h
  obtain ⟨-, hcursor, -⟩ := decodeBlocks_count hblocks (headerValues_length_le total f)
  exact (five_le_decodeHeader_cursor hhead).trans hcursor

end

/-- Settles O30: `decodeStream_count` and `five_le_decodeStream_cursor`. -/
theorem decodeProducesDeclaredCount : Obligations.DecodeProducesDeclaredCount := by
  intro w rd len total c vs h
  obtain ⟨hlen, hc⟩ := decodeStream_count h
  exact ⟨hlen, five_le_decodeStream_cursor h, hc⟩

/-! ## Blocks on any span -/

section
variable {W : Nat} {rd : Nat → Byte} {len t : Nat} {p : Progress W}

/-- With turns for every value that is missing, a block takes one of them and leaves enough (R242; log 18). -/
theorem decodeBlocks_of_missing {k : Nat} (hmissing : p.values.length < t) (hk : t ≤ p.values.length + k) :
    decodeBlocks rd len t k p = (decodeBlock rd len t p).bind (decodeBlocks rd len t k) := by
  obtain ⟨k, rfl⟩ := Nat.exists_eq_add_one_of_ne_zero (show k ≠ 0 by omega)
  conv_lhs => rw [decodeBlocks, if_neg (Nat.not_le.2 hmissing)]
  cases hblock : decodeBlock rd len t p with
  | error e => rfl
  | ok q =>
    obtain ⟨hcount, -⟩ := decodeBlock_count hblock hmissing.le
    exact (decodeBlocks_turns (by omega) (Nat.le_succ k) (by omega)).symm

theorem decodeBlock_of_min_error {e : DecFault} (h : zzvarintDec rd len W p.c = .error e) :
    decodeBlock rd len t p = .error e := by
  simp [decodeBlock, h]

variable {bmin : BitVec W} {c : Nat}

/-- After the minimum the span ends inside the four width bytes (R242). -/
theorem decodeBlock_of_widths_truncated (h : zzvarintDec rd len W p.c = .ok (bmin, c)) (hend : len < c + 4) :
    decodeBlock rd len t p = .error .truncated := by
  obtain ⟨-, hc, -⟩ := zzvarintDec_bounds h
  simp [decodeBlock, h, readWidths_truncated rd len 4 c hend hc]

/-- After the minimum all four width bytes are in the span: they are checked before any mini-block (R242, R248). -/
theorem decodeBlock_of_widths (h : zzvarintDec rd len W p.c = .ok (bmin, c)) (hend : c + 4 ≤ len) :
    decodeBlock rd len t p = if ∃ m < 4, W < (rd (c + m)).toNat then .error .badWidth
      else decodeMiniBlocks rd len t bmin ((List.range 4).map fun m => (rd (c + m)).toNat) { p with c := c + 4 } := by
  simp [decodeBlock, h, readWidths_ok rd len 4 c hend]

end

/-- Settles O33: the loop by `decodeBlocks_done` and `decodeBlocks_of_missing`, a block by what follows its minimum. -/
theorem decodeChecksWidthBytes : Obligations.DecodeChecksWidthBytes := by
  refine ⟨fun w rd len t k p => ⟨decodeBlocks_done, decodeBlocks_of_missing⟩,
    fun w rd len t p e => decodeBlock_of_min_error, fun w rd len t p bmin c hmin =>
      ⟨decodeBlock_of_widths_truncated hmin, fun hend hwide => ?_, fun hend hfit => ?_⟩⟩
  · rw [decodeBlock_of_widths hmin hend, if_pos hwide]
  · have hnarrow : ¬ ∃ m < 4, w.bits < (rd (c + m)).toNat := fun ⟨m, hm, hwide⟩ => (hfit m hm).not_gt hwide
    rw [decodeBlock_of_widths hmin hend, if_neg hnarrow]
    rfl

/-! ## Spans that agree below their length

Where the span ends in an error too: each function of the decoder is the same on two such spans. -/

section
variable {rd rd' : Nat → Byte} {len : Nat} (hrd : ∀ a < len, rd a = rd' a)
include hrd

theorem uvarintDec_congr : uvarintDec rd len = uvarintDec rd' len := by
  funext n c
  exact uvarintLoop_congr fun a _ ha => hrd a ha

theorem zzvarintDec_congr : zzvarintDec rd len = zzvarintDec rd' len := by
  funext W c
  rw [zzvarintDec_eq, zzvarintDec_eq, uvarintDec_congr hrd]

theorem decodeHeader_congr (W : Nat) (total : Word) : decodeHeader W rd len total = decodeHeader W rd' len total := by
  unfold decodeHeader
  rw [uvarintDec_congr hrd, zzvarintDec_congr hrd]

theorem readWidths_congr : readWidths rd len = readWidths rd' len := by
  funext k
  induction k with
  | zero => rfl
  | succ k ih =>
    funext c
    rw [readWidths, readWidths, ih]
    split_ifs with hend
    · rfl
    · rw [hrd c (Nat.not_le.1 hend)]

/-- A mini-block's run lies in the `4 × wd` bytes that the span is checked to have (R243). -/
theorem decodeMiniBlocks_congr (W t : Nat) :
    decodeMiniBlocks (W := W) rd len t = decodeMiniBlocks rd' len t := by
  funext bmin wds p
  induction wds generalizing p with
  | nil => rfl
  | cons wd wds ih =>
    by_cases hmissing : p.values.length < t
    · rw [decodeMiniBlocks_some hmissing, decodeMiniBlocks_some hmissing]
      split_ifs with hend
      · rfl
      · have hrun := runBytes_le wd (Nat.min_le_left 32 (t - p.values.length))
        rw [unpack_congr (rd := rd) (rd' := rd') fun a _ ha => hrd a (by omega)]
        exact ih _
    · rw [decodeMiniBlocks_none (Nat.not_lt.1 hmissing), decodeMiniBlocks_none (Nat.not_lt.1 hmissing)]
      exact ih p

theorem decodeBlock_congr (W t : Nat) : decodeBlock (W := W) rd len t = decodeBlock rd' len t := by
  funext p
  unfold decodeBlock
  rw [zzvarintDec_congr hrd, readWidths_congr hrd, decodeMiniBlocks_congr hrd]

theorem decodeBlocks_congr (W t k : Nat) : decodeBlocks (W := W) rd len t k = decodeBlocks rd' len t k := by
  induction k with
  | zero => rfl
  | succ k ih =>
    funext p
    rw [decodeBlocks, decodeBlocks, decodeBlock_congr hrd, ih]

theorem decodeStream_congr (W : Nat) (total : Word) : decodeStream W rd len total = decodeStream W rd' len total := by
  unfold decodeStream
  rw [decodeHeader_congr hrd, decodeBlocks_congr hrd]

end

/-- Settles O28: the two spans decode alike by `decodeStream_congr`, and by O29 the decoding decides the rest. -/
theorem decodeIgnoresEncoderState : Obligations.DecodeIgnoresEncoderState := by
  intro s u w total len hs hu hrd
  obtain ⟨hserr, hsok⟩ := decodeEndEffects.2 s w total len hs
  obtain ⟨huerr, huok⟩ := decodeEndEffects.2 u w total len hu
  rw [← decodeStream_congr hrd] at huerr huok
  cases hd : decodeStream w.bits s.inMem.read len.toNat total with
  | error e =>
    obtain ⟨t, ht, htc, htp, htr, -⟩ := hserr e hd
    obtain ⟨v, hv, hvc, hvp, hvr, -⟩ := huerr e hd
    refine ⟨t, v, ht, hv, htc.trans hvc.symm, htp.trans hvp.symm, htr.trans hvr.symm, fun _ j hj => ?_⟩
    rw [htp] at hj
    exact absurd hj (Nat.not_lt_zero j)
  | ok r =>
    obtain ⟨⟨t, ht, htc, htp, htr, hlen, htout, -⟩, -⟩ := hsok r.1 r.2 hd
    obtain ⟨⟨v, hv, hvc, hvp, hvr, -, hvout, -⟩, -⟩ := huok r.1 r.2 hd
    refine ⟨t, v, ht, hv, BitVec.eq_of_toNat_eq (htc.trans hvc.symm), htp.trans hvp.symm, htr.trans hvr.symm,
      fun _ j hj => ?_⟩
    rw [htp, ← hlen] at hj
    rw [htout j hj, hvout j hj]

/-! ## The round trip -/

theorem State.destHolds.read {s : State} {bytes : List Byte} (h : s.destHolds bytes) {a : Nat}
    (ha : a < bytes.length) : s.dest.read a = bytes[a] := by
  rw [Memory.read, h.2 a ha, List.getElem?_eq_getElem ha, Option.getD_some]

/-- A value that a session takes has no bit above its width, so the width loses nothing of it (R88). -/
theorem setWidth_of_mem_sessionValues {w : ValueWidth} {chunks : List (BitVec 8 × List Slot)} {v : Word}
    (h : v ∈ sessionValues w chunks) : (v.setWidth w.bits).setWidth 64 = v := by
  obtain ⟨c, -, hc⟩ := List.mem_flatMap.1 h
  obtain ⟨sl, -, rfl⟩ := List.mem_map.1 hc
  rw [laneValue, BitVec.setWidth_setWidth_of_le _ w.bits_le, BitVec.setWidth_eq]

/-- Settles O51: the span holds the session's stream by O50, which decodes to its values by O48; O29 puts them in
OUT. -/
theorem roundTripReturnsValues : Obligations.RoundTripReturnsValues := by
  intro s u z w total len chunks hs hrun hlaunch hspan hlen
  obtain ⟨hcount, -, hdest⟩ := sessionWritesStream s u w total chunks hs hrun
  have hcursor := hdest.1
  have hdecode : decodeStream w.bits z.inMem.read len.toNat total =
      .ok (u.outputCursor.toNat, atWidth w.bits (sessionValues w chunks)) := by
    have hstream := streamDecodesToItsValues w (atWidth w.bits (sessionValues w chunks)) z.inMem.read len.toNat
      (by rw [atWidth_length, hcount]; exact total.isLt) (hcursor ▸ hlen)
      fun a ha => (hspan a (hcursor ▸ ha)).trans (hdest.read ha)
    rwa [atWidth_length, hcount, BitVec.ofNat_toNat, BitVec.setWidth_eq, ← hcursor] at hstream
  obtain ⟨⟨y, hy, hconsumed, hproduced, hresult, -, hout, -⟩, -⟩ :=
    (decodeEndEffects.2 z w total len hlaunch).2 _ _ hdecode
  refine ⟨y, hy, hresult, BitVec.eq_of_toNat_eq hconsumed, hproduced, fun j hj => ?_⟩
  rw [hout j (by rwa [atWidth_length])]
  simp only [atWidth, List.getElem_map]
  exact setWidth_of_mem_sessionValues (List.getElem_mem hj)

end Sys2Proof.Machine
end

section
/-! SUPPORT. How a command ends (R260 to R262): with what change of state each kind of result code goes, and that an
idle block keeps all state (R275). -/

namespace Sys2Proof.Machine

/-- The errors that reject one command and leave the session as it was (R262). -/
def rejectionCodes : List ResultCode := [.errIllegalCmd, .errSequence, .errBatchSize]

/-- The errors that end the open session (R262). -/
def sessionErrorCodes : List ResultCode := [.errOvercount, .errUndercount, .errSinkOverflow]

/-- How a command begun in the state `s` ends in the state `t` (R262): without an error; rejected, with no change but
RESULT; with an error that ends the open session; or with a decode error. -/
inductive State.CommandEnd (s t : State) : Prop
  | ok (hresult : t.result = ResultCode.ok.code)
  | rejected (e : ResultCode) (he : e ∈ rejectionCodes) (ht : t = s.raise e)
  | sessionError (e : ResultCode) (he : e ∈ sessionErrorCodes)
      (hresult : t.result = e.code) (hopen : s.encState = .opened) (herror : t.encState = .error)
  | decodeError (width : ValueWidth) (total : Word) (e : DecFault) (ht : t = s.decodeFailed width total e)

/-- A commit either lets its command succeed or ends the session with ERR_SINK_OVERFLOW (R197). -/
theorem State.commandEnd_commit {s : State} (hopen : s.encState = .opened) (work : State) (output : List Byte)
    {finish : State → State} (hfinish : ∀ u, (finish u).result = ResultCode.ok.code) :
    s.CommandEnd (s.commit work output finish) := by
  rcases s.commit_cases work output finish with ⟨-, hc⟩ | ⟨-, hc⟩ <;> rw [hc]
  · exact .ok (hfinish _)
  · exact .sessionError .errSinkOverflow (by decide) rfl hopen rfl

/-- The checks of ADD in order (R191), then its commit. -/
theorem execAdd_commandEnd {nslots : BitVec 8} {slots : List Slot} {s t : State}
    (h : execAdd nslots slots s = .next t) : s.CommandEnd t := by
  rcases execAdd_cases nslots slots s with ⟨-, he⟩ | ⟨-, -, he⟩ | ⟨hopen, -, -, he⟩ | ⟨hopen, -, -, he⟩ <;>
    rw [he] at h <;> cases h
  · exact .rejected .errSequence (by decide) rfl
  · exact .rejected .errBatchSize (by decide) rfl
  · exact .sessionError .errOvercount (by decide) rfl hopen rfl
  · exact State.commandEnd_commit hopen _ _ fun _ => rfl

/-- The checks of FINISH in order (R198), then its commit. -/
theorem execFinish_commandEnd {s t : State} (h : execFinish s = .next t) : s.CommandEnd t := by
  rcases execFinish_cases s with ⟨-, he⟩ | ⟨hopen, -, he⟩ | ⟨-, -, -, -, he⟩ | ⟨hopen, -, -, he⟩ <;>
    rw [he] at h <;> cases h
  · exact .rejected .errSequence (by decide) rfl
  · exact .sessionError .errUndercount (by decide) rfl hopen rfl
  · exact State.commandEnd_commit hopen _ _ fun _ => rfl

theorem exec_commandEnd {i : Instr} {s t : State} (h : exec i s = .next t) : s.CommandEnd t := by
  cases i with
  | init width total =>
    cases h
    exact .ok rfl
  | add nslots slots => exact execAdd_commandEnd h
  | finish => exact execFinish_commandEnd h
  | decode width total len =>
    have hd : execDecode width total len s = .next t := h
    rcases execDecode_cases width total len s with ⟨r, -, he⟩ | ⟨e, -, -, he⟩ | ⟨c, vs, -, -, he⟩ <;>
      rw [he] at hd <;> cases hd
    · exact .decodeError width total e rfl
    · exact .ok rfl

/-- The end of a command taken from the port, an illegal one included (R86). -/
theorem step_commandEnd {s t : State} {c : Command} {rest : List HostAction} (hport : s.port = .command c :: rest)
    (h : step s = .next t) : (s.withPort rest).CommandEnd t := by
  cases hdec : decode c with
  | ok i => exact exec_commandEnd (exec_of_step hport hdec h)
  | error e =>
    cases (step_of_decode_error hport hdec).symm.trans h
    exact .rejected .errIllegalCmd (by decide) rfl

/-! ## The three kinds of code are disjoint (R261) -/

theorem rejectionCodes_disjoint {e : ResultCode} (he : e ∈ rejectionCodes) :
    e.code ∉ ([0x04, 0x05, 0x06] : List (BitVec 8)) ∧
    e.code ∉ ([0x10, 0x11, 0x12, 0x13, 0x14] : List (BitVec 8)) := by
  revert e
  decide

theorem sessionErrorCodes_disjoint {e : ResultCode} (he : e ∈ sessionErrorCodes) :
    e.code ∉ ([0x01, 0x02, 0x03] : List (BitVec 8)) ∧
    e.code ∉ ([0x10, 0x11, 0x12, 0x13, 0x14] : List (BitVec 8)) := by
  revert e
  decide

theorem DecFault.code_disjoint (e : DecFault) :
    e.code.code ∉ ([0x04, 0x05, 0x06] : List (BitVec 8)) ∧ e.code.code ∉ ([0x01, 0x02, 0x03] : List (BitVec 8)) := by
  cases e <;> decide

/-- Settles O53: by `step_commandEnd` a command ends in one of four ways. Each makes the change that one clause asks
for, and its result code is none of the other clauses' codes. -/
theorem errorsChangeOnlyListedState : Obligations.ErrorsChangeOnlyListedState := by
  intro s t c rest hport h
  cases step_commandEnd hport h with
  | ok hresult => simp [hresult, ResultCode.code]
  | rejected e he ht =>
    subst ht
    obtain ⟨hsession, hdec⟩ := rejectionCodes_disjoint he
    exact ⟨fun hr => absurd hr hsession, fun _ => rfl, fun hr => absurd hr hdec⟩
  | sessionError e he hresult hopen herror =>
    obtain ⟨hrej, hdec⟩ := sessionErrorCodes_disjoint he
    rw [hresult]
    exact ⟨fun _ => ⟨hopen, herror⟩, fun hr => absurd hr hrej, fun hr => absurd hr hdec⟩
  | decodeError width total e ht =>
    subst ht
    obtain ⟨hsession, hrej⟩ := e.code_disjoint
    exact ⟨fun hr => absurd hr hsession, fun hr => absurd hr hrej, fun _ => rfl⟩

/-- Settles O7: the step's equation on an empty port. -/
theorem idleBlockKeepsState : Obligations.IdleBlockKeepsState := fun _ => step_idle

end Sys2Proof.Machine
end

section
/-! SUPPORT. The registers after power-on reset (R290). -/

namespace Sys2Proof.Machine

/-- Settles O9: reset gives each register of R290 as a literal, and ENC_W = 0 is the encoding of W = 32 (R33). RB and
MBW do not occur. -/
theorem resetRegisterValues : Obligations.ResetRegisterValues :=
  ⟨rfl, rfl, rfl, rfl, rfl, rfl, rfl, rfl, rfl, rfl⟩

end Sys2Proof.Machine
end
